-- ==== Sys2Proof/Word.lean ====
section
/-! DEFINITION. The word types (rule R61: every datum of this hardware is one 32-bit word). -/

namespace Sys2Proof

/-- One byte of a word as a host bus shows it (rule R61). -/
abbrev Byte := BitVec 8

/-- One 32-bit word: a binary32 datum (R110) or an unsigned integer (R119), as the register says. -/
abbrev Word := BitVec 32

end Sys2Proof
end

