-- ==== Sys2Proof/Syntax.lean ====
section
/-! DEFINITION. The commands of the opcode table, the small enumerations of rule R93, the groups of
registers the spec names together, and the moves a host can make. -/

namespace Sys2Proof

/-- The three host commands, one constructor per row of the opcode map (R91). A command word carries
no operand (R90, R92), so no constructor has a field. -/
inductive Instr where
  /-- `prepare(sampleRateHz, channelCount, maxDelayMs)`, R211. -/
  | prepare
  /-- `release()`, R214. -/
  | release
  /-- `processBlock(buffer)`, R215. -/
  | process
  deriving DecidableEq, Repr

/-- The fields of a command word of format `CMD32` (R90). -/
structure Cmd32 where
  /-- Bits 7 to 0. -/
  opc : BitVec 8
  /-- Bits 31 to 8. -/
  zero : BitVec 24
  deriving DecidableEq, Repr

/-- The lifecycle states of R21. The encoding 3 is never held, so there is no constructor for it. -/
inductive EngState where
  | unprepared
  | prepared
  | releasing
  deriving DecidableEq, Repr

/-- The cause codes of R241; the codes 7 to 15 are never produced and have no constructor. -/
inductive Cause where
  | none
  | cfgFs
  | cfgNch
  | cfgMaxDelay
  | useUnprepared
  | useNsamp
  | illegalCmd
  deriving DecidableEq, Repr

/-- A filter stage; the tag is both the kind and the index `s` of `CF[s]` and `FH[s]` (R93). -/
inductive Stage where
  | highPass
  | lowPass
  deriving DecidableEq, Repr

/-- A channel: left is 0, right is 1 (R93). -/
inductive Channel where
  | left
  | right
  deriving DecidableEq, Repr

/-- The index `k` of `PARAM[k]` and `SM[k]` (R93). -/
inductive ParamIx where
  | delayTime
  | dryWetMix
  | hpfCutoff
  | lpfCutoff
  deriving DecidableEq, Repr

/-- Four words in the order of R93: the `PARAM` registers (R31), the smoothers `SM` (R24), the
targets of one block (R215 step 1). -/
structure Params where
  delayTime : Word
  dryWetMix : Word
  hpfCutoff : Word
  lpfCutoff : Word
  deriving DecidableEq, Repr

/-- The five coefficients of one stage in the order of R25. -/
structure Coefs where
  b0 : Word
  b1 : Word
  b2 : Word
  a1 : Word
  a2 : Word
  deriving DecidableEq, Repr

/-- The four history words of one stage on one channel in the order of R26. -/
structure History where
  x1 : Word
  x2 : Word
  y1 : Word
  y2 : Word
  deriving DecidableEq, Repr

/-- One thing per stage (`CF[s]`, `FH[s]`). -/
structure PerStage (α : Type) where
  highPass : α
  lowPass : α
  deriving DecidableEq, Repr

/-- One thing per channel (`FH[s][c]`). -/
structure PerChannel (α : Type) where
  left : α
  right : α
  deriving DecidableEq, Repr

/-- Where, inside the command that runs next, a control-thread write lands: before one of the four
reads of R215 step 1, or after the last of them (R67). -/
inductive LandingPoint where
  | beforeRead (k : ParamIx)
  | afterReads
  deriving DecidableEq, Repr

/-- A control-thread write of one `PARAM` register that lands while a command runs (R67). -/
structure ParamWrite where
  index : ParamIx
  value : Word
  point : LandingPoint
  deriving DecidableEq, Repr

/-- One move of the world outside the engine (R63, R66, R67, R270). `width` is in bytes; R62 gives
a meaning to 4 only. -/
inductive HostMove where
  /-- `HostWrite(addr, value)`. -/
  | write (addr width : Nat) (value : Word)
  /-- `HostRead(addr)`. -/
  | read (addr width : Nat)
  /-- A control-thread write that will land while the next command runs (R67). -/
  | overlap (w : ParamWrite)
  /-- The hardware reset event (R270). -/
  | reset
  deriving DecidableEq, Repr

end Sys2Proof
end

