-- ==== Sys2Proof/WellFormed.lean ====
section
/-! DEFINITION. What a well-formed command, command word and host access are (R62, R90, R91). -/

namespace Sys2Proof

/-- A command has no field that could be out of range (R92: "No operand is an immediate"). -/
def Instr.wf : Instr → Bool
  | .prepare => true
  | .release => true
  | .process => true

/-- A command word selects a row of the opcode map when `ZERO` is 0 and `OPC` is 1, 2 or 3 (R91, R94). -/
def Cmd32.wf (f : Cmd32) : Bool :=
  f.zero == 0#24 && (f.opc == 1#8 || f.opc == 2#8 || f.opc == 3#8)

/-- R62: a host access is defined for 32-bit accesses at a multiple of 4 in 0x0000 to 0xFFFC. -/
def HostMove.wf : HostMove → Bool
  | .write addr width _ => width == 4 && addr % 4 == 0 && decide (addr < 0x10000)
  | .read addr width => width == 4 && addr % 4 == 0 && decide (addr < 0x10000)
  | .overlap _ => true
  | .reset => true

end Sys2Proof
end

