-- ==== Sys2Proof/Decode.lean ====
section
/-! DEFINITION. Decoding of command words (R90, R91, R94) and, after it, the encoder. -/

namespace Sys2Proof

/-- Why a command word is illegal (R94). -/
inductive DecodeError where
  /-- Fewer than four bytes: R90 has one length, 32 bits. -/
  | tooShort
  /-- `w[31:8]` is not 0. -/
  | zeroFieldNotZero
  /-- `OPC` is 0x00 or 0x04 to 0xFF. -/
  | unknownOpcode
  deriving DecidableEq, Repr

/-- The four bytes of a word, the byte at the lowest address first: bits 7 to 0 (R61). -/
def wordBytes (w : Word) : List Byte :=
  [w.extractLsb' 0 8, w.extractLsb' 8 8, w.extractLsb' 16 8, w.extractLsb' 24 8]

/-- The word whose bytes, lowest address first, are these (R61). -/
def wordOfBytes (b0 b1 b2 b3 : Byte) : Word := b3 ++ b2 ++ b1 ++ b0

/-- The fields of a command word (R90). -/
def cmdFields (w : Word) : Cmd32 :=
  { opc := w.extractLsb' 0 8, zero := w.extractLsb' 8 24 }

/-- The row of the opcode map a command word selects (R91), or why it is illegal (R94). -/
def decodeFields (f : Cmd32) : Except DecodeError Instr :=
  if f.zero ≠ 0#24 then .error .zeroFieldNotZero
  else if f.opc = 0x01#8 then .ok .prepare
  else if f.opc = 0x02#8 then .ok .release
  else if f.opc = 0x03#8 then .ok .process
  else .error .unknownOpcode

/-- Decoding of a whole command word. -/
def decodeWord (w : Word) : Except DecodeError Instr := decodeFields (cmdFields w)

/-- Decoding of bytes, lowest address first; the rest of the bytes is handed back. -/
def decode : List Byte → Except DecodeError (Instr × List Byte)
  | b0 :: b1 :: b2 :: b3 :: rest =>
    match decodeWord (wordOfBytes b0 b1 b2 b3) with
    | .ok i => .ok (i, rest)
    | .error e => .error e
  | _ => .error .tooShort

/-- The word of the table's bits: every bit above `nbits` is 0. -/
def tableWord (nbits w : Nat) : Word := BitVec.ofNat 32 (w % 2 ^ nbits)

/-- What the decoder reads from a command whose bits are `w`, numbered as the opcode table numbers
them. -/
def decodeTableWord (nbits w : Nat) : Option Instr :=
  match decode (wordBytes (tableWord nbits w)) with
  | .ok (i, _) => some i
  | .error _ => none

/-- The command word of a command (R91, column "match"). -/
def encode : Instr → Word
  | .prepare => 0x00000001#32
  | .release => 0x00000002#32
  | .process => 0x00000003#32

/-- The bytes of a command word as a host bus carries them (R61). -/
def encodeBytes (i : Instr) : List Byte := wordBytes (encode i)

end Sys2Proof
end

