-- ==== Sys2Proof/Config.lean ====
section
/-! DEFINITION. The parameters of the hardware (R5, R33) and the free values, which have no body so
that no proof can know them. -/

namespace Sys2Proof

/-- The configuration fields of R5. `exec` runs the defaults, `Sys2Proof.Machine.hardware`. -/
structure Config where
  /-- `K_SMOOTH`, the smoothing coefficient (R141). -/
  kSmooth : Word
  /-- `Q_FIXED`, the Q of both stages (R152). -/
  qFixed : Word
  /-- `FC_LO`, the lower clamp of a cutoff in Hz (R153). -/
  fcLo : Word
  /-- `FC_HI_RATIO`, the upper clamp as a fraction of the sample rate (R153). -/
  fcHiRatio : Word
  /-- `COEF`: a total function of kind, cutoff, Q and sample rate alone (R157, U1). -/
  coef : Stage → Word → Word → Word → Coefs
  /-- `CAP_GUARD`, words added to the ring capacity (R212, U11). -/
  capGuard : Nat
  /-- `RING_DEPTH`, words of each ring RAM (U13). -/
  ringDepth : Nat
  /-- `BLOCK_MAX`, words per channel of the block buffer (U13). -/
  blockMax : Nat
  /-- `SM_RESET` (U14). -/
  smReset : Params
  /-- `SUBNORMALS`: true is supported, false is flush-to-zero (R114, U10). -/
  subnormals : Bool
  /-- `RING_WRITE_ON_BYPASS` (R194, U12). -/
  ringWriteOnBypass : Bool

/-- What the spec requires of a configuration: `RING_DEPTH + BLOCK_MAX < 2^31` (R119), and a block
buffer that fits the `HOST` window 0x8000 to 0xFFFF (R64; DEDUCED, log entry 4). -/
def Config.wf (cfg : Config) : Bool :=
  decide (cfg.ringDepth + cfg.blockMax < 2 ^ 31) && decide (8 * cfg.blockMax ≤ 0x8000)

/-- `SM_RESET` = (+0.0, +0.0, 20.0, 20000.0), the default of R5. -/
def smResetDefault : Params where
  delayTime := 0x00000000#32
  dryWetMix := 0x00000000#32
  hpfCutoff := 0x41A00000#32
  lpfCutoff := 0x469C4000#32

/-- FREE VALUE: the sign and payload of the `n`-th NaN result (R113, U2; log entry 3). -/
opaque Config.freeNaN : Nat → Word

/-- FREE VALUE: what the `n`-th read of a word that nothing has written returns (U7; log entry 2). -/
opaque Config.unwrittenWord : Nat → Word

/-- FREE VALUE: what COEF gives outside the domain of its formulas, for a cutoff, Q, rate and the number
of the formula (U1; log entry 8). -/
opaque Config.coefOutside : Word → Word → Word → Nat → Word

end Sys2Proof
end

