-- ==== Sys2Proof/Machine/F32.lean ====
section
/-! DEFINITION. The binary32 primitives of `40_numerics.md` (R110 to R118, R122) on 32-bit patterns.
Every finite binary32 value is a whole multiple of 2^-149, so an operation is exact arithmetic on
integers counted in that unit, followed by one rounding. -/

namespace Sys2Proof.Machine

/-- Bit 31, the sign (R110). -/
def F32.neg (w : Word) : Bool := decide (2 ^ 31 ≤ w.toNat)

/-- Bits 30 to 0: the exponent and the fraction as one number (R110). -/
def F32.mag (w : Word) : Nat := w.toNat % 2 ^ 31

/-- The pattern with this sign and these bits 30 to 0. -/
def F32.ofMag (s : Bool) (m : Nat) : Word := BitVec.ofNat 32 ((if s then 2 ^ 31 else 0) + m)

/-- Bits 30 to 0 of an infinity: exponent 255, fraction 0 (R110). -/
def F32.infMag : Nat := 0x7F800000

def F32.isNaN (w : Word) : Bool := decide (F32.infMag < F32.mag w)

def F32.isInf (w : Word) : Bool := decide (F32.mag w = F32.infMag)

def F32.isFinite (w : Word) : Bool := decide (F32.mag w < F32.infMag)

def F32.isZero (w : Word) : Bool := decide (F32.mag w = 0)

/-- Exponent 0 and fraction not 0 (R110). -/
def F32.isSubnormal (w : Word) : Bool := decide (0 < F32.mag w) && decide (F32.mag w < 2 ^ 23)

/-- The magnitude of the finite value with these bits 30 to 0, in units of 2^-149 (R110). -/
def F32.magUnits (m : Nat) : Nat :=
  if m / 2 ^ 23 = 0 then m % 2 ^ 23 else (2 ^ 23 + m % 2 ^ 23) * 2 ^ (m / 2 ^ 23 - 1)

/-- The magnitude of a finite pattern in units of 2^-149. -/
def F32.units (w : Word) : Nat := F32.magUnits (F32.mag w)

/-- The value of a finite pattern in units of 2^-149 (R110). -/
def F32.val (w : Word) : Int := if F32.neg w then -(F32.units w : Int) else (F32.units w : Int)

/-- `num / den` to the nearest integer, ties to even (R111). -/
def F32.roundDiv (num den : Nat) : Nat :=
  if 2 * (num % den) < den then num / den
  else if den < 2 * (num % den) then num / den + 1
  else num / den + num / den % 2

/-- Bits 30 to 0 of the binary32 nearest to `num / den` units of 2^-149, ties to even, an infinity
from 2^128 on (R111). The spacing of the neighbours is `2 ^ sh` units. -/
def F32.roundMag (num den : Nat) : Nat :=
  let sh := (num / den).log2 - 23
  min (sh * 2 ^ 23 + F32.roundDiv num (den * 2 ^ sh)) F32.infMag

/-- The quiet NaN of draw `n`: exponent 255, bit 22 set (R110); the sign and the 22 payload bits are
those of the free value (R113). -/
def F32.nan (n : Nat) : Word :=
  F32.ofMag (F32.neg (Config.freeNaN n)) (0x7FC00000 + (Config.freeNaN n).toNat % 2 ^ 22)

/-- Flush-to-zero where the configuration asks for it: a subnormal becomes a zero of the same sign
(R114, U10). With `SUBNORMALS` supported this changes nothing. -/
def F32.flush (cfg : Config) (w : Word) : Word :=
  if !cfg.subnormals && F32.isSubnormal w then F32.ofMag (F32.neg w) 0 else w

/-- `-b`: the sign bit flipped (R112). -/
def F32.negate (w : Word) : Word := F32.ofMag (!F32.neg w) (F32.mag w)

/-- Addition with subnormals kept (R111, R112, R115). -/
def F32.add (n : Nat) (a b : Word) : Word :=
  if F32.isNaN a || F32.isNaN b then F32.nan n
  else if F32.isInf a then
    if F32.isInf b && F32.neg a != F32.neg b then F32.nan n else a
  else if F32.isInf b then b
  else if F32.val a + F32.val b = 0 then F32.ofMag (F32.neg a && F32.neg b) 0
  else F32.ofMag (decide (F32.val a + F32.val b < 0))
    (F32.roundMag (F32.val a + F32.val b).natAbs 1)

/-- Multiplication with subnormals kept (R111, R112, R115). -/
def F32.mul (n : Nat) (a b : Word) : Word :=
  if F32.isNaN a || F32.isNaN b then F32.nan n
  else if F32.isInf a || F32.isInf b then
    if F32.isZero a || F32.isZero b then F32.nan n
    else F32.ofMag (F32.neg a != F32.neg b) F32.infMag
  else F32.ofMag (F32.neg a != F32.neg b)
    (F32.roundMag (F32.units a * F32.units b) (2 ^ 149))

/-- Division with subnormals kept (R111, R112, R115). -/
def F32.div (n : Nat) (a b : Word) : Word :=
  if F32.isNaN a || F32.isNaN b then F32.nan n
  else if F32.isInf a then
    if F32.isInf b then F32.nan n else F32.ofMag (F32.neg a != F32.neg b) F32.infMag
  else if F32.isInf b then F32.ofMag (F32.neg a != F32.neg b) 0
  else if F32.isZero b then
    if F32.isZero a then F32.nan n else F32.ofMag (F32.neg a != F32.neg b) F32.infMag
  else F32.ofMag (F32.neg a != F32.neg b)
    (F32.roundMag (F32.units a * 2 ^ 149) (F32.units b))

/-- `fadd(a, b)` of R112; `n` numbers the draw of a NaN result. -/
def F32.fadd (cfg : Config) (n : Nat) (a b : Word) : Word :=
  F32.flush cfg (F32.add n (F32.flush cfg a) (F32.flush cfg b))

/-- `fsub(a, b) = fadd(a, -b)` (R112). -/
def F32.fsub (cfg : Config) (n : Nat) (a b : Word) : Word := F32.fadd cfg n a (F32.negate b)

/-- `fmul(a, b)` of R112. -/
def F32.fmul (cfg : Config) (n : Nat) (a b : Word) : Word :=
  F32.flush cfg (F32.mul n (F32.flush cfg a) (F32.flush cfg b))

/-- `fdiv(a, b)` of R112. -/
def F32.fdiv (cfg : Config) (n : Nat) (a b : Word) : Word :=
  F32.flush cfg (F32.div n (F32.flush cfg a) (F32.flush cfg b))

/-- `fabs(a)`: bit 31 cleared (R117). -/
def F32.fabs (w : Word) : Word := F32.ofMag false (F32.mag w)

/-- The place of a pattern that is no NaN in the order of the values: the magnitude bits, negated
for a negative pattern; both zeros are at 0 (R116). -/
def F32.key (w : Word) : Int := if F32.neg w then -(F32.mag w : Int) else (F32.mag w : Int)

/-- Neither operand is a NaN. -/
def F32.ordered (a b : Word) : Bool := !F32.isNaN a && !F32.isNaN b

/-- `a < b` on the values; false with a NaN operand (R116). -/
def F32.lt (a b : Word) : Bool := F32.ordered a b && decide (F32.key a < F32.key b)

/-- `a ≤ b` on the values; false with a NaN operand (R116). -/
def F32.le (a b : Word) : Bool := F32.ordered a b && decide (F32.key a ≤ F32.key b)

/-- `flt(a, b)` of R116. -/
def F32.flt (cfg : Config) (a b : Word) : Bool := F32.lt (F32.flush cfg a) (F32.flush cfg b)

/-- `fle(a, b)` of R116. -/
def F32.fle (cfg : Config) (a b : Word) : Bool := F32.le (F32.flush cfg a) (F32.flush cfg b)

/-- `fgt(a, b)` of R116. -/
def F32.fgt (cfg : Config) (a b : Word) : Bool := F32.flt cfg b a

/-- `fge(a, b)` of R116. -/
def F32.fge (cfg : Config) (a b : Word) : Bool := F32.fle cfg b a

/-- `feq(a, b)` of R116. -/
def F32.feq (cfg : Config) (a b : Word) : Bool := F32.fle cfg a b && F32.fle cfg b a

/-- `floor_u32(a)` of R118: defined when `a` is not a NaN and `0 ≤ a < 2^32`. -/
def F32.floorU32 (w : Word) : Option Nat :=
  if !F32.isFinite w then none
  else if F32.neg w && !F32.isZero w then none
  else if F32.units w / 2 ^ 149 < 2 ^ 32 then some (F32.units w / 2 ^ 149)
  else none

/-- `rnd32(num / den)` of R122; a zero is `+0.0`. -/
def F32.rnd32 (num : Int) (den : Nat) : Word :=
  F32.ofMag (decide (num < 0)) (F32.roundMag (num.natAbs * 2 ^ 149) den)

/-- `+0.0`. -/
def F32.zero : Word := 0x00000000#32
/-- `1.0`. -/
def F32.one : Word := 0x3F800000#32
/-- `DT_FULL` = 17.5 (R5). -/
def F32.dtFull : Word := 0x418C0000#32
/-- `1000.0` (R181). -/
def F32.thousand : Word := 0x447A0000#32

end Sys2Proof.Machine
end

