-- ==== Sys2Proof/Machine/Coef.lean ====
section
/-! DEFINITION. The coefficient function COEF of R155 and R156, correctly rounded: an enclosure of
the exact real value in fixed point, rounded at both ends. Where the two ends round to the same
pattern that pattern is the correct rounding; where they do not, the precision is doubled until they
do (log entry 8). `Laws/CoefDecided.lean` proves that this ends for all operands of the formulas'
domain. -/

namespace Sys2Proof.Machine

/-! The unit of an enclosure of precision `p` is 2^-p. -/

/-- The first precision tried. -/
def Coef.firstBits : Nat := 512

/-- `1/(2j+1) - (1/xx)·(1/(2j+3) - …)` with `k` levels, as numerator and denominator: `x` times the
arctangent series at `1/x`, for `xx = x²`, from its term `j`. -/
def Coef.arctan (xx : Nat) : (k j : Nat) → Int × Nat
  | 0, j => (1, 2 * j + 1)
  | k + 1, j =>
    ((((Coef.arctan xx k (j + 1)).2 * xx : Nat) : Int)
        - (Coef.arctan xx k (j + 1)).1 * ((2 * j + 1 : Nat) : Int),
      (Coef.arctan xx k (j + 1)).2 * ((2 * j + 1) * xx))

/-- `π·2^p` from below, by Machin's formula `π = 16·arctan(1/5) - 4·arctan(1/239)`: an even number of
terms of the first series, an odd number of the second. -/
def Coef.piFloor (p : Nat) : Nat :=
  (2 ^ p * (16 * (Coef.arctan 25 (p / 8 * 2 + 1) 0).1 * (239 * (Coef.arctan 57121 (p / 8 * 2) 0).2 : Nat)
      - 4 * (Coef.arctan 57121 (p / 8 * 2) 0).1 * (5 * (Coef.arctan 25 (p / 8 * 2 + 1) 0).2 : Nat))
    / ((5 * (Coef.arctan 25 (p / 8 * 2 + 1) 0).2 * (239 * (Coef.arctan 57121 (p / 8 * 2) 0).2) : Nat)
      : Int)).toNat

/-- `1 - x²/((2j-1+off)(2j+off)) · (1 - …)` with `k` levels, as numerator and denominator, for
`x² = xx · 2^-2p`: the Taylor polynomial of cosine for `off = 0` and of `sin(x)/x` for
`off = 1`, from `j = 1`. -/
def Coef.taylor (p xx off : Nat) : (k j : Nat) → Int × Nat
  | 0, _ => (1, 1)
  | k + 1, j =>
    ((((Coef.taylor p xx off k (j + 1)).2 * ((2 * j - 1 + off) * (2 * j + off) * 2 ^ (2 * p)) : Nat)
        : Int) - (Coef.taylor p xx off k (j + 1)).1 * xx,
      (Coef.taylor p xx off k (j + 1)).2 * ((2 * j - 1 + off) * (2 * j + off) * 2 ^ (2 * p)))

/-- How many levels of the Taylor polynomials precision `p` takes. -/
def Coef.levels (p : Nat) : Nat := p / 8 + 5

/-- `2·π·(num/den)` from below, in units of 2^-p. -/
def Coef.angle (p num den : Nat) : Nat := 2 * Coef.piFloor p * num / den

/-- The cosine of `x` units, in the same unit. -/
def Coef.cosUnits (p x : Nat) : Int :=
  (Coef.taylor p (x * x) 0 (Coef.levels p) 1).1 * 2 ^ p /
    ((Coef.taylor p (x * x) 0 (Coef.levels p) 1).2 : Int)

/-- The sine of `x` units, in the same unit. -/
def Coef.sinUnits (p x : Nat) : Int :=
  (Coef.taylor p (x * x) 1 (Coef.levels p) 1).1 * x /
    ((Coef.taylor p (x * x) 1 (Coef.levels p) 1).2 : Int)

/-- How far the two ends of an enclosure stand from the computed value: the angle, the Taylor
remainder and the last division together are off by less than eight units. -/
def Coef.slack : Int := 8

/-- A closed interval with integer ends. -/
structure Coef.Interval where
  lo : Int
  hi : Int
  deriving DecidableEq, Repr

/-- Enclosures of `cos(2π·num/den)` and `sin(2π·num/den)` in units of 2^-p, for
`0 < num/den < 1/2`. Where a rational value lets a coefficient be a tie or 0 it is exact: cosine 0 and
sine 1 at a quarter turn, sine 1/2 at one and at five twelfths. -/
def Coef.cosSin (p num den : Nat) : Coef.Interval × Coef.Interval :=
  if 4 * num = den then (⟨0, 0⟩, ⟨2 ^ p, 2 ^ p⟩)
  else
    (⟨Coef.cosUnits p (Coef.angle p num den) - Coef.slack,
      Coef.cosUnits p (Coef.angle p num den) + Coef.slack⟩,
     if 12 * num = den ∨ 12 * num = 5 * den then ⟨2 ^ (p - 1), 2 ^ (p - 1)⟩
     else
      ⟨Coef.sinUnits p (Coef.angle p num den) - Coef.slack,
       Coef.sinUnits p (Coef.angle p num den) + Coef.slack⟩)

/-- The correct rounding of a quotient with numerator in `n` and positive denominator in `d`, if
both ends of its enclosure round alike. -/
def Coef.roundQuotient (n d : Coef.Interval) : Option Word :=
  let lo := F32.rnd32 n.lo (if 0 ≤ n.lo then d.hi.toNat else d.lo.toNat)
  let hi := F32.rnd32 n.hi (if 0 ≤ n.hi then d.lo.toNat else d.hi.toNat)
  if lo = hi then some lo else none

/-- The domain of the formulas: finite operands with `0 < fc < fs/2` and `Q > 0` (R155). -/
def Coef.inDomain (fc q fs : Word) : Bool :=
  F32.isFinite fc && F32.isFinite q && F32.isFinite fs &&
  !F32.neg fc && !F32.neg q && !F32.neg fs &&
  decide (0 < F32.units fc) && decide (0 < F32.units q) &&
  decide (2 * F32.units fc < F32.units fs)

/-- The numerators of the formulas of R155 and R156 and their common denominator, all multiplied
by `2·Q` (in units of 2^-149) and by 2^p. -/
structure Coef.Parts where
  hpB0 : Coef.Interval
  hpB1 : Coef.Interval
  lpB0 : Coef.Interval
  lpB1 : Coef.Interval
  a1 : Coef.Interval
  a2 : Coef.Interval
  den : Coef.Interval
  deriving DecidableEq, Repr

/-- `(1 ± cs)/2`, `∓(1 ± cs)`, `-2·cs`, `1 - al` over `a0 = 1 + al`, `al = sn/(2·Q)`. Both
`1 + cs` and `1 - cs` are not negative, so their lower ends are cut at 0. -/
def Coef.parts (fc q fs : Word) (p : Nat) : Coef.Parts :=
  let cs := (Coef.cosSin p (F32.units fc) (F32.units fs)).1
  let sn := (Coef.cosSin p (F32.units fc) (F32.units fs)).2
  let k : Int := F32.units q
  { hpB0 := ⟨max 0 (2 ^ p + cs.lo) * k, (2 ^ p + cs.hi) * k⟩
    hpB1 := ⟨-2 * ((2 ^ p + cs.hi) * k), -2 * (max 0 (2 ^ p + cs.lo) * k)⟩
    lpB0 := ⟨max 0 (2 ^ p - cs.hi) * k, (2 ^ p - cs.lo) * k⟩
    lpB1 := ⟨2 * (max 0 (2 ^ p - cs.hi) * k), 2 * ((2 ^ p - cs.lo) * k)⟩
    a1 := ⟨-4 * (cs.hi * k), -4 * (cs.lo * k)⟩
    a2 := ⟨2 * k * 2 ^ p - sn.hi * 2 ^ 149, 2 * k * 2 ^ p - sn.lo * 2 ^ 149⟩
    den := ⟨2 * k * 2 ^ p + max 0 sn.lo * 2 ^ 149, 2 * k * 2 ^ p + sn.hi * 2 ^ 149⟩ }

/-- The first rounding that a precision of `p`, `2p`, `4p`, … decides. -/
def Coef.search (round : Nat → Option Word) (p : Nat) : Option Word :=
  match round p with
  | some w => some w
  | none => Coef.search round (2 * p)
partial_fixpoint

/-- One coefficient: the correct rounding, as the first precision that decides it gives it. In the
domain of the formulas some precision does (`Coef.value_decided`), so the free value is not taken
there. -/
def Coef.entry (fc q fs : Word) (number : Nat) (round : Nat → Option Word) : Word :=
  match round Coef.firstBits with
  | some w => w
  | none =>
    (Coef.search round (2 * Coef.firstBits)).getD (Config.coefOutside fc q fs number)

/-- The six formulas of R155 and R156, numbered: `b0` and `b1` of the high-pass, `b0` and `b1` of the
low-pass, `a1`, `a2`. -/
inductive Coef.Formula where
  | hpB0
  | hpB1
  | lpB0
  | lpB1
  | a1
  | a2
  deriving DecidableEq, Repr

/-- The number of a formula. -/
def Coef.Formula.number : Coef.Formula → Nat
  | .hpB0 => 0
  | .hpB1 => 1
  | .lpB0 => 2
  | .lpB1 => 3
  | .a1 => 4
  | .a2 => 5

/-- The numerator of a formula. -/
def Coef.Parts.numerator (p : Coef.Parts) : Coef.Formula → Coef.Interval
  | .hpB0 => p.hpB0
  | .hpB1 => p.hpB1
  | .lpB0 => p.lpB0
  | .lpB1 => p.lpB1
  | .a1 => p.a1
  | .a2 => p.a2

/-- What precision `p` says of a formula. -/
def Coef.roundAt (fc q fs : Word) (f : Coef.Formula) (p : Nat) : Option Word :=
  Coef.roundQuotient ((Coef.parts fc q fs p).numerator f) (Coef.parts fc q fs p).den

/-- `rnd32` of a formula (R122, R155, R156); outside the domain of the formulas, where R155 and R156 say
nothing, a free value (U1). -/
def Coef.value (fc q fs : Word) (f : Coef.Formula) : Word :=
  if Coef.inDomain fc q fs then Coef.entry fc q fs f.number (Coef.roundAt fc q fs f)
  else Config.coefOutside fc q fs f.number

/-- The default `COEF` of R155 (high-pass) and R156 (low-pass). Outside the domain both stages share
the free value of `b0` with `b2`. -/
def Coef.cookbook (kind : Stage) (fc q fs : Word) : Coefs :=
  match kind with
  | .highPass =>
    { b0 := Coef.value fc q fs .hpB0
      b1 := Coef.value fc q fs .hpB1
      b2 := Coef.value fc q fs .hpB0
      a1 := Coef.value fc q fs .a1
      a2 := Coef.value fc q fs .a2 }
  | .lowPass =>
    { b0 := Coef.value fc q fs .lpB0
      b1 := Coef.value fc q fs .lpB1
      b2 := Coef.value fc q fs .lpB0
      a1 := Coef.value fc q fs .a1
      a2 := Coef.value fc q fs .a2 }

end Sys2Proof.Machine
end

