-- ==== Sys2Proof/Machine/Hardware.lean ====
section
/-! DEFINITION. The configuration `exec` runs: the defaults of R5. -/

namespace Sys2Proof.Machine

/-- `NCH_MAX` = 2 (R5). -/
def channelsMax : Nat := 2

/-- Every configuration field at the default of R5. -/
def hardware : Config where
  kSmooth := 0x3C23D70A#32
  qFixed := 0x3F3504F3#32
  fcLo := 0x41A00000#32
  fcHiRatio := 0x3EFAE148#32
  coef := Coef.cookbook
  capGuard := 0
  ringDepth := 65536
  blockMax := 4096
  smReset := smResetDefault
  subnormals := true
  ringWriteOnBypass := true

end Sys2Proof.Machine
end

