-- ==== Sys2Proof/Machine/State.lean ====
section
/-! DEFINITION. The state of the machine as plain data (R20 to R32), why a step can stop, and the
state after reset (R36, R270). -/

namespace Sys2Proof.Machine

/-- A memory: the bytes that something has written, as (address, byte) pairs with rising addresses.
A byte that is not listed is one that nothing has written since reset (log entries 2 and 7). -/
abbrev Memory := List Host.Cell

/-- Why the machine stops with a fault. -/
inductive Fault where
  /-- Raised by the host port on an access at 0x10000 or above: the `HOST` space is 64 KiB (R60,
  R62), so no such address exists. Safe. -/
  | outsideHostSpace
  deriving DecidableEq, Repr

/-- Why a step has no meaning. -/
inductive Refusal where
  /-- Raised by an arm of `exec` that has no meaning yet; no arm does. Safe. -/
  | notModelled (mnemonic : String)
  /-- Raised by the host port on an access that is not 32 bits wide (R62, U6). Safe. -/
  | accessWidth
  /-- Raised by the host port on an address that is no multiple of 4 (R62, U6). Safe. -/
  | misalignedAccess
  /-- Raised by PROCESS when a target is outside its legal closed range or a NaN (R219, U3). Safe. -/
  | targetOutOfRange
  /-- Raised by PROCESS when `CFG_FS` is a subnormal number (R153, U9). Safe. -/
  | subnormalRate
  /-- Raised by PROCESS in a Prepared state with a capacity outside `1..RING_DEPTH` or more than two
  channels, where `mod C` or a channel has no meaning (R119, R187); R37 rules such states out. Safe. -/
  | brokenConfiguration
  /-- Raised by PROCESS when `floor_u32` is asked outside `[0, 2^32)` (R118, U16). Safe. -/
  | floorDomain
  /-- Raised by PROCESS when a delay length is above the capacity (R196, U5). Safe. -/
  | delayBeyondCapacity
  deriving DecidableEq, Repr

/-- The whole state (R20) and, below the line, the model's own fields. -/
structure State where
  /-- `ENG_STATE` (R21). -/
  engState : EngState
  /-- `CFG_FS` (R22). -/
  cfgFs : Word
  /-- `CFG_NCH` (R22). -/
  cfgNch : Word
  /-- `CFG_MAXMS` (R22). -/
  cfgMaxMs : Word
  /-- `CAPACITY`, `C` in the rules (R22). -/
  capacity : Word
  /-- `W` (R23). -/
  writePos : Word
  /-- `SM[0..3]` (R24). -/
  sm : Params
  /-- `CF[s][0..4]` (R25). -/
  cf : PerStage Coefs
  /-- `FH[s][c][0..3]` (R26). -/
  fh : PerStage (PerChannel History)
  /-- `RING[c][j]` (R27), `RINGMEM` of R60. -/
  ring : Memory
  /-- `BUF[c][i]` (R28), `BUFMEM` of R60, under its `HOST` addresses (R64). -/
  buf : Memory
  /-- `STATUS.CAUSE` (R30). -/
  cause : Cause
  /-- `STATUS.ESTICKY` (R30). -/
  esticky : Bool
  /-- `ARG_FS` (R32). -/
  argFs : Word
  /-- `ARG_NCH` (R32). -/
  argNch : Word
  /-- `ARG_MAXMS` (R32). -/
  argMaxMs : Word
  /-- `ARG_NSAMP` (R32). -/
  argNsamp : Word
  /-- `PARAM[0..3]` (R31). -/
  param : Params
  /-- The model's own: the host's moves still to come, the next one first (log entry 5). -/
  host : List HostMove
  /-- The model's own: the control-thread writes that land while the next command runs (log entry 5). -/
  landing : List ParamWrite
  /-- The model's own: the word the last `HostRead` returned (log entry 6). -/
  rdata : Word
  /-- The model's own: how many free values have been drawn (log entry 3). -/
  draws : Nat
  deriving DecidableEq, Repr

/-- Five coefficients at the value the model names for reset (log entry 1). -/
def Coefs.atReset : Coefs := ⟨0, 0, 0, 0, 0⟩

/-- Four history words `+0.0`: after PREPARE by R211, after reset by the model's choice (log entry 1). -/
def History.cleared : History := ⟨0, 0, 0, 0⟩

/-- The column "after hardware reset" of R36, with `SM_RESET` as the configuration has it (R33, U14). -/
def State.resetWith (cfg : Config) : State where
  engState := .unprepared
  cfgFs := 0
  cfgNch := 0
  cfgMaxMs := 0
  capacity := 0
  writePos := 0
  sm := cfg.smReset
  cf := ⟨Coefs.atReset, Coefs.atReset⟩
  fh := ⟨⟨History.cleared, History.cleared⟩, ⟨History.cleared, History.cleared⟩⟩
  ring := []
  buf := []
  cause := .none
  esticky := false
  argFs := 0
  argNch := 0
  argMaxMs := 0
  argNsamp := 0
  param := cfg.smReset
  host := []
  landing := []
  rdata := 0
  draws := 0

/-- The machine right after reset, with the configuration `exec` runs. -/
def State.reset : State := State.resetWith hardware

end Sys2Proof.Machine
end

