-- ==== Sys2Proof/Machine/Ops.lean ====
section
/-! DEFINITION. The named operations over memories and registers: the engine's primitives (R74), the
register files (R24 to R26), reporting an error (R245) and success, landing a control-thread write
(R67), the reset event (R270). -/

namespace Sys2Proof.Machine

/-! Memories -/

/-- The byte listed at an address; `none` where nothing has written. -/
def Memory.get : Memory → Nat → Option Byte
  | [], _ => none
  | (k, v) :: m, a => if a = k then some v else Memory.get m a

/-- The memory with one byte written, the addresses kept rising. -/
def Memory.set : Memory → Nat → Byte → Memory
  | [], a, b => [(a, b)]
  | (k, v) :: m, a, b =>
    if a < k then (a, b) :: (k, v) :: m
    else if a = k then (a, b) :: m
    else (k, v) :: Memory.set m a b

/-- The canonical form: addresses strictly rising. An unlisted byte has no value of its own, so no
entry can repeat what an unlisted address reads as. -/
abbrev Memory.wf (m : Memory) : Prop := m.Pairwise (fun x y => x.1 < y.1)

/-- Byte `k` of the word at `a`, or of the free value of draw `n` where nothing has written (U7). -/
def Memory.byteAt (m : Memory) (n a k : Nat) : Byte :=
  (Memory.get m (a + k)).getD ((Config.unwrittenWord n).extractLsb' (8 * k) 8)

/-- The word at byte address `a`, little-endian (R61). -/
def Memory.getWord (m : Memory) (n a : Nat) : Word :=
  wordOfBytes (Memory.byteAt m n a 0) (Memory.byteAt m n a 1) (Memory.byteAt m n a 2)
    (Memory.byteAt m n a 3)

/-- The memory with the word at byte address `a` written, little-endian (R61). -/
def Memory.setWord (m : Memory) (a : Nat) (v : Word) : Memory :=
  Memory.set (Memory.set (Memory.set (Memory.set m a (v.extractLsb' 0 8))
    (a + 1) (v.extractLsb' 8 8)) (a + 2) (v.extractLsb' 16 8)) (a + 3) (v.extractLsb' 24 8)

/-- The memory with `count` words from `a` on written `+0.0`, as one splice; it is the loop of R211
over them (proved in Laws, `Memory.clearWords_eq_loop`). -/
def Memory.clearWords (m : Memory) (a count : Nat) : Memory :=
  m.filter (fun x => decide (x.1 < a)) ++
    ((List.range (4 * count)).map fun k => ((a + k, 0) : Host.Cell)) ++
    m.filter (fun x => decide (a + 4 * count ≤ x.1))

/-! Register files -/

/-- The number of a channel (R93). -/
def Channel.index : Channel → Nat
  | .left => 0
  | .right => 1

/-- The channels `c = 0 .. n-1` in order. -/
def channelsOf (n : Nat) : List Channel := [Channel.left, Channel.right].take n

def PerStage.get {α : Type} (f : PerStage α) : Stage → α
  | .highPass => f.highPass
  | .lowPass => f.lowPass

def PerStage.set {α : Type} (f : PerStage α) (s : Stage) (v : α) : PerStage α :=
  match s with
  | .highPass => { f with highPass := v }
  | .lowPass => { f with lowPass := v }

def PerChannel.get {α : Type} (f : PerChannel α) : Channel → α
  | .left => f.left
  | .right => f.right

def PerChannel.set {α : Type} (f : PerChannel α) (c : Channel) (v : α) : PerChannel α :=
  match c with
  | .left => { f with left := v }
  | .right => { f with right := v }

def Params.get (p : Params) : ParamIx → Word
  | .delayTime => p.delayTime
  | .dryWetMix => p.dryWetMix
  | .hpfCutoff => p.hpfCutoff
  | .lpfCutoff => p.lpfCutoff

def Params.set (p : Params) (k : ParamIx) (v : Word) : Params :=
  match k with
  | .delayTime => { p with delayTime := v }
  | .dryWetMix => { p with dryWetMix := v }
  | .hpfCutoff => { p with hpfCutoff := v }
  | .lpfCutoff => { p with lpfCutoff := v }

/-! Addresses of the engine's memories (R60, R64, R74) -/

/-- The `HOST` address of `BUF[c][i]` (R64). -/
def bufAddr (cfg : Config) (c : Channel) (i : Nat) : Nat :=
  0x8000 + 4 * (Channel.index c * cfg.blockMax + i)

/-- The byte address that the model gives `RING[c][j]` in `RINGMEM` (R60; log entry 7). -/
def ringAddr (cfg : Config) (c : Channel) (j : Nat) : Nat :=
  4 * (Channel.index c * cfg.ringDepth + j)

/-! Whole-state operations -/

/-- `FH[s][c]`. -/
def State.history (s : State) (st : Stage) (c : Channel) : History :=
  PerChannel.get (PerStage.get s.fh st) c

/-- `FH[s][c] <- h`. -/
def State.setHistory (s : State) (st : Stage) (c : Channel) (h : History) : State :=
  { s with fh := PerStage.set s.fh st (PerChannel.set (PerStage.get s.fh st) c h) }

/-- `CF[s][0..4] <- k` (R151). -/
def State.setCoefs (s : State) (st : Stage) (k : Coefs) : State :=
  { s with cf := PerStage.set s.cf st k }

/-- `state <- S` (R7). -/
def State.setEngState (s : State) (e : EngState) : State := { s with engState := e }

/-- Reporting an error, `raise <Cause>` (R242, R245): the cause and the sticky bit are recorded,
nothing is saved and control goes nowhere. -/
def State.raise (s : State) (c : Cause) : State := { s with cause := c, esticky := true }

/-- The end of a command that did what its rule says: `STATUS.CAUSE <- 0` (R30). There is no return
instruction and nothing to restore (R246): the next command is accepted whatever the cause was. -/
def State.succeed (s : State) : State := { s with cause := .none }

/-- An illegal command word (R94, R218). -/
def State.illegalCommand (s : State) : State := State.raise s .illegalCmd

/-- One control-thread write of a `PARAM` register. -/
def Params.write (p : Params) (w : ParamWrite) : Params := Params.set p w.index w.value

/-- The control-thread writes that land before read `k` of R215 step 1. -/
def State.landBefore (s : State) (k : ParamIx) : State :=
  { s with
    param := (s.landing.filter fun w => decide (w.point = .beforeRead k)).foldl Params.write s.param
    landing := s.landing.filter fun w => !decide (w.point = .beforeRead k) }

/-- Every control-thread write that has not landed lands (by the end of the command, R67). -/
def State.landAll (s : State) : State :=
  { s with param := s.landing.foldl Params.write s.param, landing := [] }

/-- The hardware reset event (R270): every item of R36 at its reset value, `SM` and `PARAM` at the
`SM_RESET` of the configuration. The host's moves, the read data and the draw counter are the
model's own and stay. -/
def State.hardwareReset (cfg : Config) (s : State) : State :=
  { State.resetWith cfg with host := s.host, landing := s.landing, rdata := s.rdata, draws := s.draws }

/-- The end of the command's step: what is still to land has landed (R66, R67). -/
def finishCommand : Host.Outcome State Fault Refusal → Host.Outcome State Fault Refusal
  | .next s => .next (State.landAll s)
  | .fault f => .fault f
  | .refused r => .refused r

end Sys2Proof.Machine
end

