-- ==== Sys2Proof/Machine/Flags.lean ====
section
/-! DEFINITION. The fields of `STATUS` (R30), the nearest thing to flags; no arithmetic operation
sets any (R121). -/

namespace Sys2Proof.Machine

/-- The encoding of `ENG_STATE` (R21). -/
def EngState.code : EngState → Nat
  | .unprepared => 0
  | .prepared => 1
  | .releasing => 2

/-- The code of a cause (R241). -/
def Cause.code : Cause → Nat
  | .none => 0
  | .cfgFs => 1
  | .cfgNch => 2
  | .cfgMaxDelay => 3
  | .useUnprepared => 4
  | .useNsamp => 5
  | .illegalCmd => 6

/-- The word `STATUS` reads as: `STATE` in 1:0, `CAUSE` in 7:4, `ESTICKY` in 8, all else 0 (R30). -/
def statusWord (s : State) : Word :=
  BitVec.ofNat 32 (EngState.code s.engState + 16 * Cause.code s.cause + (if s.esticky then 256 else 0))

end Sys2Proof.Machine
end

