-- ==== Sys2Proof/Machine/Operands.lean ====
section
/-! DEFINITION. The operands of the commands and their legal values (R31, R92, R212, R213, R219), and
how PROCESS pulls its four targets (R67, R215 step 1). -/

namespace Sys2Proof.Machine

/-- `lo ≤ t ≤ hi` on the values; false for a NaN (R31). -/
def inClosedRange (lo hi t : Word) : Bool := F32.le lo t && F32.le t hi

/-- The legal closed range of each parameter (R31): delayTime [-17.5, 17.5], dryWetMix [0, 1], both
cutoffs [20, 20000] Hz. -/
def legalParam : ParamIx → Word → Bool
  | .delayTime, t => inClosedRange 0xC18C0000#32 0x418C0000#32 t
  | .dryWetMix, t => inClosedRange 0x00000000#32 0x3F800000#32 t
  | .hpfCutoff, t => inClosedRange 0x41A00000#32 0x469C4000#32 t
  | .lpfCutoff, t => inClosedRange 0x41A00000#32 0x469C4000#32 t

/-- All four values legal (R219). -/
def legalParams (p : Params) : Bool :=
  legalParam .delayTime p.delayTime && legalParam .dryWetMix p.dryWetMix &&
  legalParam .hpfCutoff p.hpfCutoff && legalParam .lpfCutoff p.lpfCutoff

/-- `v = fdiv(fmul(ms, fs), 1000.0)` and `C = floor_u32(v) + CAP_GUARD` (R212); `none` where `v` is
outside the domain of `floor_u32`. -/
def capacityOf (cfg : Config) (n : Nat) (ms fs : Word) : Option Nat :=
  (F32.floorU32 (F32.fdiv cfg (n + 1) (F32.fmul cfg n ms fs) F32.thousand)).map (· + cfg.capGuard)

/-- VALIDATE (R213): the four checks in order; the capacity, or the cause of the first that fails. A
`v` of 2^32 or more gives a capacity above `RING_DEPTH` (DEDUCED, log entry 11). -/
def validate (cfg : Config) (n : Nat) (fs nch ms : Word) : Except Cause Nat :=
  if !F32.isFinite fs || !F32.fgt cfg fs F32.zero then .error .cfgFs
  else if nch.toNat = 0 ∨ channelsMax < nch.toNat then .error .cfgNch
  else if !F32.isFinite ms || F32.flt cfg ms F32.zero then .error .cfgMaxDelay
  else match capacityOf cfg n ms fs with
    | none => .error .cfgMaxDelay
    | some c => if c < 1 ∨ cfg.ringDepth < c then .error .cfgMaxDelay else .ok c

/-- Step 1 of R215: each `PARAM[k]` is read once, in order, each read after the control-thread writes
that land before it (R67, R275). The targets, and the state with those writes landed. -/
def pullTargets (s : State) : Params × State :=
  let s0 := State.landBefore s .delayTime
  let s1 := State.landBefore s0 .dryWetMix
  let s2 := State.landBefore s1 .hpfCutoff
  let s3 := State.landBefore s2 .lpfCutoff
  ({ delayTime := s0.param.delayTime
     dryWetMix := s1.param.dryWetMix
     hpfCutoff := s2.param.hpfCutoff
     lpfCutoff := s3.param.lpfCutoff }, s3)

/-- The latched configuration gives `mod C`, the ring and every channel a meaning (R119, R187). R37
says every Prepared state does. -/
def ringUsable (cfg : Config) (s : State) : Bool :=
  decide (1 ≤ s.capacity.toNat) && decide (s.capacity.toNat ≤ cfg.ringDepth) &&
  decide (s.cfgNch.toNat ≤ channelsMax)

end Sys2Proof.Machine
end

