-- ==== Sys2Proof/Machine/Lifecycle.lean ====
section
/-! DEFINITION. The commands PREPARE and RELEASE (`45_engine.md` R211 to R214). -/

namespace Sys2Proof.Machine

/-- `FH[s][c][j] <- +0.0` for both stages of each channel listed (R211). -/
def clearHistories : List Channel → State → State
  | [], s => s
  | c :: cs, s =>
    clearHistories cs
      (State.setHistory (State.setHistory s .highPass c History.cleared) .lowPass c History.cleared)

/-- `RING[c][0..cap-1] <- +0.0` for each channel listed (R211). -/
def clearRings (cfg : Config) (cap : Nat) : List Channel → State → State
  | [], s => s
  | c :: cs, s =>
    clearRings cfg cap cs { s with ring := Memory.clearWords s.ring (ringAddr cfg c 0) cap }

/-- The latched configuration and the write position (R211). -/
def latchConfig (fs nch ms : Word) (cap : Nat) (s : State) : State :=
  { s with cfgFs := fs, cfgNch := nch, cfgMaxMs := ms, capacity := BitVec.ofNat 32 cap, writePos := 0 }

/-- What a valid PREPARE does (R211). -/
def prepareValid (cfg : Config) (cap : Nat) (s : State) : State :=
  let chs := channelsOf s.argNch.toNat
  State.succeed (State.setEngState
    (clearRings cfg cap chs (clearHistories chs (latchConfig s.argFs s.argNch s.argMaxMs cap s)))
    .prepared)

/-- PREPARE with configuration `cfg` (R211, R213): a failed check leaves the engine Unprepared and
writes nothing else but `STATUS`. -/
def prepareWith (cfg : Config) (s : State) : State :=
  match validate cfg s.draws s.argFs s.argNch s.argMaxMs with
  | .error c => State.raise (State.setEngState s .unprepared) c
  | .ok cap => prepareValid cfg cap s

/-- RELEASE (R214): through Releasing to Unprepared; `FH` and `RING` are kept (log entry 9). -/
def releaseState (s : State) : State :=
  State.succeed
    (if s.engState = .prepared then State.setEngState (State.setEngState s .releasing) .unprepared
     else s)

/-- The command PREPARE. -/
def execPrepare (s : State) : Host.Outcome State Fault Refusal := .next (prepareWith hardware s)

/-- The command RELEASE. -/
def execRelease (s : State) : Host.Outcome State Fault Refusal := .next (releaseState s)

end Sys2Proof.Machine
end

