-- ==== Sys2Proof/Machine/DelayBuffer.lean ====
section
/-! DEFINITION. The operation DELAYMIX with MIX (`44_delay_buffer.md`). -/

namespace Sys2Proof.Machine

/-- MIX (R193): one subtraction, two products, one sum, draws `n` to `n + 3`. -/
def mix (cfg : Config) (n : Nat) (dry wet m : Word) : Word :=
  let g := F32.fsub cfg n F32.one m
  F32.fadd cfg (n + 3) (F32.fmul cfg (n + 1) dry g) (F32.fmul cfg (n + 2) wet m)

/-- The position sample `i` of the block is written at (R191). -/
def writeIndex (cap w i : Nat) : Nat := (w + i) % cap

/-- The position read with delay `d` at write position `p`, formed as `p + (C - d)` (R119, R191). -/
def readIndex (cap p d : Nat) : Nat := (p + (cap - d)) % cap

/-- Step 2 of one sample: the dry sample is stored; with `d = 0` only if `RING_WRITE_ON_BYPASS` (R194). -/
def ringStore (cfg : Config) (c : Channel) (p d : Nat) (dry : Word) (ring : Memory) : Memory :=
  if d = 0 ∧ cfg.ringWriteOnBypass = false then ring
  else Memory.setWord ring (ringAddr cfg c p) dry

/-- The output of one sample: the dry sample itself at `d = 0` (R194), else MIX (R193). -/
def mixOut (cfg : Config) (n d : Nat) (dry wet m : Word) : Word :=
  if d = 0 then dry else mix cfg n dry wet m

/-- DELAYMIX (R190) from sample `i` on for `count` samples: write, then read (R192). Each sample draws
six free values at most: two reads and the four operations of MIX. -/
def delayLoop (cfg : Config) (c : Channel) (cap w d : Nat) (m : Word) :
    (count n i : Nat) → (buf ring : Memory) → Memory × Memory
  | 0, _, _, buf, ring => (buf, ring)
  | count + 1, n, i, buf, ring =>
    let p := writeIndex cap w i
    let r := readIndex cap p d
    let dry := Memory.getWord buf n (bufAddr cfg c i)
    let ring' := ringStore cfg c p d dry ring
    let wet := Memory.getWord ring' (n + 1) (ringAddr cfg c r)
    let out := mixOut cfg (n + 2) d dry wet m
    delayLoop cfg c cap w d m count (n + 6) (i + 1)
      (Memory.setWord buf (bufAddr cfg c i) out) ring'

/-- DELAYMIX(c, N, d, m) (R190); `W` is not written here (R197). -/
def delayMix (cfg : Config) (n : Nat) (c : Channel) (count d : Nat) (m : Word) (s : State) : State :=
  let r := delayLoop cfg c s.capacity.toNat s.writePos.toNat d m count n 0 s.buf s.ring
  { s with buf := r.1, ring := r.2 }

end Sys2Proof.Machine
end

