-- ==== Sys2Proof/Machine/DelayMapper.lean ====
section
/-! DEFINITION. The operation MAPDELAY (`43_delay_mapper.md`). -/

namespace Sys2Proof.Machine

/-- The quotient `v` of DELAYLEN (R181): four operations in the written order, draws `n` to `n + 3`. -/
def delayQuotient (cfg : Config) (n : Nat) (dt maxMs fs : Word) : Word :=
  let scale := F32.fdiv cfg n (F32.fabs dt) F32.dtFull
  let effMs := F32.fmul cfg (n + 1) scale maxMs
  F32.fdiv cfg (n + 3) (F32.fmul cfg (n + 2) effMs fs) F32.thousand

/-- DELAYLEN (R181); `none` where `floor_u32` has no value (R118). -/
def delayLen (cfg : Config) (n : Nat) (dt maxMs fs : Word) : Option Nat :=
  F32.floorU32 (delayQuotient cfg n dt maxMs fs)

/-- The polarity test of R182: left delays when `dt < 0`, right when `dt > 0`. -/
def delaySelected (cfg : Config) (c : Channel) (dt : Word) : Bool :=
  match c with
  | .left => F32.flt cfg dt F32.zero
  | .right => F32.fgt cfg dt F32.zero

/-- MAPDELAY (R180): the length on the channel the polarity selects, 0 on the other; a NaN `dt` selects
neither (R182). -/
def mapDelay (cfg : Config) (n : Nat) (c : Channel) (dt maxMs fs : Word) : Option Nat :=
  if delaySelected cfg c dt then delayLen cfg n dt maxMs fs else some 0

end Sys2Proof.Machine
end

