-- ==== Sys2Proof/Machine/Filter.lean ====
section
/-! DEFINITION. The operations CONFIGURE, BIQUAD, FILTER and CHAIN (`42_filter.md`). -/

namespace Sys2Proof.Machine

/-- CLAMPFC (R153): the lower bound first, the upper bound last. -/
def clampFc (cfg : Config) (n : Nat) (fc fs : Word) : Word :=
  let hi := F32.fmul cfg n cfg.fcHiRatio fs
  let t := if F32.fge cfg fc cfg.fcLo then fc else cfg.fcLo
  if F32.fle cfg t hi then t else hi

/-- The coefficients CONFIGURE writes (R151) with the fixed Q (R152). -/
def stageCoefs (cfg : Config) (n : Nat) (st : Stage) (cutoff fs : Word) : Coefs :=
  cfg.coef st (clampFc cfg n cutoff fs) cfg.qFixed fs

/-- CONFIGURE (R151): writes `CF[s]` and nothing else; `FH` stays (R162). -/
def configure (cfg : Config) (n : Nat) (st : Stage) (cutoff : Word) (s : State) : State :=
  State.setCoefs s st (stageCoefs cfg n st cutoff s.cfgFs)

/-- The output of BIQUAD (R158): five products, two additions, two subtractions, draws `n` to
`n + 8`. -/
def biquadOut (cfg : Config) (n : Nat) (k : Coefs) (h : History) (x : Word) : Word :=
  let t0 := F32.fmul cfg n k.b0 x
  let t1 := F32.fmul cfg (n + 1) k.b1 h.x1
  let t2 := F32.fmul cfg (n + 2) k.b2 h.x2
  let t3 := F32.fmul cfg (n + 3) k.a1 h.y1
  let t4 := F32.fmul cfg (n + 4) k.a2 h.y2
  F32.fsub cfg (n + 8)
    (F32.fsub cfg (n + 7) (F32.fadd cfg (n + 6) (F32.fadd cfg (n + 5) t0 t1) t2) t3) t4

/-- The history after BIQUAD with input `x` and output `y` (R158). -/
def History.push (h : History) (x y : Word) : History := ⟨x, h.x1, y, h.y1⟩

/-- FILTER (R159) from sample `i` on for `count` samples on the block buffer and one history; each
sample draws ten free values at most: one read and nine operations. -/
def filterLoop (cfg : Config) (k : Coefs) (c : Channel) :
    (count n i : Nat) → Memory → History → Memory × History
  | 0, _, _, buf, h => (buf, h)
  | count + 1, n, i, buf, h =>
    let x := Memory.getWord buf n (bufAddr cfg c i)
    let y := biquadOut cfg (n + 1) k h x
    filterLoop cfg k c count (n + 10) (i + 1) (Memory.setWord buf (bufAddr cfg c i) y)
      (History.push h x y)

/-- FILTER(s, c, N) (R159). -/
def filterStage (cfg : Config) (n : Nat) (st : Stage) (c : Channel) (count : Nat) (s : State) : State :=
  let r := filterLoop cfg (PerStage.get s.cf st) c count n 0 s.buf (State.history s st c)
  { State.setHistory s st c r.2 with buf := r.1 }

/-- CHAIN(N) (R160): on each channel the high-pass stage over the block, then the low-pass stage. -/
def chainLoop (cfg : Config) (count : Nat) : List Channel → Nat → State → State
  | [], _, s => s
  | c :: cs, n, s =>
    chainLoop cfg count cs (n + 20 * count)
      (filterStage cfg (n + 10 * count) .lowPass c count (filterStage cfg n .highPass c count s))

end Sys2Proof.Machine
end

