-- ==== Sys2Proof/Machine/Smoother.lean ====
section
/-! DEFINITION. The operation SMOOTH (`41_smoother.md`). -/

namespace Sys2Proof.Machine

/-- SMOOTH (R140): three operations, draws `n` to `n + 2`. -/
def smooth (cfg : Config) (n : Nat) (previous target : Word) : Word :=
  F32.fadd cfg (n + 2) previous (F32.fmul cfg (n + 1) cfg.kSmooth (F32.fsub cfg n target previous))

/-- Step 2 of R215: each smoother once, in order (R142). -/
def smoothParams (cfg : Config) (n : Nat) (sm t : Params) : Params where
  delayTime := smooth cfg n sm.delayTime t.delayTime
  dryWetMix := smooth cfg (n + 3) sm.dryWetMix t.dryWetMix
  hpfCutoff := smooth cfg (n + 6) sm.hpfCutoff t.hpfCutoff
  lpfCutoff := smooth cfg (n + 9) sm.lpfCutoff t.lpfCutoff

end Sys2Proof.Machine
end

