-- ==== Sys2Proof/Machine/Process.lean ====
section
/-! DEFINITION. The command PROCESS (`45_engine.md` R215 to R221). -/

namespace Sys2Proof.Machine

/-- Steps 2 and 3 of R215: the smoothers, then CONFIGURE of both stages; draws `n` to `n + 13`. -/
def smoothAndConfigure (cfg : Config) (n : Nat) (t : Params) (s : State) : State :=
  let sm := smoothParams cfg n s.sm t
  configure cfg (n + 13) .lowPass sm.lpfCutoff
    (configure cfg (n + 12) .highPass sm.hpfCutoff { s with sm := sm })

/-- The delay length of channel `c` in step 5 of R215, if it has one: `floor_u32` in its domain
(R118) and at most `C` (R196). -/
def delayFor (cfg : Config) (n : Nat) (c : Channel) (s : State) : Except Refusal Nat :=
  match mapDelay cfg n c s.sm.delayTime s.cfgMaxMs s.cfgFs with
  | none => .error .floorDomain
  | some d => if s.capacity.toNat < d then .error .delayBeyondCapacity else .ok d

/-- Step 5 of R215 over the channels listed; each draws four values for MAPDELAY and six a sample. -/
def delayChannels (cfg : Config) (count : Nat) : List Channel → Nat → State → Except Refusal State
  | [], _, s => .ok s
  | c :: cs, n, s =>
    match delayFor cfg n c s with
    | .error r => .error r
    | .ok d =>
      delayChannels cfg count cs (n + 4 + 6 * count)
        (delayMix cfg (n + 4) c count d s.sm.dryWetMix s)

/-- How many free values a block of `count` samples on `nch` channels draws at most. -/
def blockDraws (nch count : Nat) : Nat := 14 + nch * (26 * count + 4)

/-- Step 6 of R215, with the end of the command: `W` moves by the sample count, `CAUSE` is 0. -/
def advance (count nch : Nat) (s : State) : State :=
  State.succeed
    { s with
      writePos := BitVec.ofNat 32 ((s.writePos.toNat + count) % s.capacity.toNat)
      draws := s.draws + blockDraws nch count }

/-- Steps 2 to 6 of R215 with targets `t`, sample count `count` and the channels `c < CFG_NCH`. -/
def runBlock (cfg : Config) (count : Nat) (t : Params) (s : State) : Except Refusal State :=
  let chs := channelsOf s.cfgNch.toNat
  let s4 := chainLoop cfg count chs (s.draws + 14) (smoothAndConfigure cfg s.draws t s)
  match delayChannels cfg count chs (s.draws + 14 + chs.length * (20 * count)) s4 with
  | .error r => .error r
  | .ok s5 => .ok (advance count chs.length s5)

/-- A non-empty block in the Prepared state: step 1, the host's duty on the targets (R219), the
conditions under which the rules have a meaning (R119, R153, R187), then steps 2 to 6. -/
def processBlock (cfg : Config) (s : State) : Host.Outcome State Fault Refusal :=
  if !legalParams (pullTargets s).1 then .refused .targetOutOfRange
  else if !ringUsable cfg s then .refused .brokenConfiguration
  else if F32.isSubnormal s.cfgFs then .refused .subnormalRate
  else match runBlock cfg s.argNsamp.toNat (pullTargets s).1 (pullTargets s).2 with
    | .error r => .refused r
    | .ok t => .next t

/-- PROCESS with configuration `cfg` (R215): the two checks in order (R217, R221), the empty block
(R216), the block. -/
def processWith (cfg : Config) (s : State) : Host.Outcome State Fault Refusal :=
  if s.engState ≠ .prepared then .next (State.raise s .useUnprepared)
  else if cfg.blockMax < s.argNsamp.toNat then .next (State.raise s .useNsamp)
  else if s.argNsamp.toNat = 0 then .next (State.succeed s)
  else processBlock cfg s

/-- The command PROCESS. -/
def execProcess (s : State) : Host.Outcome State Fault Refusal := processWith hardware s

end Sys2Proof.Machine
end

