-- ==== Sys2Proof/Machine/HostPort.lean ====
section
/-! DEFINITION. The host register space: the address map (R29, R64), reads and writes (R62, R63), and
what a host move is to the machine. -/

namespace Sys2Proof.Machine

/-- What stands at a `HOST` address. -/
inductive HostLoc where
  | cmd
  | status
  | argFs
  | argNch
  | argMaxMs
  | argNsamp
  | param (k : ParamIx)
  | cfgFs
  | cfgNch
  | cfgMaxMs
  | capacity
  | writePos
  /-- A word of the block buffer. -/
  | buf
  /-- Reserved: reads 0, writes are ignored. -/
  | reserved
  deriving DecidableEq, Repr

/-- The address map of R29 and R64. -/
def hostLoc (cfg : Config) (addr : Nat) : HostLoc :=
  if 0x8000 ≤ addr then
    if addr < 0x8000 + 8 * cfg.blockMax then .buf else .reserved
  else if addr = 0x00 then .cmd
  else if addr = 0x04 then .status
  else if addr = 0x08 then .argFs
  else if addr = 0x0C then .argNch
  else if addr = 0x10 then .argMaxMs
  else if addr = 0x14 then .argNsamp
  else if addr = 0x20 then .param .delayTime
  else if addr = 0x24 then .param .dryWetMix
  else if addr = 0x28 then .param .hpfCutoff
  else if addr = 0x2C then .param .lpfCutoff
  else if addr = 0x30 then .cfgFs
  else if addr = 0x34 then .cfgNch
  else if addr = 0x38 then .cfgMaxMs
  else if addr = 0x3C then .capacity
  else if addr = 0x40 then .writePos
  else .reserved

/-- The word `HostRead(addr)` returns (R29, R30, R64). `CMD` reads 0. -/
def hostReadValue (cfg : Config) (s : State) (addr : Nat) : Word :=
  match hostLoc cfg addr with
  | .cmd => 0
  | .status => statusWord s
  | .argFs => s.argFs
  | .argNch => s.argNch
  | .argMaxMs => s.argMaxMs
  | .argNsamp => s.argNsamp
  | .param k => Params.get s.param k
  | .cfgFs => s.cfgFs
  | .cfgNch => s.cfgNch
  | .cfgMaxMs => s.cfgMaxMs
  | .capacity => s.capacity
  | .writePos => s.writePos
  | .buf => Memory.getWord s.buf s.draws addr
  | .reserved => 0

/-- `HostWrite(addr, v)` at any address but `CMD` (R29, R63, R64): writes to read-only and reserved
words are ignored. -/
def hostWrite (cfg : Config) (s : State) (addr : Nat) (v : Word) : State :=
  match hostLoc cfg addr with
  | .argFs => { s with argFs := v }
  | .argNch => { s with argNch := v }
  | .argMaxMs => { s with argMaxMs := v }
  | .argNsamp => { s with argNsamp := v }
  | .param k => { s with param := Params.set s.param k v }
  | .buf => { s with buf := Memory.setWord s.buf addr v }
  | .cmd => s
  | .status => s
  | .cfgFs => s
  | .cfgNch => s
  | .cfgMaxMs => s
  | .capacity => s
  | .writePos => s
  | .reserved => s

/-- What a host move is to the machine. -/
inductive HostEffect where
  /-- The move is over, with this state. -/
  | done (s : State)
  /-- A write of this word to `CMD`, to be run on this state (R90). -/
  | command (w : Word) (s : State)
  /-- An access with no meaning (R62). -/
  | refuse (r : Refusal)
  /-- An access outside the 64 KiB (R60). -/
  | absent
  deriving DecidableEq, Repr

/-- What R62 says of an access before its address is looked up. -/
def accessCheck (addr width : Nat) (e : HostEffect) : HostEffect :=
  if width ≠ 4 then .refuse .accessWidth
  else if addr % 4 ≠ 0 then .refuse .misalignedAccess
  else if 0x10000 ≤ addr then .absent
  else e

/-- One move of the host on a state from whose list it has been taken. -/
def hostMove (cfg : Config) (m : HostMove) (s : State) : HostEffect :=
  match m with
  | .write addr width v =>
    accessCheck addr width
      (if hostLoc cfg addr = .cmd then .command v s else .done (hostWrite cfg s addr v))
  | .read addr width =>
    accessCheck addr width
      (.done { s with rdata := hostReadValue cfg s addr, draws := s.draws + 1 })
  | .overlap w => .done { s with landing := s.landing ++ [w] }
  | .reset => .done (State.hardwareReset cfg s)

/-- A state with a 32-bit write of `w` to `CMD` as the host's next move. -/
def withCommand (s : State) (w : Word) : State := { s with host := .write 0x00 4 w :: s.host }

/-! The program notation of R96: each line as host moves. -/

def linePrepare (fs nch ms : Word) : List HostMove :=
  [.write 0x08 4 fs, .write 0x0C 4 nch, .write 0x10 4 ms, .write 0x00 4 (encode .prepare)]

def lineRelease : List HostMove := [.write 0x00 4 (encode .release)]

def lineProcessBlock (n : Word) : List HostMove :=
  [.write 0x14 4 n, .write 0x00 4 (encode .process)]

/-- The byte offset of `PARAM[k]`: `0x20 + 4k` (R96). -/
def paramAddr : ParamIx → Nat
  | .delayTime => 0x20
  | .dryWetMix => 0x24
  | .hpfCutoff => 0x28
  | .lpfCutoff => 0x2C

def lineSetParameter (k : ParamIx) (v : Word) : List HostMove := [.write (paramAddr k) 4 v]

def lineWriteBuf (cfg : Config) (c : Channel) (i : Nat) (v : Word) : List HostMove :=
  [.write (bufAddr cfg c i) 4 v]

def lineReadBuf (cfg : Config) (c : Channel) (i : Nat) : List HostMove := [.read (bufAddr cfg c i) 4]

def lineStatus : List HostMove := [.read 0x04 4]

end Sys2Proof.Machine
end

