-- ==== Sys2Proof/Machine/Step.lean ====
section
/-! DEFINITION. One step: the host's next move. A write to `CMD` runs the command to its end in the
same step (R66, R90); with no move left nothing acts (R243, R270). -/

namespace Sys2Proof.Machine

/-- Running a command word: the decoded command, or `ILLEGAL_CMD` (R94, R218). -/
def runCommand (w : Word) (s : State) : Host.Outcome State Fault Refusal :=
  finishCommand
    (match decodeWord w with
      | .ok i => exec i s
      | .error _ => .next (State.illegalCommand s))

/-- One step of the machine. -/
def step (s : State) : Host.Outcome State Fault Refusal :=
  match s.host with
  | [] => .next s
  | m :: rest =>
    match hostMove hardware m { s with host := rest } with
    | .done t => .next t
    | .command w t => runCommand w t
    | .refuse r => .refused r
    | .absent => .fault .outsideHostSpace

/-- The command whose bits are `w`, numbered as the opcode table numbers them, as the host's next
move: a 32-bit write of it to `CMD`. -/
def State.withFetchWord (s : State) (nbits w : Nat) : State := withCommand s (tableWord nbits w)

end Sys2Proof.Machine
end

