-- ==== Sys2Proof/Safety.lean ====
section
/-! DEFINITION. What the claims call a good state and a safe move: the invariants of R37, R21, R144 and
of the memories, and the duties of the host (R62, R219); and what it is to be `rnd32` of a real number
(R122). -/

namespace Sys2Proof.Machine

/-- R37: what holds between commands whenever the engine is Prepared. -/
abbrev State.ConfigInv (cfg : Config) (s : State) : Prop :=
  s.engState = .prepared →
    1 ≤ s.capacity.toNat ∧ s.capacity.toNat ≤ cfg.ringDepth ∧
    s.writePos.toNat < s.capacity.toNat ∧
    (s.cfgNch = 1 ∨ s.cfgNch = 2) ∧
    F32.isFinite s.cfgFs = true ∧ F32.fgt cfg s.cfgFs F32.zero = true ∧
    F32.isFinite s.cfgMaxMs = true ∧ F32.flt cfg s.cfgMaxMs F32.zero = false ∧
    capacityOf cfg 0 s.cfgMaxMs s.cfgFs = some s.capacity.toNat

/-- R144: every smoothed value is in the legal range of its parameter (R31). -/
abbrev State.SmoothedLegal (s : State) : Prop := legalParams s.sm = true

/-- Both memories are in canonical form. -/
abbrev State.MemoryInv (s : State) : Prop := Memory.wf s.ring ∧ Memory.wf s.buf

/-- R21: Releasing is held only inside the RELEASE command. -/
abbrev State.NotReleasing (s : State) : Prop := s.engState ≠ .releasing

/-- The invariant of the machine between the host's moves. -/
abbrev State.Inv (s : State) : Prop :=
  State.ConfigInv hardware s ∧ State.SmoothedLegal s ∧ State.MemoryInv s ∧ State.NotReleasing s

/-- The duties of the host on its next move: an access R62 defines, and, when it starts a PROCESS that
reads its targets, targets that R219 allows. -/
abbrev State.HostKeepsDuty (s : State) : Prop :=
  match s.host with
  | [] => True
  | m :: rest =>
    HostMove.wf m = true ∧
    (m = .write 0 4 (encode .process) → legalParams (pullTargets { s with host := rest }).1 = true)

/-- A byte address that belongs to a word `BUF[c][i]` with `c < nch` and `i < count` (R65). -/
abbrev inBlock (cfg : Config) (nch count a : Nat) : Prop :=
  ∃ c : Channel, Channel.index c < nch ∧ bufAddr cfg c 0 ≤ a ∧ a < bufAddr cfg c 0 + 4 * count

/-- A byte address that belongs to a word `RING[c][j]` with `c < nch` and `j < cap` (R65, R74). -/
abbrev inRing (cfg : Config) (nch cap a : Nat) : Prop :=
  ∃ c : Channel, Channel.index c < nch ∧ ringAddr cfg c 0 ≤ a ∧ a < ringAddr cfg c 0 + 4 * cap

/-- R122: `w` is `rnd32(r)`, for every real number `r`: the nearest finite value, ties to even, an infinity
from `2^128 - 2^103` on (R111), with the sign of `r` (so `+0.0` for 0; that a negative `r` that rounds to
zero gives `-0.0` is DEDUCED, log entry 8). -/
def F32.IsRnd32 (r : ℝ) (w : Word) : Prop :=
  (F32.neg w = true ↔ r < 0) ∧
  if (2 ^ 128 - 2 ^ 103 : ℝ) ≤ |r| then F32.isInf w = true
  else
    F32.isFinite w = true ∧ ∀ w', F32.isFinite w' = true →
      |(F32.val w : ℝ) / 2 ^ 149 - r| ≤ |(F32.val w' : ℝ) / 2 ^ 149 - r| ∧
      (|(F32.val w : ℝ) / 2 ^ 149 - r| = |(F32.val w' : ℝ) / 2 ^ 149 - r| →
        F32.val w' ≠ F32.val w → F32.mag w % 2 = 0)

end Sys2Proof.Machine
end

