-- ==== Sys2Proof/Certificates/Slice0/Obligations.lean ====
section
/-! DEFINITION. The statements for the provers, each from a numbered rule of spec/. -/

open Sys2Proof Sys2Proof.Machine

/-! ## Encoding (30_encoding.md) -/

/-- R90, R91, R94: a byte sequence decodes to a command exactly when it begins with the command's four
bytes; every other word is illegal. -/
def Obligations.CommandBytesDecodeExactly : Prop :=
  ∀ (bs : List Byte) (i : Instr) (rest : List Byte),
    decode bs = .ok (i, rest) ↔ bs = encodeBytes i ++ rest

/-- R91, R94: the command words of the opcode map and the illegal words of the vectors of 2.10. -/
def Obligations.TableWordsDecode : Prop :=
  decodeWord 0x00000001#32 = .ok .prepare ∧ decodeWord 0x00000002#32 = .ok .release ∧
  decodeWord 0x00000003#32 = .ok .process ∧
  decodeWord 0x00000000#32 = .error .unknownOpcode ∧
  decodeWord 0x00000004#32 = .error .unknownOpcode ∧
  decodeWord 0x000000FF#32 = .error .unknownOpcode ∧
  decodeWord 0x00000103#32 = .error .zeroFieldNotZero ∧
  decodeWord 0x80000001#32 = .error .zeroFieldNotZero ∧
  decodeTableWord 32 3 = some .process

/-! ## The step and the host port (20_memory.md, 10_state.md) -/

/-- R66, R90: a 32-bit write of a command word to `CMD` runs the decoded command in that step; what the
control thread wrote meanwhile has landed when the step is over (R67). -/
def Obligations.StepRunsTheDecodedCommand : Prop :=
  (∀ (s : State) (rest : List HostMove) (w : Word) (i : Instr),
    s.host = .write 0x00 4 w :: rest → decodeWord w = .ok i →
    step s = finishCommand (exec i { s with host := rest })) ∧
  (∀ (s : State) (i : Instr),
    step (s.withFetchWord 32 (encode i).toNat) = finishCommand (exec i s)) ∧
  (∀ t : State, finishCommand (.next t) =
    .next { t with param := t.landing.foldl Params.write t.param, landing := [] }) ∧
  (∀ r : Refusal, finishCommand (.refused r) = .refused r) ∧
  (∀ f : Fault, finishCommand (.fault f) = .fault f)

/-- R218, R94: an illegal command word records `ILLEGAL_CMD` and the sticky bit and changes nothing
else, in any state. That the control-thread writes in flight (R67) are a list of the state which a
command's end empties into `PARAM` is the model's choice (log entry 5). -/
def Obligations.IllegalWordOnlyReports : Prop :=
  ∀ (s : State) (rest : List HostMove) (w : Word),
    s.host = .write 0x00 4 w :: rest → (∀ i : Instr, w ≠ encode i) →
    step s = .next { s with
      host := rest, cause := .illegalCmd, esticky := true
      param := s.landing.foldl Params.write s.param, landing := [] }

/-- R243: the hardware never acts unless the host asks it to. -/
def Obligations.NothingHappensWithoutAHostMove : Prop :=
  ∀ s : State, s.host = [] → step s = .next s

/-- R62, R60: an access that is not 32 bits wide or not at a multiple of 4 is refused; outside the
64 KiB it faults. -/
def Obligations.OnlyAlignedWordAccessesAreDefined : Prop :=
  ∀ (s : State) (rest : List HostMove) (m : HostMove) (addr width : Nat) (v : Word),
    (m = .write addr width v ∨ m = .read addr width) → s.host = m :: rest →
    (width ≠ 4 → step s = .refused .accessWidth) ∧
    (width = 4 → addr % 4 ≠ 0 → step s = .refused .misalignedAccess) ∧
    (width = 4 → addr % 4 = 0 → 0x10000 ≤ addr → step s = .fault .outsideHostSpace)

/-- R63: a read has no side effect; what it returns is the word at the address. -/
def Obligations.HostReadsHaveNoSideEffect : Prop :=
  ∀ (s : State) (rest : List HostMove) (addr : Nat),
    s.host = .read addr 4 :: rest → addr % 4 = 0 → addr < 0x10000 →
    step s = .next { s with
      host := rest, rdata := hostReadValue hardware s addr, draws := s.draws + 1 }

/-- R29, R63, R64: a write to a read-write word of the map is what the next read of it returns, it is
the only word of the map that the write changes, and each offset is that of the register R29 names, or
of the word `BUF[c][i]` of R64. -/
def Obligations.HostWritesReadBackAndTouchOneWord : Prop :=
  (∀ (s : State) (rest : List HostMove) (addr : Nat) (v : Word),
    s.host = .write addr 4 v :: rest → addr % 4 = 0 → addr < 0x10000 →
    (0x08 ≤ addr ∧ addr ≤ 0x14 ∨ 0x20 ≤ addr ∧ addr ≤ 0x2C ∨ 0x8000 ≤ addr) →
    ∃ t, step s = .next t ∧ hostReadValue hardware t addr = v ∧
      (∀ a, a % 4 = 0 → a < 0x10000 → a ≠ addr →
        hostReadValue hardware t a = hostReadValue hardware s a) ∧
      t.engState = s.engState ∧ t.sm = s.sm ∧ t.cf = s.cf ∧ t.fh = s.fh ∧ t.ring = s.ring ∧
      t.esticky = s.esticky ∧ t.landing = s.landing ∧ t.host = rest ∧
      (addr = 0x08 → t = { s with host := rest, argFs := v }) ∧
      (addr = 0x0C → t = { s with host := rest, argNch := v }) ∧
      (addr = 0x10 → t = { s with host := rest, argMaxMs := v }) ∧
      (addr = 0x14 → t = { s with host := rest, argNsamp := v }) ∧
      (addr = 0x20 → t = { s with host := rest, param := { s.param with delayTime := v } }) ∧
      (addr = 0x24 → t = { s with host := rest, param := { s.param with dryWetMix := v } }) ∧
      (addr = 0x28 → t = { s with host := rest, param := { s.param with hpfCutoff := v } }) ∧
      (addr = 0x2C → t = { s with host := rest, param := { s.param with lpfCutoff := v } }) ∧
      (0x8000 ≤ addr → t = { s with host := rest, buf := Memory.setWord s.buf addr v })) ∧
  (∀ i : Nat, bufAddr hardware .left i = 0x8000 + 4 * i ∧
    bufAddr hardware .right i = 0x8000 + 4 * (4096 + i))

/-- R29, R64, U17: what every offset of the map reads as: the operands, the targets, the mirrors of R22
and R23 and the words of the block buffer; `CMD` and the reserved words read 0; writes to `STATUS`, to
the mirrors and to reserved words are ignored. -/
def Obligations.ReadOnlyAndReservedWords : Prop :=
  (∀ (s : State) (rest : List HostMove) (addr : Nat) (v : Word),
    s.host = .write addr 4 v :: rest → addr % 4 = 0 →
    (addr = 0x04 ∨ addr = 0x18 ∨ addr = 0x1C ∨ 0x30 ≤ addr ∧ addr < 0x8000) →
    step s = .next { s with host := rest }) ∧
  (∀ (s : State) (addr : Nat), addr % 4 = 0 →
    (addr = 0x00 ∨ addr = 0x18 ∨ addr = 0x1C ∨ 0x44 ≤ addr ∧ addr < 0x8000) →
    hostReadValue hardware s addr = 0) ∧
  (∀ s : State,
    hostReadValue hardware s 0x04 = statusWord s ∧
    hostReadValue hardware s 0x08 = s.argFs ∧ hostReadValue hardware s 0x0C = s.argNch ∧
    hostReadValue hardware s 0x10 = s.argMaxMs ∧ hostReadValue hardware s 0x14 = s.argNsamp ∧
    hostReadValue hardware s 0x20 = s.param.delayTime ∧
    hostReadValue hardware s 0x24 = s.param.dryWetMix ∧
    hostReadValue hardware s 0x28 = s.param.hpfCutoff ∧
    hostReadValue hardware s 0x2C = s.param.lpfCutoff ∧
    hostReadValue hardware s 0x30 = s.cfgFs ∧ hostReadValue hardware s 0x34 = s.cfgNch ∧
    hostReadValue hardware s 0x38 = s.cfgMaxMs ∧ hostReadValue hardware s 0x3C = s.capacity ∧
    hostReadValue hardware s 0x40 = s.writePos ∧
    ∀ c i, i < 4096 →
      hostReadValue hardware s (bufAddr hardware c i) =
        Memory.getWord s.buf s.draws (bufAddr hardware c i))

/-- R21, R30, R241: the fields of `STATUS`, the bits that read 0, and the codes of the states and of the
causes. -/
def Obligations.StatusFieldsReadTheirState : Prop :=
  (∀ s : State,
    hostReadValue hardware s 0x04 = statusWord s ∧
    ((statusWord s).extractLsb' 0 2).toNat = EngState.code s.engState ∧
    (statusWord s).extractLsb' 2 2 = 0 ∧
    ((statusWord s).extractLsb' 4 4).toNat = Cause.code s.cause ∧
    ((statusWord s).extractLsb' 8 1 = 1 ↔ s.esticky = true) ∧
    (statusWord s).extractLsb' 9 23 = 0) ∧
  EngState.code .unprepared = 0 ∧ EngState.code .prepared = 1 ∧ EngState.code .releasing = 2 ∧
  Cause.code .none = 0 ∧ Cause.code .cfgFs = 1 ∧ Cause.code .cfgNch = 2 ∧
  Cause.code .cfgMaxDelay = 3 ∧ Cause.code .useUnprepared = 4 ∧ Cause.code .useNsamp = 5 ∧
  Cause.code .illegalCmd = 6

/-- R66, R67: target `k` is `PARAM[k]` with exactly the writes in flight that land up to its read, the
last of them if there are several; a write that lands later is in the register when the command is over,
and nothing but `PARAM` and the writes in flight has changed. So a write may be seen for one parameter
and not for another. The landing points are the model's (log entry 5). -/
def Obligations.TargetsCanBeTornAcrossParameters : Prop :=
  (∀ (s : State) (k : ParamIx),
    let landing (p : LandingPoint) := s.landing.filter (fun w => decide (w.point = p))
    let before : ParamIx → List ParamWrite
      | .delayTime => landing (.beforeRead .delayTime)
      | .dryWetMix => landing (.beforeRead .delayTime) ++ landing (.beforeRead .dryWetMix)
      | .hpfCutoff => landing (.beforeRead .delayTime) ++ landing (.beforeRead .dryWetMix) ++
          landing (.beforeRead .hpfCutoff)
      | .lpfCutoff => landing (.beforeRead .delayTime) ++ landing (.beforeRead .dryWetMix) ++
          landing (.beforeRead .hpfCutoff) ++ landing (.beforeRead .lpfCutoff)
    let latest (ws : List ParamWrite) : Word :=
      match (ws.filter (fun w => decide (w.index = k))).getLast? with
      | some w => w.value
      | none => Params.get s.param k
    Params.get (pullTargets s).1 k = latest (before k) ∧
    Params.get (State.landAll (pullTargets s).2).param k =
      latest (before .lpfCutoff ++ landing .afterReads) ∧
    { (pullTargets s).2 with param := s.param, landing := s.landing } = s) ∧
  (∀ s : State, s.landing = [] → pullTargets s = (s.param, s)) ∧
  (∀ (s : State) (v0 v1 : Word),
    s.landing = [⟨.delayTime, v0, .afterReads⟩, ⟨.dryWetMix, v1, .beforeRead .dryWetMix⟩] →
    (pullTargets s).1 = { s.param with dryWetMix := v1 } ∧
    (State.landAll (pullTargets s).2).param = { s.param with delayTime := v0, dryWetMix := v1 })

/-! ## Reset (70_reset_and_hazards.md) -/

/-- R36, R270: the values the spec gives for reset (the items it leaves unspecified are not named). -/
def Obligations.ResetLeavesTheSpecifiedValues : Prop :=
  State.reset.engState = .unprepared ∧ statusWord State.reset = 0 ∧
  State.reset.cfgFs = 0 ∧ State.reset.cfgNch = 0 ∧ State.reset.cfgMaxMs = 0 ∧
  State.reset.capacity = 0 ∧ State.reset.writePos = 0 ∧
  State.reset.argFs = 0 ∧ State.reset.argNch = 0 ∧ State.reset.argMaxMs = 0 ∧
  State.reset.argNsamp = 0 ∧
  State.reset.sm = ⟨0x00000000#32, 0x00000000#32, 0x41A00000#32, 0x469C4000#32⟩ ∧
  State.reset.param = ⟨0x00000000#32, 0x00000000#32, 0x41A00000#32, 0x469C4000#32⟩

/-- R270: the reset event brings every specified item back to that value, from any state. -/
def Obligations.ResetEventRestoresTheSpecifiedValues : Prop :=
  ∀ (s : State) (rest : List HostMove), s.host = .reset :: rest →
    ∃ t, step s = .next t ∧ t.host = rest ∧ t.engState = .unprepared ∧ statusWord t = 0 ∧
      t.cfgFs = 0 ∧ t.cfgNch = 0 ∧ t.cfgMaxMs = 0 ∧ t.capacity = 0 ∧ t.writePos = 0 ∧
      t.argFs = 0 ∧ t.argNch = 0 ∧ t.argMaxMs = 0 ∧ t.argNsamp = 0 ∧
      t.sm = smResetDefault ∧ t.param = smResetDefault

/-- R36, R37: the invariant of the machine holds at reset. -/
def Obligations.ResetMeetsTheInvariant : Prop := State.Inv State.reset

/-! ## PREPARE and RELEASE (45_engine.md) -/

/-- R211, R212, R36: a valid PREPARE latches its operands and the capacity, zeroes the write position,
the histories and the rings of the configured channels, enters Prepared, and writes nothing else. That
the histories and ring words it does not clear, unspecified in R36, keep their values is the model's
choice (log entry 9). -/
def Obligations.PrepareLatchesAndClears : Prop :=
  ∀ (s : State) (cap : Nat),
    F32.isFinite s.argFs = true → F32.fgt hardware s.argFs F32.zero = true →
    (s.argNch = 1 ∨ s.argNch = 2) →
    F32.isFinite s.argMaxMs = true → F32.flt hardware s.argMaxMs F32.zero = false →
    capacityOf hardware s.draws s.argMaxMs s.argFs = some cap → 1 ≤ cap → cap ≤ 65536 →
    ∃ t, exec .prepare s = .next t ∧
      t.engState = .prepared ∧ t.cause = .none ∧
      t.cfgFs = s.argFs ∧ t.cfgNch = s.argNch ∧ t.cfgMaxMs = s.argMaxMs ∧
      t.capacity.toNat = cap ∧ t.writePos = 0 ∧
      (∀ st c, Channel.index c < s.argNch.toNat → State.history t st c = ⟨0, 0, 0, 0⟩) ∧
      (∀ c j n, Channel.index c < s.argNch.toNat → j < cap →
        Memory.getWord t.ring n (ringAddr hardware c j) = 0) ∧
      (∀ st c, s.argNch.toNat ≤ Channel.index c → State.history t st c = State.history s st c) ∧
      (∀ a, ¬ inRing hardware s.argNch.toNat cap a → Memory.get t.ring a = Memory.get s.ring a) ∧
      t.esticky = s.esticky ∧ t.sm = s.sm ∧ t.cf = s.cf ∧ t.buf = s.buf ∧
      t.argFs = s.argFs ∧ t.argNch = s.argNch ∧ t.argMaxMs = s.argMaxMs ∧
      t.argNsamp = s.argNsamp ∧ t.param = s.param ∧ t.landing = s.landing ∧ t.host = s.host

/-- R213: the four checks of VALIDATE in order; the first that fails gives the cause, leaves the engine
Unprepared and writes nothing else. If all pass, PREPARE ends Prepared (R211) with the capacity of R212.
That a finite `v` of 2^32 or more, where `floor_u32` has no value (R118), fails the fourth check is
DEDUCED (log entry 11). -/
def Obligations.PrepareRejectsInOrder : Prop :=
  ∀ s : State,
    let fsOk := F32.isFinite s.argFs = true ∧ F32.fgt hardware s.argFs F32.zero = true
    let nchOk := s.argNch ≠ 0 ∧ s.argNch.toNat ≤ 2
    let msOk := F32.isFinite s.argMaxMs = true ∧ F32.flt hardware s.argMaxMs F32.zero = false
    let v := F32.fdiv hardware (s.draws + 1) (F32.fmul hardware s.draws s.argMaxMs s.argFs)
      F32.thousand
    let capBad := F32.isInf v = true ∨ F32.units v / 2 ^ 149 < 1 ∨ 65536 < F32.units v / 2 ^ 149
    let fails (c : Cause) := exec .prepare s =
      .next { s with engState := .unprepared, cause := c, esticky := true }
    (¬ fsOk → fails .cfgFs) ∧ (fsOk → ¬ nchOk → fails .cfgNch) ∧
    (fsOk → nchOk → ¬ msOk → fails .cfgMaxDelay) ∧
    (fsOk → nchOk → msOk → capBad → fails .cfgMaxDelay) ∧
    (fsOk → nchOk → msOk → ¬ capBad → ∃ t, exec .prepare s = .next t ∧
      t.engState = .prepared ∧ t.cause = .none ∧ t.capacity.toNat = F32.units v / 2 ^ 149)

/-- R37: a PREPARE that ends Prepared establishes the invariant of R37. -/
def Obligations.PrepareEstablishesTheConfiguration : Prop :=
  ∀ s t : State, exec .prepare s = .next t → t.engState = .prepared →
    State.ConfigInv hardware t

/-- R211, R212: the source's own example, `prepare(44100.0, 2, 35.0)`, from any state. -/
def Obligations.PrepareExampleOfTheSource : Prop :=
  ∀ s : State, s.argFs = 0x472C4400#32 → s.argNch = 2#32 → s.argMaxMs = 0x420C0000#32 →
    ∃ t, exec .prepare s = .next t ∧ t.capacity = 1543#32 ∧ t.writePos = 0#32 ∧
      t.engState = .prepared ∧ t.cause = .none

/-- R214: RELEASE (command word 2) never fails, leaves Prepared for Unprepared, sets `CAUSE` to 0 and
leaves every item but the released `FH` and `RING` unchanged; in Unprepared it changes nothing but
`CAUSE`; a second RELEASE is the same as one. -/
def Obligations.ReleaseIsSafeToRepeat : Prop :=
  encode .release = 0x00000002#32 ∧
  ∀ s : State, ∃ t, exec .release s = .next t ∧
    t.engState = (if s.engState = .prepared then .unprepared else s.engState) ∧
    t.cause = .none ∧ t.esticky = s.esticky ∧
    t.sm = s.sm ∧ t.cf = s.cf ∧ t.cfgFs = s.cfgFs ∧ t.cfgNch = s.cfgNch ∧
    t.cfgMaxMs = s.cfgMaxMs ∧ t.capacity = s.capacity ∧ t.writePos = s.writePos ∧
    t.argFs = s.argFs ∧ t.argNch = s.argNch ∧ t.argMaxMs = s.argMaxMs ∧
    t.argNsamp = s.argNsamp ∧ t.param = s.param ∧ t.buf = s.buf ∧ t.host = s.host ∧
    t.landing = s.landing ∧
    (s.engState = .unprepared → t = { s with cause := .none }) ∧
    exec .release t = .next t

/-! ## PROCESS (45_engine.md) -/

/-- R217: PROCESS while not Prepared reports `USE_UNPREPARED` and changes nothing else, whatever the
sample count. -/
def Obligations.ProcessWhileNotPreparedOnlyReports : Prop :=
  ∀ s : State, s.engState ≠ .prepared →
    exec .process s = .next { s with cause := .useUnprepared, esticky := true }

/-- R221: a block longer than `BLOCK_MAX` reports `USE_NSAMP` and changes nothing else. -/
def Obligations.OverlongBlockOnlyReports : Prop :=
  ∀ s : State, s.engState = .prepared → 4096 < s.argNsamp.toNat →
    exec .process s = .next { s with cause := .useNsamp, esticky := true }

/-- R216: the empty block changes nothing but `CAUSE`. -/
def Obligations.EmptyBlockChangesNothing : Prop :=
  ∀ s : State, s.engState = .prepared → s.argNsamp = 0 →
    exec .process s = .next { s with cause := .none }

/-- R215: a non-empty block completes from every state that meets R37 with legal targets (R219) and
legal smoothed values (R144), and does the six steps: `SM[k]` is SMOOTH of `SM[k]` toward target `k`
(step 2, R142), the coefficients of both stages (step 3), CHAIN over the whole block (step 4), then on
each channel DELAYMIX with the delay length MAPDELAY gives for `SM[0]`, `CFG_MAXMS` and `CFG_FS`, the
mix `SM[1]` and one and the same `W` (step 5), and last the move of `W` by the sample count (step 6).
Every delay length exists and is at most `C` (R196). -/
def Obligations.ProcessRunsTheSixSteps : Prop :=
  ∀ s : State, s.engState = .prepared → State.ConfigInv hardware s → State.SmoothedLegal s →
    1 ≤ s.argNsamp.toNat → s.argNsamp.toNat ≤ 4096 →
    legalParams (pullTargets s).1 = true →
    let count := s.argNsamp.toNat
    let cap := s.capacity.toNat
    let target := (pullTargets s).1
    let sm : Params :=
      { delayTime := smooth hardware s.draws s.sm.delayTime target.delayTime
        dryWetMix := smooth hardware (s.draws + 3) s.sm.dryWetMix target.dryWetMix
        hpfCutoff := smooth hardware (s.draws + 6) s.sm.hpfCutoff target.hpfCutoff
        lpfCutoff := smooth hardware (s.draws + 9) s.sm.lpfCutoff target.lpfCutoff }
    let cf : PerStage Coefs :=
      ⟨Coef.cookbook .highPass (clampFc hardware (s.draws + 12) sm.hpfCutoff s.cfgFs) 0x3F3504F3#32
          s.cfgFs,
        Coef.cookbook .lowPass (clampFc hardware (s.draws + 13) sm.lpfCutoff s.cfgFs) 0x3F3504F3#32
          s.cfgFs⟩
    let filtered (chs : List Channel) :=
      chainLoop hardware count chs (s.draws + 14) { (pullTargets s).2 with sm := sm, cf := cf }
    let delay (c : Channel) (n d : Nat) (buf ring : Memory) :=
      delayLoop hardware c cap s.writePos.toNat d sm.dryWetMix count n 0 buf ring
    ∃ t, exec .process s = .next t ∧ t.sm = sm ∧ t.cf = cf ∧
      (s.cfgNch = 1 → ∃ d, d ≤ cap ∧
        let n := s.draws + 14 + 20 * count
        let s4 := filtered [.left]
        mapDelay hardware n .left sm.delayTime s.cfgMaxMs s.cfgFs = some d ∧
        t.fh = s4.fh ∧ (t.buf, t.ring) = delay .left (n + 4) d s4.buf s4.ring) ∧
      (s.cfgNch = 2 → ∃ d e, d ≤ cap ∧ e ≤ cap ∧
        let n := s.draws + 14 + 40 * count
        let m := n + 4 + 6 * count
        let s4 := filtered [.left, .right]
        mapDelay hardware n .left sm.delayTime s.cfgMaxMs s.cfgFs = some d ∧
        mapDelay hardware m .right sm.delayTime s.cfgMaxMs s.cfgFs = some e ∧
        let left := delay .left (n + 4) d s4.buf s4.ring
        t.fh = s4.fh ∧ (t.buf, t.ring) = delay .right (m + 4) e left.1 left.2) ∧
      t.writePos.toNat = (s.writePos.toNat + count) % cap ∧
      t.cause = .none ∧ t.esticky = s.esticky ∧ t.param = (pullTargets s).2.param ∧
      t.landing = (pullTargets s).2.landing

/-- R215, R65, R277: what a PROCESS that ends leaves unchanged. -/
def Obligations.ProcessTouchesOnlyItsBlock : Prop :=
  ∀ s t : State, exec .process s = .next t →
    t.engState = s.engState ∧ t.cfgFs = s.cfgFs ∧ t.cfgNch = s.cfgNch ∧
    t.cfgMaxMs = s.cfgMaxMs ∧ t.capacity = s.capacity ∧
    t.argFs = s.argFs ∧ t.argNch = s.argNch ∧ t.argMaxMs = s.argMaxMs ∧
    t.argNsamp = s.argNsamp ∧ t.host = s.host ∧ t.rdata = s.rdata ∧
    (s.landing = [] → t.param = s.param) ∧
    (t.cause = .none → t.esticky = s.esticky) ∧
    (∀ st c, s.cfgNch.toNat ≤ Channel.index c → State.history t st c = State.history s st c) ∧
    (∀ a, ¬ inBlock hardware s.cfgNch.toNat s.argNsamp.toNat a →
      Memory.get t.buf a = Memory.get s.buf a) ∧
    (∀ a, ¬ inRing hardware s.cfgNch.toNat s.capacity.toNat a →
      Memory.get t.ring a = Memory.get s.ring a)

/-- R219, U3: a non-empty PROCESS with a target outside its closed range or a NaN has no meaning; the
step is refused. -/
def Obligations.IllegalTargetIsRefused : Prop :=
  ∀ s : State, s.engState = .prepared → 1 ≤ s.argNsamp.toNat → s.argNsamp.toNat ≤ 4096 →
    (∃ k, legalParam k (Params.get (pullTargets s).1 k) = false) →
    exec .process s = .refused .targetOutOfRange

/-- R25, R36: the coefficient file's value before CONFIGURE is never read: a non-empty PROCESS gives the
same result whatever it held. -/
def Obligations.OldCoefficientsAreNeverRead : Prop :=
  ∀ (s : State) (k : PerStage Coefs), 1 ≤ s.argNsamp.toNat → s.argNsamp.toNat ≤ 4096 →
    s.engState = .prepared → exec .process { s with cf := k } = exec .process s

/-- R222: the result of PROCESS does not depend on the operands of PREPARE, on `STATUS` or on what the
host read last. -/
def Obligations.ProcessIgnoresWhatItDoesNotRead : Prop :=
  ∀ (s t : State) (fs nch ms rd : Word) (c : Cause) (e : Bool),
    exec .process s = .next t → t.cause = .none →
    exec .process { s with argFs := fs, argNch := nch, argMaxMs := ms, rdata := rd,
                           cause := c, esticky := e } =
      .next { t with argFs := fs, argNch := nch, argMaxMs := ms, rdata := rd, esticky := e }

/-! ## Rules of the whole machine -/

/-- R21, R210: only PREPARE, RELEASE and the hardware reset change `ENG_STATE`. -/
def Obligations.OnlyPrepareReleaseAndResetChangeTheState : Prop :=
  ∀ s t : State, step s = .next t → t.engState ≠ s.engState →
    ∃ rest, s.host = .write 0x00 4 (encode .prepare) :: rest ∨
      s.host = .write 0x00 4 (encode .release) :: rest ∨ s.host = .reset :: rest

/-- R30, R242: only the hardware reset clears `ESTICKY`, and a step that leaves a new non-zero cause
sets it. -/
def Obligations.StickyBitIsClearedByResetOnly : Prop :=
  ∀ s t : State, step s = .next t →
    (s.esticky = true → t.esticky = false → ∃ rest, s.host = .reset :: rest) ∧
    (t.cause ≠ s.cause → t.cause ≠ .none → t.esticky = true)

/-- R24, R142: the smoothers move only in a non-empty PROCESS of a Prepared engine, or at reset. -/
def Obligations.SmoothersMoveOnlyInANonEmptyBlock : Prop :=
  ∀ s t : State, step s = .next t → t.sm ≠ s.sm →
    ∃ rest, s.host = .reset :: rest ∨
      (s.host = .write 0x00 4 (encode .process) :: rest ∧ s.engState = .prepared ∧
        1 ≤ s.argNsamp.toNat)

/-- R21: no step leaves the engine in Releasing. -/
def Obligations.ReleasingIsNeverSeen : Prop :=
  ∀ s t : State, State.NotReleasing s → step s = .next t → State.NotReleasing t

/-- R37: every step keeps the invariant of R37. -/
def Obligations.StepKeepsTheConfiguration : Prop :=
  ∀ s t : State, State.ConfigInv hardware s → step s = .next t → State.ConfigInv hardware t

/-- R144, R219: every step keeps the smoothed values in their legal ranges. -/
def Obligations.StepKeepsSmoothedValuesLegal : Prop :=
  ∀ s t : State, State.SmoothedLegal s → step s = .next t → State.SmoothedLegal t

/-- Every step keeps both memories in canonical form (the model's form, log entry 7). -/
def Obligations.StepKeepsMemoriesCanonical : Prop :=
  ∀ s t : State, State.MemoryInv s → step s = .next t → State.MemoryInv t

/-- R219, R247, R62: while the host keeps its duties no step stops, and the invariant is kept. -/
def Obligations.DutifulHostNeverStopsTheMachine : Prop :=
  ∀ s : State, State.Inv s → State.HostKeepsDuty s → ∃ t, step s = .next t ∧ State.Inv t

/-! ## Numerics (40_numerics.md) -/

/-- R111, R112, R115: the sum of two finite values is the binary32 value nearest to the exact sum, ties
to even, an infinity exactly from halfway between the largest finite value and 2^128 on, with the sign
of the exact sum; an exact zero is `+0.0`, or `-0.0` for two negative zeros. An infinity added to
anything but the opposite infinity or a NaN is that infinity, a zero added to a non-zero value changes
nothing, and a difference is the sum with the sign bit flipped. Values are counted in units of 2^-149. -/
def Obligations.AdditionRoundsToNearestEven : Prop :=
  (∀ (n : Nat) (a b w : Word), F32.isFinite a = true → F32.isFinite b = true →
    F32.isFinite (F32.fadd hardware n a b) = true → F32.isFinite w = true →
    let r := F32.fadd hardware n a b
    let x := F32.val a + F32.val b
    |F32.val r - x| ≤ |F32.val w - x| ∧
    (|F32.val r - x| = |F32.val w - x| → F32.val w ≠ F32.val r → F32.mag r % 2 = 0)) ∧
  (∀ (n : Nat) (a b : Word), F32.isFinite a = true → F32.isFinite b = true →
    let r := F32.fadd hardware n a b
    let x := F32.val a + F32.val b
    F32.isNaN r = false ∧ (F32.isInf r = true ↔ 2 ^ 277 - 2 ^ 252 ≤ |x|) ∧
    (x ≠ 0 → (F32.neg r = true ↔ x < 0)) ∧
    (x = 0 → r = if F32.neg a = true ∧ F32.neg b = true then 0x80000000#32 else 0x00000000#32)) ∧
  (∀ (n : Nat) (a b : Word), F32.isInf a = true → F32.isNaN b = false →
    (F32.isInf b = true → F32.neg b = F32.neg a) →
    F32.fadd hardware n a b = a ∧ F32.fadd hardware n b a = a) ∧
  (∀ (n : Nat) (a b : Word), F32.isFinite a = true → F32.isZero a = false → F32.isZero b = true →
    F32.fadd hardware n a b = a ∧ F32.fadd hardware n b a = a) ∧
  (∀ (n : Nat) (a b : Word), F32.fsub hardware n a b = F32.fadd hardware n a (b ^^^ 0x80000000#32))

/-- R111, R112, R115: the product of two finite values is the binary32 value nearest to the exact
product, ties to even, an infinity exactly from halfway between the largest finite value and 2^128 on;
its sign, a zero's too, is the exclusive-or of the signs. The product of an infinity and a value that is
neither a zero nor a NaN is an infinity with that sign. -/
def Obligations.MultiplicationRoundsToNearestEven : Prop :=
  (∀ (n : Nat) (a b w : Word), F32.isFinite a = true → F32.isFinite b = true →
    F32.isFinite (F32.fmul hardware n a b) = true → F32.isFinite w = true →
    let r := F32.fmul hardware n a b
    let x := F32.val a * F32.val b
    |F32.val r * 2 ^ 149 - x| ≤ |F32.val w * 2 ^ 149 - x| ∧
    (|F32.val r * 2 ^ 149 - x| = |F32.val w * 2 ^ 149 - x| → F32.val w ≠ F32.val r →
      F32.mag r % 2 = 0)) ∧
  (∀ (n : Nat) (a b : Word), F32.isFinite a = true → F32.isFinite b = true →
    let r := F32.fmul hardware n a b
    F32.isNaN r = false ∧
    (F32.isInf r = true ↔ (2 ^ 277 - 2 ^ 252) * 2 ^ 149 ≤ |F32.val a * F32.val b|) ∧
    F32.neg r = (F32.neg a != F32.neg b) ∧
    (F32.isZero a = true ∨ F32.isZero b = true → F32.isZero r = true)) ∧
  (∀ (n : Nat) (a b : Word), F32.isNaN a = false → F32.isNaN b = false →
    (F32.isInf a = true ∨ F32.isInf b = true) → F32.isZero a = false → F32.isZero b = false →
    F32.isInf (F32.fmul hardware n a b) = true ∧
    F32.neg (F32.fmul hardware n a b) = (F32.neg a != F32.neg b))

/-- R111, R112, R115: the quotient of two finite values, the divisor not zero, is the binary32 value
nearest to the exact quotient, ties to even, an infinity exactly from halfway between the largest finite
value and 2^128 on; its sign, a zero's too, is the exclusive-or of the signs. With that sign, a finite
value that is not zero divided by a zero and an infinity divided by a finite value are infinities, and a
finite value divided by an infinity is a zero. -/
def Obligations.DivisionRoundsToNearestEven : Prop :=
  (∀ (n : Nat) (a b w : Word), F32.isFinite a = true → F32.isFinite b = true →
    F32.isZero b = false → F32.isFinite (F32.fdiv hardware n a b) = true →
    F32.isFinite w = true →
    let r := F32.fdiv hardware n a b
    let x := F32.val a * 2 ^ 149
    |F32.val r * F32.val b - x| ≤ |F32.val w * F32.val b - x| ∧
    (|F32.val r * F32.val b - x| = |F32.val w * F32.val b - x| → F32.val w ≠ F32.val r →
      F32.mag r % 2 = 0)) ∧
  (∀ (n : Nat) (a b : Word), F32.isFinite a = true → F32.isFinite b = true → F32.isZero b = false →
    let r := F32.fdiv hardware n a b
    F32.isNaN r = false ∧
    (F32.isInf r = true ↔ (2 ^ 277 - 2 ^ 252) * |F32.val b| ≤ |F32.val a| * 2 ^ 149) ∧
    F32.neg r = (F32.neg a != F32.neg b) ∧ (F32.isZero a = true → F32.isZero r = true)) ∧
  (∀ (n : Nat) (a b : Word),
    let r := F32.fdiv hardware n a b
    (F32.isFinite a = true → F32.isZero a = false → F32.isZero b = true →
      F32.isInf r = true ∧ F32.neg r = (F32.neg a != F32.neg b)) ∧
    (F32.isInf a = true → F32.isFinite b = true →
      F32.isInf r = true ∧ F32.neg r = (F32.neg a != F32.neg b)) ∧
    (F32.isFinite a = true → F32.isInf b = true →
      F32.isZero r = true ∧ F32.neg r = (F32.neg a != F32.neg b)))

/-- R112, R113: a NaN operand, and each invalid operation, gives a quiet NaN. -/
def Obligations.NaNOperandsAndInvalidOperationsGiveNaN : Prop :=
  ∀ (cfg : Config) (n : Nat) (a b : Word),
    let quiet (w : Word) := F32.isNaN w = true ∧ w.toNat / 2 ^ 22 % 2 = 1
    (F32.isNaN a = true ∨ F32.isNaN b = true →
      quiet (F32.fadd cfg n a b) ∧ quiet (F32.fsub cfg n a b) ∧
      quiet (F32.fmul cfg n a b) ∧ quiet (F32.fdiv cfg n a b)) ∧
    (F32.isInf a = true → F32.isInf b = true → F32.neg a ≠ F32.neg b →
      quiet (F32.fadd cfg n a b)) ∧
    (F32.isInf a = true → F32.isZero b = true →
      quiet (F32.fmul cfg n a b) ∧ quiet (F32.fmul cfg n b a)) ∧
    (F32.isZero a = true → F32.isZero b = true → quiet (F32.fdiv cfg n a b)) ∧
    (F32.isInf a = true → F32.isInf b = true → quiet (F32.fdiv cfg n a b))

/-- R116: every comparison with a NaN operand is false, the two zeros compare equal, and on any other
operands the comparisons are those of the values, an infinity counting as ±2^277 units, beyond every
finite value. -/
def Obligations.ComparisonsAreThoseOfTheValues : Prop :=
  ∀ a b : Word,
    (F32.isNaN a = true ∨ F32.isNaN b = true →
      F32.flt hardware a b = false ∧ F32.fle hardware a b = false ∧
      F32.fgt hardware a b = false ∧ F32.fge hardware a b = false ∧
      F32.feq hardware a b = false) ∧
    (F32.isNaN a = false → F32.isNaN b = false →
      (F32.flt hardware a b = true ↔ F32.val a < F32.val b) ∧
      (F32.fle hardware a b = true ↔ F32.val a ≤ F32.val b) ∧
      (F32.fgt hardware a b = true ↔ F32.val b < F32.val a) ∧
      (F32.fge hardware a b = true ↔ F32.val b ≤ F32.val a) ∧
      (F32.feq hardware a b = true ↔ F32.val a = F32.val b)) ∧
    (F32.isInf a = true → F32.val a = if F32.neg a then -(2 ^ 277 : Int) else 2 ^ 277) ∧
    (F32.isFinite a = true → |F32.val a| < 2 ^ 277) ∧
    F32.feq hardware 0x80000000#32 0x00000000#32 = true ∧
    F32.flt hardware 0x80000000#32 0x00000000#32 = false

/-! ## SMOOTH (41_smoother.md) -/

/-- R143: SMOOTH of a finite value toward itself is that value, bit for bit, but for `-0.0`, which
becomes `+0.0`, since both of its intermediate values are `+0.0`; of an infinity toward itself it is a
NaN. -/
def Obligations.SmoothHasItsTargetAsFixedPoint : Prop :=
  ∀ (n : Nat) (p : Word),
    (F32.isFinite p = true →
      F32.fsub hardware n p p = 0x00000000#32 ∧
      F32.fmul hardware (n + 1) hardware.kSmooth (F32.fsub hardware n p p) = 0x00000000#32 ∧
      smooth hardware n p p = if p = 0x80000000#32 then 0x00000000#32 else p) ∧
    (F32.isInf p = true →
      F32.isNaN (F32.fsub hardware n p p) = true ∧ F32.isNaN (smooth hardware n p p) = true)

/-- R140, R141, R144: SMOOTH is one step of `K_SMOOTH` = 0x3C23D70A of the way from the previous value to
the target, in three operations; for finite operands whose difference does not overflow, the result lies
in the closed interval between them. -/
def Obligations.SmoothStaysBetweenItsOperands : Prop :=
  (∀ (n : Nat) (p t : Word), smooth hardware n p t =
    F32.fadd hardware (n + 2) p
      (F32.fmul hardware (n + 1) 0x3C23D70A#32 (F32.fsub hardware n t p))) ∧
  (∀ (n : Nat) (p t : Word), F32.isFinite p = true → F32.isFinite t = true →
    F32.isFinite (F32.fsub hardware n t p) = true →
    F32.isFinite (smooth hardware n p t) = true ∧
    min (F32.val p) (F32.val t) ≤ F32.val (smooth hardware n p t) ∧
    F32.val (smooth hardware n p t) ≤ max (F32.val p) (F32.val t))

/-! ## CONFIGURE, FILTER, CHAIN (42_filter.md) -/

/-- R153: a cutoff from 20.0 to `hi = 0.49·fs` is returned as it is, a higher one gives `hi`, a lower one
or a NaN gives 20.0, or `hi` where `hi` is lower; for a finite normal sample rate above 0 the result is
finite and strictly between 0 and half the rate, whatever the cutoff. -/
def Obligations.ClampedCutoffIsBelowNyquist : Prop :=
  (∀ (n : Nat) (fc fs : Word),
    let hi := F32.fmul hardware n 0x3EFAE148#32 fs
    let lo := 0x41A00000#32
    (F32.fle hardware lo fc = true → F32.fle hardware fc hi = true →
      clampFc hardware n fc fs = fc) ∧
    (F32.fle hardware lo fc = true → F32.fle hardware fc hi = false →
      clampFc hardware n fc fs = hi) ∧
    (F32.fle hardware lo fc = false → F32.fle hardware lo hi = true →
      clampFc hardware n fc fs = lo) ∧
    (F32.fle hardware lo fc = false → F32.fle hardware lo hi = false →
      clampFc hardware n fc fs = hi) ∧
    (F32.isNaN fc = true → F32.fle hardware lo fc = false)) ∧
  (∀ (n : Nat) (fc fs : Word), F32.isFinite fs = true → F32.isSubnormal fs = false →
    F32.fgt hardware fs F32.zero = true →
    F32.isFinite (clampFc hardware n fc fs) = true ∧
    0 < F32.val (clampFc hardware n fc fs) ∧
    2 * F32.val (clampFc hardware n fc fs) < F32.val fs)

/-- R155, R156, R157: `b2` is `b0` bit for bit, and both kinds share `a1` and `a2`. Outside the domain of
the formulas this holds because the model lets them share one free value (log entry 8). -/
def Obligations.CoefficientSymmetries : Prop :=
  ∀ (st : Stage) (fc q fs : Word),
    (Coef.cookbook st fc q fs).b2 = (Coef.cookbook st fc q fs).b0 ∧
    (Coef.cookbook .highPass fc q fs).a1 = (Coef.cookbook .lowPass fc q fs).a1 ∧
    (Coef.cookbook .highPass fc q fs).a2 = (Coef.cookbook .lowPass fc q fs).a2

/-- R122, R155, R156: on the domain of the formulas every coefficient is `rnd32` of the exact real value;
and `rnd32` of a fraction is the model's rounding of it. That a negative number which rounds to a zero gives
`-0.0` is DEDUCED (log entry 8). -/
def Obligations.CookbookIsCorrectlyRounded : Prop :=
  (∀ (fc q fs : Word), Coef.inDomain fc q fs = true →
    let w0 : ℝ := 2 * Real.pi * (F32.units fc : ℝ) / (F32.units fs : ℝ)
    let cs : ℝ := Real.cos w0
    let al : ℝ := Real.sin w0 / (2 * ((F32.units q : ℝ) / 2 ^ 149))
    let hp := Coef.cookbook .highPass fc q fs
    let lp := Coef.cookbook .lowPass fc q fs
    F32.IsRnd32 ((1 + cs) / 2 / (1 + al)) hp.b0 ∧ F32.IsRnd32 (-(1 + cs) / (1 + al)) hp.b1 ∧
    F32.IsRnd32 ((1 + cs) / 2 / (1 + al)) hp.b2 ∧
    F32.IsRnd32 ((1 - cs) / 2 / (1 + al)) lp.b0 ∧ F32.IsRnd32 ((1 - cs) / (1 + al)) lp.b1 ∧
    F32.IsRnd32 ((1 - cs) / 2 / (1 + al)) lp.b2 ∧
    F32.IsRnd32 (-2 * cs / (1 + al)) hp.a1 ∧ F32.IsRnd32 (-2 * cs / (1 + al)) lp.a1 ∧
    F32.IsRnd32 ((1 - al) / (1 + al)) hp.a2 ∧ F32.IsRnd32 ((1 - al) / (1 + al)) lp.a2) ∧
  (∀ (num : Int) (den : Nat), 0 < den → F32.IsRnd32 ((num : ℝ) / den) (F32.rnd32 num den))

/-- R151, R162: CONFIGURE writes the five coefficients of its stage and nothing else. -/
def Obligations.ConfigureWritesOneCoefficientSet : Prop :=
  ∀ (cfg : Config) (n : Nat) (st : Stage) (fc : Word) (s : State),
    PerStage.get (configure cfg n st fc s).cf st =
      cfg.coef st (clampFc cfg n fc s.cfgFs) cfg.qFixed s.cfgFs ∧
    (∀ st', st' ≠ st → PerStage.get (configure cfg n st fc s).cf st' = PerStage.get s.cf st') ∧
    { configure cfg n st fc s with cf := s.cf } = s

/-- R158: with an all-zero history and a zero input the output is a zero, for finite coefficients. -/
def Obligations.SilenceStaysSilence : Prop :=
  ∀ (n : Nat) (k : Coefs) (h : History) (x : Word),
    F32.isFinite k.b0 = true → F32.isFinite k.b1 = true → F32.isFinite k.b2 = true →
    F32.isFinite k.a1 = true → F32.isFinite k.a2 = true →
    F32.isZero h.x1 = true → F32.isZero h.x2 = true → F32.isZero h.y1 = true →
    F32.isZero h.y2 = true → F32.isZero x = true →
    F32.isZero (biquadOut hardware n k h x) = true

/-- R158, R159: one sample gives `((((b0·x + b1·x1) + b2·x2) - a1·y1) - a2·y2)`, every product and sum
rounded on its own in that order, stored in place, and leaves the history `(x, x1, y, y1)`; a block of
`N1 + N2` samples gives the same samples and the same history as a block of `N1` followed by one of
`N2`, with the same coefficients; an empty block changes nothing. -/
def Obligations.FilterMayBeSplitAtAnySample : Prop :=
  (∀ (cfg : Config) (k : Coefs) (c : Channel) (n i : Nat) (buf : Memory) (h : History),
    let x := Memory.getWord buf n (bufAddr cfg c i)
    let mul (j : Nat) := F32.fmul cfg (n + 1 + j)
    let y := F32.fsub cfg (n + 9) (F32.fsub cfg (n + 8)
      (F32.fadd cfg (n + 7) (F32.fadd cfg (n + 6) (mul 0 k.b0 x) (mul 1 k.b1 h.x1)) (mul 2 k.b2 h.x2))
      (mul 3 k.a1 h.y1)) (mul 4 k.a2 h.y2)
    filterLoop cfg k c 1 n i buf h =
      (Memory.setWord buf (bufAddr cfg c i) y, ⟨x, h.x1, y, h.y1⟩)) ∧
  (∀ (cfg : Config) (k : Coefs) (c : Channel) (n i : Nat) (buf : Memory) (h : History),
    filterLoop cfg k c 0 n i buf h = (buf, h)) ∧
  (∀ (cfg : Config) (k : Coefs) (c : Channel) (n1 n2 n i : Nat) (buf : Memory) (h : History),
    filterLoop cfg k c (n1 + n2) n i buf h =
      filterLoop cfg k c n2 (n + 10 * n1) (i + n1)
        (filterLoop cfg k c n1 n i buf h).1 (filterLoop cfg k c n1 n i buf h).2)

/-- R159, R160: FILTER of a stage on a channel runs the recurrence over the block with that stage's
coefficients and that stage's and channel's history, puts the history back there and changes nothing
else; CHAIN runs the high-pass stage and then the low-pass stage on each channel, and each channel as if
the other were not there. -/
def Obligations.ChannelsAreFilteredIndependently : Prop :=
  (∀ (cfg : Config) (n : Nat) (st : Stage) (c : Channel) (count : Nat) (s : State),
    let coefs := match st with
      | .highPass => s.cf.highPass
      | .lowPass => s.cf.lowPass
    let r := filterLoop cfg coefs c count n 0 s.buf (State.history s st c)
    let t := filterStage cfg n st c count s
    t.buf = r.1 ∧ State.history t st c = r.2 ∧
    (∀ st' c', st' ≠ st ∨ c' ≠ c → State.history t st' c' = State.history s st' c') ∧
    { t with buf := s.buf, fh := s.fh } = s) ∧
  (∀ (cfg : Config) (count n : Nat) (s : State), count ≤ cfg.blockMax →
    let one (c : Channel) (n : Nat) :=
      filterStage cfg (n + 10 * count) .lowPass c count (filterStage cfg n .highPass c count s)
    let both := chainLoop cfg count [.left, .right] n s
    (∀ i n', i < count →
      Memory.getWord both.buf n' (bufAddr cfg .left i) =
        Memory.getWord (one .left n).buf n' (bufAddr cfg .left i) ∧
      Memory.getWord both.buf n' (bufAddr cfg .right i) =
        Memory.getWord (one .right (n + 20 * count)).buf n' (bufAddr cfg .right i)) ∧
    (∀ st, State.history both st .left = State.history (one .left n) st .left ∧
      State.history both st .right = State.history (one .right (n + 20 * count)) st .right))

/-- R113, R158, R281: once a NaN is in a stage's output history, every later output of the stage on
that channel is a NaN, and one stays in the history. -/
def Obligations.NaNNeverLeavesAFilterHistory : Prop :=
  ∀ (cfg : Config) (k : Coefs) (c : Channel) (count n i : Nat) (buf : Memory) (h : History),
    F32.isNaN h.y1 = true →
    F32.isNaN (filterLoop cfg k c count n i buf h).2.y1 = true ∧
    ∀ j n', i ≤ j → j < i + count →
      F32.isNaN (Memory.getWord (filterLoop cfg k c count n i buf h).1 n' (bufAddr cfg c j)) = true

/-! ## MAPDELAY (43_delay_mapper.md) -/

/-- R182, R183: left delays only when `dt < 0`, right only when `dt > 0`; both zeros and a NaN delay
neither; at most one channel has a delay. -/
def Obligations.DelayFollowsPolarity : Prop :=
  ∀ (n m : Nat) (dt maxMs fs : Word),
    mapDelay hardware n .left dt maxMs fs =
      (if F32.flt hardware dt F32.zero = true then delayLen hardware n dt maxMs fs else some 0) ∧
    mapDelay hardware n .right dt maxMs fs =
      (if F32.fgt hardware dt F32.zero = true then delayLen hardware n dt maxMs fs else some 0) ∧
    (F32.isZero dt = true ∨ F32.isNaN dt = true →
      mapDelay hardware n .left dt maxMs fs = some 0 ∧
      mapDelay hardware n .right dt maxMs fs = some 0) ∧
    (mapDelay hardware n .left dt maxMs fs = some 0 ∨
      mapDelay hardware m .right dt maxMs fs = some 0)

/-- R181, R184: DELAYLEN is four operations in the written order and an exact floor (R117, R118); at full
scale it is the expression PREPARE computes the capacity with. -/
def Obligations.FullScaleDelayIsTheMaximum : Prop :=
  (∀ (n : Nat) (dt maxMs fs : Word),
    let scale := F32.fdiv hardware n (F32.fabs dt) 0x418C0000#32
    let effMs := F32.fmul hardware (n + 1) scale maxMs
    let v := F32.fdiv hardware (n + 3) (F32.fmul hardware (n + 2) effMs fs) 0x447A0000#32
    delayLen hardware n dt maxMs fs = F32.floorU32 v) ∧
  (∀ w : Word, F32.fabs w = w &&& 0x7FFFFFFF#32) ∧
  (∀ (w : Word) (k : Nat), F32.floorU32 w = some k ↔
    F32.isFinite w = true ∧ k < 2 ^ 32 ∧
    (k : Int) * 2 ^ 149 ≤ F32.val w ∧ F32.val w < ((k : Int) + 1) * 2 ^ 149) ∧
  (∀ (n m : Nat) (dt maxMs fs : Word), F32.mag dt = F32.mag 0x418C0000#32 →
    F32.isFinite maxMs = true → F32.flt hardware maxMs F32.zero = false →
    F32.isFinite fs = true → F32.fgt hardware fs F32.zero = true →
    delayLen hardware n dt maxMs fs = capacityOf hardware m maxMs fs)

/-- R184: the delay length is monotone in `|dt|` wherever the longer one exists. -/
def Obligations.DelayLengthIsMonotone : Prop :=
  ∀ (n m len : Nat) (dt dt' maxMs fs : Word), F32.mag dt ≤ F32.mag dt' →
    F32.isFinite dt' = true →
    F32.isFinite maxMs = true → F32.flt hardware maxMs F32.zero = false →
    F32.isFinite fs = true → F32.fgt hardware fs F32.zero = true →
    delayLen hardware n dt' maxMs fs = some len →
    ∃ len', delayLen hardware m dt maxMs fs = some len' ∧ len' ≤ len

/-- R184, R196: while `|dt| ≤ 17.5` the delay length of every channel exists and is at most the
capacity. -/
def Obligations.DelayNeverExceedsTheCapacity : Prop :=
  ∀ (n m cap : Nat) (c : Channel) (dt maxMs fs : Word),
    legalParam .delayTime dt = true →
    F32.isFinite maxMs = true → F32.flt hardware maxMs F32.zero = false →
    F32.isFinite fs = true → F32.fgt hardware fs F32.zero = true →
    capacityOf hardware m maxMs fs = some cap →
    ∃ d, mapDelay hardware n c dt maxMs fs = some d ∧ d ≤ cap

/-! ## DELAYMIX (44_delay_buffer.md) -/

/-- R119, R120, R191, R197: sample `i` of a block is written at `(W + i) mod C`; the write and read
positions lie in the ring for every block index and every delay up to the capacity; the read position is
`d` behind modulo `C`, and is the write position when `d = 0` or `d = C`. -/
def Obligations.PositionsStayInsideTheRing : Prop :=
  ∀ (cap w i d : Nat), 1 ≤ cap → d ≤ cap →
    writeIndex cap w i = (w + i) % cap ∧ writeIndex cap w i < cap ∧
    readIndex cap (writeIndex cap w i) d < cap ∧
    readIndex cap (writeIndex cap w i) d =
      (if d ≤ writeIndex cap w i then writeIndex cap w i - d
       else cap - (d - writeIndex cap w i)) ∧
    (readIndex cap (writeIndex cap w i) d + d) % cap = writeIndex cap w i ∧
    (d = 0 ∨ d = cap → readIndex cap (writeIndex cap w i) d = writeIndex cap w i)

/-- R190, R192: the delay line is a shift. For `0 < d < C` and a block of any length, output sample `i`
is MIX of the block's own sample `i` with its sample `i - d`, or, for `i < d`, with what the ring held
`d` positions behind. -/
def Obligations.DelayLineIsAShift : Prop :=
  ∀ (cfg : Config) (c : Channel) (cap w d count n : Nat) (m : Word) (buf ring : Memory) (i n' : Nat),
    0 < d → d < cap → i < count →
    Memory.getWord (delayLoop cfg c cap w d m count n 0 buf ring).1 n' (bufAddr cfg c i) =
      mix cfg (n + 6 * i + 2) (Memory.getWord buf (n + 6 * i) (bufAddr cfg c i))
        (if d ≤ i then Memory.getWord buf (n + 6 * (i - d)) (bufAddr cfg c (i - d))
         else Memory.getWord ring (n + 6 * i + 1)
          (ringAddr cfg c (readIndex cap (writeIndex cap w i) d))) m

/-- R195: with `d = C` the wet sample is the sample just stored, so every output is MIX of the sample
with itself. -/
def Obligations.FullCapacityDelayIsNoDelay : Prop :=
  ∀ (cfg : Config) (c : Channel) (cap w count n : Nat) (m : Word) (buf ring : Memory) (i n' : Nat),
    0 < cap → i < count →
    Memory.getWord (delayLoop cfg c cap w cap m count n 0 buf ring).1 n' (bufAddr cfg c i) =
      mix cfg (n + 6 * i + 2) (Memory.getWord buf (n + 6 * i) (bufAddr cfg c i))
        (Memory.getWord buf (n + 6 * i) (bufAddr cfg c i)) m

/-- R194: zero delay is a bypass: every output sample is the dry sample bit for bit, whatever the mix,
and the ring is written all the same. R190, R191: after a block with any delay up to `C` the ring holds
the block's own (dry) samples at their write positions, the last `C` of them, and every position that no
sample of the block is written at holds what it held. -/
def Obligations.ZeroDelayIsABypassThatStillRecords : Prop :=
  (∀ (c : Channel) (cap w count n : Nat) (m : Word) (buf ring : Memory) (i n' : Nat),
    0 < cap → i < count →
    Memory.getWord (delayLoop hardware c cap w 0 m count n 0 buf ring).1 n' (bufAddr hardware c i) =
      Memory.getWord buf (n + 6 * i) (bufAddr hardware c i)) ∧
  (∀ (c : Channel) (cap w d count n : Nat) (m : Word) (buf ring : Memory) (n' : Nat),
    0 < cap → d ≤ cap →
    let after := (delayLoop hardware c cap w d m count n 0 buf ring).2
    (∀ i, i < count → count ≤ i + cap →
      Memory.getWord after n' (ringAddr hardware c (writeIndex cap w i)) =
        Memory.getWord buf (n + 6 * i) (bufAddr hardware c i)) ∧
    (∀ j, (∀ i, i < count → j ≠ writeIndex cap w i) →
      Memory.getWord after n' (ringAddr hardware c j) =
        Memory.getWord ring n' (ringAddr hardware c j)))

/-- R193, R198: MIX is one subtraction, two products and one sum, each rounded; with mix 0.0 it gives the
dry sample in value, and with mix 1.0 the wet sample in value, for finite samples. -/
def Obligations.PureDryAndPureWetInValue : Prop :=
  (∀ (cfg : Config) (n : Nat) (dry wet m : Word), mix cfg n dry wet m =
    F32.fadd cfg (n + 3) (F32.fmul cfg (n + 1) dry (F32.fsub cfg n 0x3F800000#32 m))
      (F32.fmul cfg (n + 2) wet m)) ∧
  (∀ (n : Nat) (dry wet : Word), F32.isFinite dry = true → F32.isFinite wet = true →
    F32.isFinite (mix hardware n dry wet 0x00000000#32) = true ∧
    F32.val (mix hardware n dry wet 0x00000000#32) = F32.val dry ∧
    F32.isFinite (mix hardware n dry wet 0x3F800000#32) = true ∧
    F32.val (mix hardware n dry wet 0x3F800000#32) = F32.val wet)

/-- R191, R65: DELAYMIX writes no ring byte outside `[0, C)` of its channel and no buffer byte outside
its block. -/
def Obligations.DelayMixStaysInItsMemories : Prop :=
  ∀ (cfg : Config) (c : Channel) (cap w d count n : Nat) (m : Word) (buf ring : Memory) (a : Nat),
    0 < cap →
    (a < bufAddr cfg c 0 ∨ bufAddr cfg c count ≤ a →
      Memory.get (delayLoop cfg c cap w d m count n 0 buf ring).1 a = Memory.get buf a) ∧
    (a < ringAddr cfg c 0 ∨ ringAddr cfg c cap ≤ a →
      Memory.get (delayLoop cfg c cap w d m count n 0 buf ring).2 a = Memory.get ring a)
end

