-- ==== Sys2Proof/Laws/F32.lean ====
section
/-! SUPPORT. The laws of the binary32 primitives: patterns, the order of the values, and what one
rounding does (exact on representable values, monotone). -/

namespace Sys2Proof.Machine

/-! Patterns -/

theorem F32.mag_lt (w : Word) : F32.mag w < 2 ^ 31 := Nat.mod_lt _ (by norm_num)

@[simp] theorem F32.mag_ofMag {s : Bool} {m : Nat} (h : m < 2 ^ 31) : F32.mag (F32.ofMag s m) = m := by
  rw [F32.mag, F32.ofMag, BitVec.toNat_ofNat]
  cases s <;> simp <;> omega

@[simp] theorem F32.neg_ofMag {s : Bool} {m : Nat} (h : m < 2 ^ 31) : F32.neg (F32.ofMag s m) = s := by
  rw [F32.neg, F32.ofMag, BitVec.toNat_ofNat]
  cases s <;> simp <;> omega

/-- A pattern is its sign and its magnitude bits. -/
theorem F32.ofMag_neg_mag (w : Word) : F32.ofMag (F32.neg w) (F32.mag w) = w := by
  apply BitVec.eq_of_toNat_eq
  have := w.isLt
  rw [F32.ofMag, BitVec.toNat_ofNat, F32.neg, F32.mag]
  by_cases h : 2 ^ 31 ≤ w.toNat
  · rw [decide_eq_true h, if_pos rfl]; omega
  · rw [decide_eq_false h, if_neg (by decide)]; omega

theorem F32.ext {a b : Word} (hs : F32.neg a = F32.neg b) (hm : F32.mag a = F32.mag b) : a = b := by
  rw [← F32.ofMag_neg_mag a, ← F32.ofMag_neg_mag b, hs, hm]

@[simp] theorem F32.neg_negate (w : Word) : F32.neg (F32.negate w) = !F32.neg w :=
  F32.neg_ofMag (F32.mag_lt w)

@[simp] theorem F32.mag_negate (w : Word) : F32.mag (F32.negate w) = F32.mag w :=
  F32.mag_ofMag (F32.mag_lt w)

@[simp] theorem F32.neg_fabs (w : Word) : F32.neg (F32.fabs w) = false :=
  F32.neg_ofMag (F32.mag_lt w)

@[simp] theorem F32.mag_fabs (w : Word) : F32.mag (F32.fabs w) = F32.mag w :=
  F32.mag_ofMag (F32.mag_lt w)

/-- Every NaN result is a NaN, whatever its free sign and payload (R113). -/
@[simp] theorem F32.isNaN_nan (n : Nat) : F32.isNaN (F32.nan n) = true := by
  have : (Config.freeNaN n).toNat % 2 ^ 22 < 2 ^ 22 := Nat.mod_lt _ (by norm_num)
  rw [F32.isNaN, F32.nan, F32.mag_ofMag (by omega), F32.infMag]
  exact decide_eq_true (by omega)

/-- With subnormals supported nothing is flushed (R114). -/
theorem F32.flush_of_subnormals {cfg : Config} (h : cfg.subnormals = true) (w : Word) :
    F32.flush cfg w = w := by
  simp [F32.flush, h]

@[simp] theorem F32.flush_hardware (w : Word) : F32.flush hardware w = w :=
  F32.flush_of_subnormals rfl w

theorem F32.isFinite_iff (w : Word) : F32.isFinite w = true ↔ F32.mag w < F32.infMag := by
  simp [F32.isFinite]

theorem F32.isNaN_of_finite {w : Word} (h : F32.isFinite w = true) : F32.isNaN w = false := by
  simp only [F32.isFinite, decide_eq_true_eq] at h
  simp only [F32.isNaN, decide_eq_false_iff_not]; omega

theorem F32.isInf_of_finite {w : Word} (h : F32.isFinite w = true) : F32.isInf w = false := by
  simp only [F32.isFinite, decide_eq_true_eq] at h
  simp only [F32.isInf, decide_eq_false_iff_not]; omega

theorem F32.isNaN_flush (cfg : Config) (w : Word) :
    F32.isNaN (F32.flush cfg w) = F32.isNaN w := by
  rw [F32.flush]
  split_ifs with h
  · simp only [Bool.and_eq_true, F32.isSubnormal, decide_eq_true_eq] at h
    have h1 : F32.mag w < 2 ^ 23 := h.2.2
    have h2 : F32.infMag = 0x7F800000 := rfl
    simp only [F32.isNaN, F32.mag_ofMag (show (0 : Nat) < 2 ^ 31 by norm_num)]
    rw [decide_eq_false (by omega), decide_eq_false (by omega)]
  · rfl

/-! The order of the values -/

theorem F32.magUnits_lt_of_lt {m m' : Nat} (h : m < m') : F32.magUnits m < F32.magUnits m' := by
  have hf : m % 2 ^ 23 < 2 ^ 23 := Nat.mod_lt _ (by norm_num)
  have hf' : m' % 2 ^ 23 < 2 ^ 23 := Nat.mod_lt _ (by norm_num)
  have hm := Nat.div_add_mod m (2 ^ 23)
  have hm' := Nat.div_add_mod m' (2 ^ 23)
  have hle : m / 2 ^ 23 ≤ m' / 2 ^ 23 := Nat.div_le_div_right h.le
  simp only [F32.magUnits]
  generalize m / 2 ^ 23 = e at *
  generalize m' / 2 ^ 23 = e' at *
  generalize m % 2 ^ 23 = f at *
  generalize m' % 2 ^ 23 = f' at *
  rcases Nat.eq_or_lt_of_le hle with he | he
  · subst he
    have hff : f < f' := by omega
    split_ifs
    · exact hff
    · exact Nat.mul_lt_mul_of_pos_right (by omega) (by positivity)
  · rw [if_neg (show e' ≠ 0 by omega)]
    have hp : 1 ≤ 2 ^ (e' - 1) := Nat.one_le_two_pow
    split_ifs with h0
    · calc f < 2 ^ 23 * 1 := by omega
        _ ≤ (2 ^ 23 + f') * 2 ^ (e' - 1) := Nat.mul_le_mul (by omega) hp
    · have h2 : 2 ^ (e' - 1) = 2 ^ (e' - 1 - (e - 1) - 1) * 2 * 2 ^ (e - 1) := by
        rw [← pow_succ, ← pow_add]; congr 1; omega
      have h1 : 1 ≤ 2 ^ (e' - 1 - (e - 1) - 1) := Nat.one_le_two_pow
      calc (2 ^ 23 + f) * 2 ^ (e - 1) < (2 ^ 23 * 2) * 2 ^ (e - 1) :=
            Nat.mul_lt_mul_of_pos_right (by omega) (by positivity)
        _ ≤ (2 ^ 23 + f') * 2 ^ (e' - 1) := by
            rw [h2, ← Nat.mul_assoc]
            refine Nat.mul_le_mul_right _ ?_
            calc 2 ^ 23 * 2 = 2 ^ 23 * (1 * 2) := by ring
              _ ≤ (2 ^ 23 + f') * (2 ^ (e' - 1 - (e - 1) - 1) * 2) :=
                  Nat.mul_le_mul (by omega) (Nat.mul_le_mul_right _ h1)

theorem F32.magUnits_le_iff {m m' : Nat} : F32.magUnits m ≤ F32.magUnits m' ↔ m ≤ m' := by
  constructor
  · intro h
    by_contra hc
    exact absurd (F32.magUnits_lt_of_lt (not_le.1 hc)) (not_lt.2 h)
  · intro h
    rcases Nat.eq_or_lt_of_le h with rfl | h
    · exact le_rfl
    · exact (F32.magUnits_lt_of_lt h).le

theorem F32.magUnits_lt_iff {m m' : Nat} : F32.magUnits m < F32.magUnits m' ↔ m < m' := by
  rw [← not_le, ← not_le, F32.magUnits_le_iff]

@[simp] theorem F32.magUnits_zero : F32.magUnits 0 = 0 := rfl

theorem F32.magUnits_eq_zero {m : Nat} : F32.magUnits m = 0 ↔ m = 0 := by
  constructor
  · intro h
    by_contra hc
    have := F32.magUnits_lt_of_lt (Nat.pos_of_ne_zero hc)
    simp [h] at this
  · rintro rfl; rfl

/-- The order of the patterns is the order of the values. -/
theorem F32.key_le_iff (a b : Word) : F32.key a ≤ F32.key b ↔ F32.val a ≤ F32.val b := by
  have h1 : F32.units a ≤ F32.units b ↔ F32.mag a ≤ F32.mag b := F32.magUnits_le_iff
  have h2 : F32.units b ≤ F32.units a ↔ F32.mag b ≤ F32.mag a := F32.magUnits_le_iff
  have h3 : F32.units a = 0 ↔ F32.mag a = 0 := F32.magUnits_eq_zero
  have h4 : F32.units b = 0 ↔ F32.mag b = 0 := F32.magUnits_eq_zero
  simp only [F32.key, F32.val]
  split_ifs <;> omega

/-! One rounding -/

theorem F32.roundDiv_spec (n : Nat) {d : Nat} (hd : 0 < d) :
    2 * n ≤ (2 * F32.roundDiv n d + 1) * d ∧ 2 * F32.roundDiv n d * d ≤ 2 * n + d ∧
    (2 * n = (2 * F32.roundDiv n d + 1) * d → F32.roundDiv n d % 2 = 0) ∧
    (2 * F32.roundDiv n d * d = 2 * n + d → F32.roundDiv n d % 2 = 0) := by
  have hm : n % d < d := Nat.mod_lt _ hd
  have hn : n = d * (n / d) + n % d := (Nat.div_add_mod n d).symm
  rw [F32.roundDiv]
  generalize hq : n / d = q at *
  generalize hr : n % d = r at *
  have e0 : d * q = q * d := Nat.mul_comm d q
  split_ifs with h1 h2
  · have e1 : (2 * q + 1) * d = 2 * (q * d) + d := by ring
    have e2 : 2 * q * d = 2 * (q * d) := by ring
    refine ⟨by omega, by omega, fun h => by omega, fun h => by omega⟩
  · have e1 : (2 * (q + 1) + 1) * d = 2 * (q * d) + 3 * d := by ring
    have e2 : 2 * (q + 1) * d = 2 * (q * d) + 2 * d := by ring
    refine ⟨by omega, by omega, fun h => by omega, fun h => by omega⟩
  · rcases Nat.mod_two_eq_zero_or_one q with hp | hp <;> rw [hp]
    · have e1 : (2 * (q + 0) + 1) * d = 2 * (q * d) + d := by ring
      have e2 : 2 * (q + 0) * d = 2 * (q * d) := by ring
      refine ⟨by omega, by omega, fun _ => by omega, fun h => by omega⟩
    · have e1 : (2 * (q + 1) + 1) * d = 2 * (q * d) + 3 * d := by ring
      have e2 : 2 * (q + 1) * d = 2 * (q * d) + 2 * d := by ring
      refine ⟨by omega, by omega, fun h => by omega, fun _ => by omega⟩

/-- Rounding to an integer is monotone in the quotient. -/
theorem F32.roundDiv_mono {n d n' d' : Nat} (hd : 0 < d) (hd' : 0 < d') (h : n * d' ≤ n' * d) :
    F32.roundDiv n d ≤ F32.roundDiv n' d' := by
  by_contra hc
  obtain ⟨-, a2, -, a4⟩ := F32.roundDiv_spec n hd
  obtain ⟨b1, -, b3, -⟩ := F32.roundDiv_spec n' hd'
  generalize F32.roundDiv n d = k at *
  generalize F32.roundDiv n' d' = k' at *
  have hk : k' + 1 ≤ k := by omega
  have s1 : 2 * k * d * d' ≤ (2 * n + d) * d' := Nat.mul_le_mul_right _ a2
  have s2 : 2 * n' * d ≤ (2 * k' + 1) * d' * d := Nat.mul_le_mul_right _ b1
  have hdd : 0 < d * d' := Nat.mul_pos hd hd'
  have s3 : (k' + 1) * (d * d') ≤ k * (d * d') := Nat.mul_le_mul_right _ hk
  have t1 : 2 * k * d * d' = 2 * (k * (d * d')) := by ring
  have t2 : (2 * n + d) * d' = 2 * (n * d') + d * d' := by ring
  have t3 : 2 * n' * d = 2 * (n' * d) := by ring
  have t4 : (2 * k' + 1) * d' * d = 2 * (k' * (d * d')) + d * d' := by ring
  have t5 : (k' + 1) * (d * d') = k' * (d * d') + d * d' := by ring
  have hkk : k * (d * d') = (k' + 1) * (d * d') := by omega
  have hk2 : k = k' + 1 := Nat.eq_of_mul_eq_mul_right hdd hkk
  have e4 : 2 * k * d = 2 * n + d := by
    have : 2 * k * d * d' = (2 * n + d) * d' := by omega
    exact Nat.eq_of_mul_eq_mul_right hd' this
  have e3 : 2 * n' = (2 * k' + 1) * d' := by
    have : 2 * n' * d = (2 * k' + 1) * d' * d := by omega
    exact Nat.eq_of_mul_eq_mul_right hd this
  have := a4 e4
  have := b3 e3
  omega

theorem F32.roundDiv_exact (k : Nat) {d : Nat} (hd : 0 < d) : F32.roundDiv (k * d) d = k := by
  rw [F32.roundDiv, Nat.mul_mod_left, Nat.mul_div_cancel _ hd]
  simp [hd]

/-- The shift `roundMag` uses. -/
def F32.shift (num den : Nat) : Nat := (num / den).log2 - 23

theorem F32.roundMag_eq (num den : Nat) :
    F32.roundMag num den = min (F32.shift num den * 2 ^ 23 +
      F32.roundDiv num (den * 2 ^ F32.shift num den)) F32.infMag := rfl

theorem F32.shift_upper (num : Nat) {den : Nat} (hd : 0 < den) :
    num < 2 ^ 24 * (den * 2 ^ F32.shift num den) := by
  have hq : num / den < 2 ^ (F32.shift num den + 24) := by
    rcases Nat.eq_zero_or_pos (num / den) with h | h
    · rw [h]; positivity
    · exact (Nat.log2_lt (by omega)).1 (by simp only [F32.shift]; omega)
  have := (Nat.div_lt_iff_lt_mul hd).1 hq
  rw [pow_add] at this
  linarith [this]

theorem F32.shift_lower {num den : Nat} (hd : 0 < den) (hs : 0 < F32.shift num den) :
    2 ^ 23 * (den * 2 ^ F32.shift num den) ≤ num := by
  have h0 : num / den ≠ 0 := by
    intro h
    simp [F32.shift, h] at hs
  have hq : 2 ^ (F32.shift num den + 23) ≤ num / den :=
    (Nat.le_log2 h0).1 (by simp only [F32.shift] at hs ⊢; omega)
  have := (Nat.le_div_iff_mul_le hd).1 hq
  rw [pow_add] at this
  linarith [this]

theorem F32.shift_mono {num den num' den' : Nat} (hd : 0 < den) (hd' : 0 < den')
    (h : num * den' ≤ num' * den) : F32.shift num den ≤ F32.shift num' den' := by
  have hq : num / den ≤ num' / den' := by
    rw [Nat.le_div_iff_mul_le hd']
    have h1 : num / den * den ≤ num := Nat.div_mul_le_self _ _
    have h2 : num / den * den' * den ≤ num' * den := by
      calc num / den * den' * den = num / den * den * den' := by ring
        _ ≤ num * den' := Nat.mul_le_mul_right _ h1
        _ ≤ num' * den := h
    exact Nat.le_of_mul_le_mul_right h2 hd
  simp only [F32.shift]
  have : (num / den).log2 ≤ (num' / den').log2 := by
    rcases Nat.eq_zero_or_pos (num / den) with h0 | h0
    · rw [h0]; simp
    · exact (Nat.le_log2 (by omega)).2 (le_trans (Nat.log2_self_le (by omega)) hq)
  omega

/-- Rounding is monotone in the exact quotient (used throughout R144, R184). -/
theorem F32.roundMag_mono {num den num' den' : Nat} (hd : 0 < den) (hd' : 0 < den')
    (h : num * den' ≤ num' * den) : F32.roundMag num den ≤ F32.roundMag num' den' := by
  rw [F32.roundMag_eq, F32.roundMag_eq]
  refine min_le_min_right _ ?_
  have hp : 0 < den * 2 ^ F32.shift num den := by positivity
  have hp' : 0 < den' * 2 ^ F32.shift num' den' := by positivity
  rcases Nat.eq_or_lt_of_le (F32.shift_mono hd hd' h) with hs | hs
  · rw [← hs] at hp' ⊢
    refine Nat.add_le_add_left (F32.roundDiv_mono hp hp' ?_) _
    calc num * (den' * 2 ^ F32.shift num den) = num * den' * 2 ^ F32.shift num den := by ring
      _ ≤ num' * den * 2 ^ F32.shift num den := Nat.mul_le_mul_right _ h
      _ = num' * (den * 2 ^ F32.shift num den) := by ring
  · have h1 : F32.roundDiv num (den * 2 ^ F32.shift num den) ≤ 2 ^ 24 := by
      calc F32.roundDiv num (den * 2 ^ F32.shift num den)
          ≤ F32.roundDiv (2 ^ 24 * (den * 2 ^ F32.shift num den)) (den * 2 ^ F32.shift num den) :=
            F32.roundDiv_mono hp hp (Nat.mul_le_mul_right _ (F32.shift_upper num hd).le)
        _ = 2 ^ 24 := F32.roundDiv_exact _ hp
    have h2 : 2 ^ 23 ≤ F32.roundDiv num' (den' * 2 ^ F32.shift num' den') := by
      calc 2 ^ 23 = F32.roundDiv (2 ^ 23 * (den' * 2 ^ F32.shift num' den'))
            (den' * 2 ^ F32.shift num' den') := (F32.roundDiv_exact _ hp').symm
        _ ≤ _ := F32.roundDiv_mono hp' hp'
            (Nat.mul_le_mul_right _ (F32.shift_lower hd' (by omega)))
    omega

/-- Rounding is exact on a representable value. -/
theorem F32.roundMag_exact {m den : Nat} (hd : 0 < den) (hm : m ≤ F32.infMag) :
    F32.roundMag (F32.magUnits m * den) den = m := by
  have hf : m % 2 ^ 23 < 2 ^ 23 := Nat.mod_lt _ (by norm_num)
  have hdm := Nat.div_add_mod m (2 ^ 23)
  have key : ∀ e f : Nat, f < 2 ^ 24 → (0 < e → 2 ^ 23 ≤ f) →
      e * 2 ^ 23 + f = m → F32.magUnits m = f * 2 ^ e →
      F32.roundMag (F32.magUnits m * den) den = m := by
    intro e f hf1 hf2 he hu
    have hsh : F32.shift (F32.magUnits m * den) den = e := by
      rw [F32.shift, Nat.mul_div_cancel _ hd, hu]
      rcases Nat.eq_zero_or_pos e with h0 | h0
      · subst h0
        rw [pow_zero, mul_one]
        rcases Nat.eq_zero_or_pos f with hz | hz
        · subst hz; rfl
        · have := (Nat.log2_lt (n := f) (k := 24) (by omega)).2 hf1
          omega
      · have hlow : 2 ^ (23 + e) ≤ f * 2 ^ e := by
          rw [pow_add]; exact Nat.mul_le_mul_right _ (hf2 h0)
        have hhigh : f * 2 ^ e < 2 ^ (24 + e) := by
          rw [pow_add]; exact Nat.mul_lt_mul_of_pos_right hf1 (by positivity)
        have hne : f * 2 ^ e ≠ 0 := by
          have : 0 < 2 ^ (23 + e) := by positivity
          omega
        have l1 := (Nat.le_log2 hne).2 hlow
        have l2 := (Nat.log2_lt hne).2 hhigh
        omega
    rw [F32.roundMag_eq, hsh, hu, show f * 2 ^ e * den = f * (den * 2 ^ e) by ring,
      F32.roundDiv_exact _ (by positivity), he]
    exact Nat.min_eq_left hm
  by_cases h0 : m / 2 ^ 23 = 0
  · refine key 0 (m % 2 ^ 23) (hf.trans (by norm_num)) (fun h => absurd h (lt_irrefl 0)) ?_ ?_
    · rw [zero_mul, zero_add]; omega
    · rw [F32.magUnits, if_pos h0, pow_zero, mul_one]
  · refine key (m / 2 ^ 23 - 1) (2 ^ 23 + m % 2 ^ 23) (by omega) (by omega) ?_ ?_
    · have : (m / 2 ^ 23 - 1) * 2 ^ 23 + 2 ^ 23 = m / 2 ^ 23 * 2 ^ 23 := by
        rw [← Nat.succ_mul]; congr 1; omega
      omega
    · rw [F32.magUnits, if_neg h0]

theorem F32.roundMag_le_inf (num den : Nat) : F32.roundMag num den ≤ F32.infMag := Nat.min_le_right _ _

theorem F32.roundMag_lt (num den : Nat) : F32.roundMag num den < 2 ^ 31 :=
  lt_of_le_of_lt (F32.roundMag_le_inf num den) (by norm_num [F32.infMag])

/-- A quotient at most a representable value rounds to at most it. -/
theorem F32.roundMag_le {num den m : Nat} (hd : 0 < den) (hm : m ≤ F32.infMag)
    (h : num ≤ F32.magUnits m * den) : F32.roundMag num den ≤ m :=
  (F32.roundMag_mono hd hd (Nat.mul_le_mul_right _ h)).trans_eq (F32.roundMag_exact hd hm)

/-- A quotient at least a representable value rounds to at least it. -/
theorem F32.le_roundMag {num den m : Nat} (hd : 0 < den) (hm : m ≤ F32.infMag)
    (h : F32.magUnits m * den ≤ num) : m ≤ F32.roundMag num den :=
  (F32.roundMag_exact hd hm).symm.trans_le (F32.roundMag_mono hd hd (Nat.mul_le_mul_right _ h))

@[simp] theorem F32.roundMag_zero (den : Nat) : F32.roundMag 0 den = 0 := by
  simp [F32.roundMag, F32.roundDiv]

/-! The operations on finite operands -/

theorem F32.val_ofMag {s : Bool} {m : Nat} (h : m < 2 ^ 31) :
    F32.val (F32.ofMag s m) = if s then -(F32.magUnits m : Int) else (F32.magUnits m : Int) := by
  rw [F32.val, F32.neg_ofMag h, F32.units, F32.mag_ofMag h]

theorem F32.natAbs_val (w : Word) : (F32.val w).natAbs = F32.units w := by
  rw [F32.val]; split_ifs <;> simp

@[simp] theorem F32.val_negate (w : Word) : F32.val (F32.negate w) = -F32.val w := by
  rw [F32.val, F32.neg_negate, F32.units, F32.mag_negate, F32.val, F32.units]
  cases F32.neg w <;> simp

theorem F32.isFinite_negate (w : Word) : F32.isFinite (F32.negate w) = F32.isFinite w := by
  simp [F32.isFinite]

theorem F32.add_of_finite {n : Nat} {a b : Word} (ha : F32.isFinite a = true)
    (hb : F32.isFinite b = true) :
    F32.add n a b =
      if F32.val a + F32.val b = 0 then F32.ofMag (F32.neg a && F32.neg b) 0
      else F32.ofMag (decide (F32.val a + F32.val b < 0))
        (F32.roundMag (F32.val a + F32.val b).natAbs 1) := by
  simp [F32.add, F32.isNaN_of_finite ha, F32.isNaN_of_finite hb, F32.isInf_of_finite ha,
    F32.isInf_of_finite hb]

theorem F32.mul_of_finite {n : Nat} {a b : Word} (ha : F32.isFinite a = true)
    (hb : F32.isFinite b = true) :
    F32.mul n a b = F32.ofMag (F32.neg a != F32.neg b)
      (F32.roundMag (F32.units a * F32.units b) (2 ^ 149)) := by
  simp [F32.mul, F32.isNaN_of_finite ha, F32.isNaN_of_finite hb, F32.isInf_of_finite ha,
    F32.isInf_of_finite hb]

theorem F32.div_of_finite {n : Nat} {a b : Word} (ha : F32.isFinite a = true)
    (hb : F32.isFinite b = true) (h0 : F32.isZero b = false) :
    F32.div n a b = F32.ofMag (F32.neg a != F32.neg b)
      (F32.roundMag (F32.units a * 2 ^ 149) (F32.units b)) := by
  simp [F32.div, F32.isNaN_of_finite ha, F32.isNaN_of_finite hb, F32.isInf_of_finite ha,
    F32.isInf_of_finite hb, h0]

/-- A sum between two representable values rounds to a finite value between them. -/
theorem F32.add_between {n : Nat} {a b lo hi : Word} (ha : F32.isFinite a = true)
    (hb : F32.isFinite b = true) (hlo : F32.isFinite lo = true) (hhi : F32.isFinite hi = true)
    (h1 : F32.val lo ≤ F32.val a + F32.val b) (h2 : F32.val a + F32.val b ≤ F32.val hi) :
    F32.isFinite (F32.add n a b) = true ∧
      F32.val lo ≤ F32.val (F32.add n a b) ∧ F32.val (F32.add n a b) ≤ F32.val hi := by
  rw [F32.add_of_finite ha hb]
  generalize F32.val a + F32.val b = v at *
  have hl : F32.mag lo < F32.infMag := by simpa [F32.isFinite] using hlo
  have hh : F32.mag hi < F32.infMag := by simpa [F32.isFinite] using hhi
  have ulo := F32.natAbs_val lo
  have uhi := F32.natAbs_val hi
  by_cases hv : v = 0
  · subst hv
    rw [if_pos rfl, F32.isFinite, F32.mag_ofMag (by norm_num), F32.val_ofMag (by norm_num)]
    refine ⟨decide_eq_true (by norm_num [F32.infMag]), ?_, ?_⟩ <;> split_ifs <;> simpa using by assumption
  · rw [if_neg hv]
    have hlt := F32.roundMag_lt v.natAbs 1
    rw [F32.isFinite, F32.mag_ofMag hlt, F32.val_ofMag hlt, decide_eq_true_eq]
    by_cases hneg : v < 0
    · have hle : F32.roundMag v.natAbs 1 ≤ F32.mag lo :=
        F32.roundMag_le one_pos hl.le (by
          have : v.natAbs ≤ (F32.val lo).natAbs := by omega
          rw [mul_one]; exact this.trans_eq ulo)
      refine ⟨by omega, ?_, ?_⟩
      · have : F32.magUnits (F32.roundMag v.natAbs 1) ≤ F32.units lo := F32.magUnits_le_iff.2 hle
        simp only [hneg, decide_true, if_true]
        omega
      · simp only [hneg, decide_true, if_true]
        by_cases hp : 0 ≤ F32.val hi
        · omega
        · have : F32.mag hi ≤ F32.roundMag v.natAbs 1 :=
            F32.le_roundMag one_pos hh.le (by
              have : (F32.val hi).natAbs ≤ v.natAbs := by omega
              rw [mul_one]; exact uhi.symm.trans_le this)
          have : F32.units hi ≤ F32.magUnits (F32.roundMag v.natAbs 1) := F32.magUnits_le_iff.2 this
          omega
    · have hle : F32.roundMag v.natAbs 1 ≤ F32.mag hi :=
        F32.roundMag_le one_pos hh.le (by
          have : v.natAbs ≤ (F32.val hi).natAbs := by omega
          rw [mul_one]; exact this.trans_eq uhi)
      refine ⟨by omega, ?_, ?_⟩
      · simp only [hneg, decide_false]
        by_cases hp : F32.val lo ≤ 0
        · simp only [Bool.false_eq_true, if_false]; omega
        · have : F32.mag lo ≤ F32.roundMag v.natAbs 1 :=
            F32.le_roundMag one_pos hl.le (by
              have : (F32.val lo).natAbs ≤ v.natAbs := by omega
              rw [mul_one]; exact ulo.symm.trans_le this)
          have : F32.units lo ≤ F32.magUnits (F32.roundMag v.natAbs 1) := F32.magUnits_le_iff.2 this
          simp only [Bool.false_eq_true, if_false]; omega
      · have : F32.magUnits (F32.roundMag v.natAbs 1) ≤ F32.units hi := F32.magUnits_le_iff.2 hle
        simp only [hneg, decide_false, Bool.false_eq_true, if_false]
        omega

/-! Powers of two and the range of the finite values -/

/-- An infinity stands where 2^128, that is 2^277 units, would (R111). -/
theorem F32.magUnits_inf : F32.magUnits F32.infMag = 2 ^ 277 := by
  rw [F32.magUnits, if_neg (by decide +kernel), show F32.infMag % 2 ^ 23 = 0 by decide +kernel,
    show F32.infMag / 2 ^ 23 - 1 = 254 by decide +kernel, add_zero, ← pow_add]

theorem F32.mag_of_finite {w : Word} (h : F32.isFinite w = true) : F32.mag w < F32.infMag := by
  simpa [F32.isFinite] using h

theorem F32.isFinite_ofMag {s : Bool} {m : Nat} (h : m < 2 ^ 31) :
    F32.isFinite (F32.ofMag s m) = decide (m < F32.infMag) := by
  rw [F32.isFinite, F32.mag_ofMag h]

theorem F32.units_lt_of_finite {w : Word} (h : F32.isFinite w = true) : F32.units w < 2 ^ 277 := by
  have := F32.magUnits_lt_of_lt (F32.mag_of_finite h)
  rwa [F32.magUnits_inf] at this

/-- Every power of two up to 2^276 units is a finite binary32 value. -/
theorem F32.exists_pow (L : Nat) (h : L ≤ 276) : ∃ m, m < F32.infMag ∧ F32.magUnits m = 2 ^ L := by
  by_cases hL : L < 23
  · have h1 : 2 ^ L < 2 ^ 23 := Nat.pow_lt_pow_right (by norm_num) hL
    refine ⟨2 ^ L, ?_, ?_⟩
    · simp only [F32.infMag]; omega
    · rw [F32.magUnits, if_pos (Nat.div_eq_of_lt h1), Nat.mod_eq_of_lt h1]
  · refine ⟨(L - 22) * 2 ^ 23, ?_, ?_⟩
    · simp only [F32.infMag]; omega
    · rw [F32.magUnits, Nat.mul_div_cancel _ (by norm_num), if_neg (by omega), Nat.mul_mod_left,
        add_zero, ← pow_add]
      congr 1; omega

/-- What is at most a power of two rounds to at most it. -/
theorem F32.roundMag_units_le_pow {num den L : Nat} (hd : 0 < den) (hL : L ≤ 276)
    (h : num ≤ 2 ^ L * den) : F32.magUnits (F32.roundMag num den) ≤ 2 ^ L := by
  obtain ⟨m, hm, hu⟩ := F32.exists_pow L hL
  rw [← hu]
  exact F32.magUnits_le_iff.2 (F32.roundMag_le hd hm.le (by rwa [hu]))

/-! The default configuration keeps subnormals, so its operations are the plain ones (R114) -/

theorem F32.fadd_hardware (n : Nat) (a b : Word) : F32.fadd hardware n a b = F32.add n a b := by
  simp only [F32.fadd, F32.flush_hardware]

theorem F32.fsub_hardware (n : Nat) (a b : Word) :
    F32.fsub hardware n a b = F32.add n a (F32.negate b) := by
  simp only [F32.fsub, F32.fadd, F32.flush_hardware]

theorem F32.fmul_hardware (n : Nat) (a b : Word) : F32.fmul hardware n a b = F32.mul n a b := by
  simp only [F32.fmul, F32.flush_hardware]

theorem F32.fdiv_hardware (n : Nat) (a b : Word) : F32.fdiv hardware n a b = F32.div n a b := by
  simp only [F32.fdiv, F32.flush_hardware]

theorem F32.flt_hardware (a b : Word) : F32.flt hardware a b = F32.lt a b := by
  simp only [F32.flt, F32.flush_hardware]

theorem F32.fle_hardware (a b : Word) : F32.fle hardware a b = F32.le a b := by
  simp only [F32.fle, F32.flush_hardware]

theorem F32.lt_iff_of_finite {a b : Word} (ha : F32.isFinite a = true) (hb : F32.isFinite b = true) :
    F32.lt a b = true ↔ F32.val a < F32.val b := by
  have := F32.key_le_iff b a
  simp only [F32.lt, F32.ordered, F32.isNaN_of_finite ha, F32.isNaN_of_finite hb, Bool.not_false,
    Bool.and_self, Bool.true_and, decide_eq_true_eq]
  omega

theorem F32.le_iff_of_finite {a b : Word} (ha : F32.isFinite a = true) (hb : F32.isFinite b = true) :
    F32.le a b = true ↔ F32.val a ≤ F32.val b := by
  have := F32.key_le_iff a b
  simp only [F32.le, F32.ordered, F32.isNaN_of_finite ha, F32.isNaN_of_finite hb, Bool.not_false,
    Bool.and_self, Bool.true_and, decide_eq_true_eq]
  exact this

/-- A grid number `j` of the spacing `2 ^ e` is the pattern `e · 2^23 + j`. -/
theorem F32.magUnits_grid (e j : Nat) (hj : j ≤ 2 ^ 24) (h : 0 < e → 2 ^ 23 ≤ j) :
    F32.magUnits (e * 2 ^ 23 + j) = j * 2 ^ e := by
  rw [F32.magUnits]
  by_cases h23 : j < 2 ^ 23
  · have he : e = 0 := by by_contra hc; have := h (by omega); omega
    subst he
    rw [if_pos (by omega), zero_mul, zero_add, Nat.mod_eq_of_lt h23, pow_zero, mul_one]
  · by_cases h24 : j = 2 ^ 24
    · subst h24
      rw [if_neg (by omega), show (e * 2 ^ 23 + 2 ^ 24) % 2 ^ 23 = 0 by omega, show (e * 2 ^ 23 + 2 ^ 24) / 2 ^ 23 - 1 = e + 1 by omega, pow_succ]
      ring
    · rw [if_neg (by omega), show (e * 2 ^ 23 + j) % 2 ^ 23 = j - 2^23 by omega, show (e * 2 ^ 23 + j) / 2 ^ 23 - 1 = e by omega]
      rw [Nat.add_sub_of_le (not_lt.1 h23)]

/-- `roundMag` is rounding to nearest, ties to even: no pattern is nearer to the quotient, and one as near
is chosen over another only if it is even (R111). -/
theorem F32.roundMag_nearest {num den : Nat} (hd : 0 < den) (hr : F32.roundMag num den < F32.infMag) (m : Nat) :
    |(F32.magUnits (F32.roundMag num den) * den : Int) - num| ≤ |(F32.magUnits m * den : Int) - num| ∧
    (|(F32.magUnits (F32.roundMag num den) * den : Int) - num| = |(F32.magUnits m * den : Int) - num| → m ≠ F32.roundMag num den → F32.roundMag num den % 2 = 0) := by
  rw [F32.roundMag_eq] at hr ⊢
  set e := F32.shift num den with he
  have hu := F32.shift_upper num hd
  have hl := fun h => F32.shift_lower (num := num) hd h
  rw [← he] at hu hl
  have hp : 0 < den * 2 ^ e := by positivity
  obtain ⟨s1, s2, s3, s4⟩ := F32.roundDiv_spec num hp
  have hk24 : F32.roundDiv num (den * 2 ^ e) ≤ 2 ^ 24 := by
    calc _ ≤ F32.roundDiv (2 ^ 24 * (den * 2 ^ e)) (den * 2 ^ e) := F32.roundDiv_mono hp hp (Nat.mul_le_mul_right _ hu.le)
      _ = _ := F32.roundDiv_exact _ hp
  have hk23 : 0 < e → 2 ^ 23 ≤ F32.roundDiv num (den * 2 ^ e) := fun h => by
    calc _ = F32.roundDiv (2 ^ 23 * (den * 2 ^ e)) (den * 2 ^ e) := (F32.roundDiv_exact _ hp).symm
      _ ≤ _ := F32.roundDiv_mono hp hp (Nat.mul_le_mul_right _ (hl h))
  generalize F32.roundDiv num (den * 2 ^ e) = k at *
  have hmin : min (e * 2 ^ 23 + k) F32.infMag = e * 2 ^ 23 + k := by omega
  rw [hmin]
  have hg := F32.magUnits_grid e k hk24 hk23
  have hpar : k % 2 = 0 → (e * 2 ^ 23 + k) % 2 = 0 := by omega
  generalize hP : den * 2 ^ e = P at *
  have hgP : F32.magUnits (e * 2 ^ 23 + k) * den = k * P := by rw [hg, ← hP]; ring
  have hgP' : (F32.magUnits (e * 2 ^ 23 + k) * den : Int) = k * P := by exact_mod_cast hgP
  rw [hgP']
  have t1 : (2 * k + 1) * P = 2 * (k * P) + P := by ring
  have t2 : 2 * k * P = 2 * (k * P) := by ring
  rcases Nat.lt_trichotomy m (e * 2 ^ 23 + k) with hm | hm | hm
  · by_cases hcase : 0 < e ∧ k = 2 ^ 23
    · have hlow := hl hcase.1
      have hmu : F32.magUnits m * den < k * P := by
        rw [← hgP]; exact Nat.mul_lt_mul_of_pos_right (F32.magUnits_lt_of_lt hm) hd
      rw [← hcase.2] at hlow
      have : (F32.magUnits m * den : Int) < k * P := by exact_mod_cast hmu
      have h2 : (k * P : Int) ≤ num := by exact_mod_cast hlow
      rw [abs_of_nonpos (by omega), abs_of_neg (by omega)]
      exact ⟨by omega, fun h => by omega⟩
    · have hk0 : 0 < k := by
        rcases Nat.eq_zero_or_pos e with h0 | h0
        · rw [h0] at hm; omega
        · have := hk23 h0; omega
      have hg1 : F32.magUnits (e * 2 ^ 23 + (k - 1)) = (k - 1) * 2 ^ e :=
        F32.magUnits_grid e (k - 1) (by omega) (fun h => by have := hk23 h; omega)
      have hmu : F32.magUnits m * den ≤ (k - 1) * P := by
        have := F32.magUnits_le_iff.2 (show m ≤ e * 2 ^ 23 + (k - 1) by omega)
        rw [hg1] at this
        calc _ ≤ (k - 1) * 2 ^ e * den := Nat.mul_le_mul_right _ this
          _ = (k - 1) * P := by rw [← hP]; ring
      have t3 : (k - 1) * P + P = k * P := by rw [← Nat.succ_mul]; congr 1; omega
      have c1 : ((F32.magUnits m * den : Nat) : Int) = F32.magUnits m * den := by push_cast; rfl
      have c2 : ((k * P : Nat) : Int) = k * P := by push_cast; rfl
      rw [← c1, ← c2]
      generalize F32.magUnits m * den = M at *
      generalize k * P = Q at *
      have hle : (M : Int) ≤ num := by omega
      rw [abs_of_nonpos (by omega : (M : Int) - num ≤ 0)]
      rcases abs_cases ((Q : Int) - num) with ⟨h, _⟩ | ⟨h, _⟩ <;> rw [h] <;>
        exact ⟨by omega, fun hh _ => hpar (s4 (by omega))⟩
  · subst hm
    rw [hgP']
    exact ⟨le_rfl, fun _ h => absurd rfl h⟩
  · have hg1 : k * 2 ^ e + 2 ^ e ≤ F32.magUnits (e * 2 ^ 23 + k + 1) := by
      by_cases h24 : k = 2 ^ 24
      · have := F32.magUnits_grid (e + 1) (2 ^ 23 + 1) (by norm_num) (by omega)
        rw [show (e + 1) * 2 ^ 23 + (2 ^ 23 + 1) = e * 2 ^ 23 + k + 1 by omega] at this
        rw [this, h24, pow_succ]
        have : 0 < 2 ^ e := by positivity
        omega
      · have := F32.magUnits_grid e (k + 1) (by omega) (fun h => by have := hk23 h; omega)
        rw [← add_assoc] at this
        rw [this, add_mul, one_mul]
    have hmu : k * P + P ≤ F32.magUnits m * den := by
      calc k * P + P = (k * 2 ^ e + 2 ^ e) * den := by rw [← hP]; ring
        _ ≤ F32.magUnits (e * 2 ^ 23 + k + 1) * den := Nat.mul_le_mul_right _ hg1
        _ ≤ _ := Nat.mul_le_mul_right _ (F32.magUnits_le_iff.2 hm)
    have c1 : ((F32.magUnits m * den : Nat) : Int) = F32.magUnits m * den := by push_cast; rfl
    have c2 : ((k * P : Nat) : Int) = k * P := by push_cast; rfl
    rw [← c1, ← c2]
    generalize F32.magUnits m * den = M at *
    generalize k * P = Q at *
    have hle : (num : Int) ≤ M := by omega
    rw [abs_of_nonneg (by omega : 0 ≤ (M : Int) - num)]
    rcases abs_cases ((Q : Int) - num) with ⟨h, _⟩ | ⟨h, _⟩ <;> rw [h] <;>
      exact ⟨by omega, fun hh _ => hpar (s3 (by omega))⟩

/-! Sign and magnitude bits of a product and of a quotient of finite operands -/

theorem F32.units_def (w : Word) : F32.units w = F32.magUnits (F32.mag w) := rfl

theorem F32.isZero_def (w : Word) : F32.isZero w = decide (F32.mag w = 0) := rfl

theorem F32.mul_bits {n : Nat} {a b : Word} (ha : F32.isFinite a = true) (hb : F32.isFinite b = true) :
    F32.mag (F32.mul n a b) = F32.roundMag (F32.units a * F32.units b) (2 ^ 149) ∧
    F32.neg (F32.mul n a b) = (F32.neg a != F32.neg b) := by
  rw [F32.mul_of_finite ha hb]
  exact ⟨F32.mag_ofMag (F32.roundMag_lt _ _), F32.neg_ofMag (F32.roundMag_lt _ _)⟩

theorem F32.div_bits {n : Nat} {a b : Word} (ha : F32.isFinite a = true) (hb : F32.isFinite b = true)
    (h0 : F32.isZero b = false) :
    F32.mag (F32.div n a b) = F32.roundMag (F32.units a * 2 ^ 149) (F32.units b) ∧
    F32.neg (F32.div n a b) = (F32.neg a != F32.neg b) := by
  rw [F32.div_of_finite ha hb h0]
  exact ⟨F32.mag_ofMag (F32.roundMag_lt _ _), F32.neg_ofMag (F32.roundMag_lt _ _)⟩

end Sys2Proof.Machine
end

