-- ==== Sys2Proof/Laws/Coef.lean ====
section
/-! SUPPORT. The enclosures behind COEF are enclosures, at every precision: `Coef.piFloor` is below π by
less than two units (Machin's formula), the Taylor polynomials have enough terms, and the cosine and
sine of the angle lie within `Coef.slack` units of what `Coef.cosSin` computes. -/

namespace Sys2Proof.Machine

/-- The unit of the enclosure of precision `p` is one over this. -/
noncomputable def Coef.scale (p : Nat) : ℝ := 2 ^ p

theorem Coef.scale_pos (p : Nat) : 0 < Coef.scale p := by rw [Coef.scale]; positivity

theorem Coef.scale_sq (p : Nat) : (2 : ℝ) ^ (2 * p) = Coef.scale p ^ 2 := by
  rw [Coef.scale, ← pow_mul, mul_comm]

/-! π -/

/-- The floor of a fraction is below the fraction by less than a unit. -/
theorem Coef.floor_near (num : Int) {den : Nat} (hd : 0 < den) :
    ((num / (den : Int) : Int) : ℝ) ≤ (num : ℝ) / den ∧ (num : ℝ) / den < ((num / (den : Int) : Int) : ℝ) + 1 := by
  have hdr : (0 : ℝ) < den := by exact_mod_cast hd
  have hdi : (0 : Int) < den := by exact_mod_cast hd
  have h1 := Int.ediv_mul_le num hdi.ne'
  have h2 := Int.lt_ediv_add_one_mul_self num hdi
  constructor
  · rw [le_div_iff₀ hdr]; exact_mod_cast h1
  · rw [div_lt_iff₀ hdr]; exact_mod_cast h2

/-- The first `n` terms of the arctangent series at `x`. -/
noncomputable def Coef.arctanSum (x : ℝ) (n : Nat) : ℝ :=
  ∑ i ∈ Finset.range n, (-1 : ℝ) ^ i * (x ^ (2 * i + 1) / ((2 * i + 1 : ℕ) : ℝ))

theorem Coef.arctan_bounds {x : ℝ} (hx0 : 0 ≤ x) (hx1 : x < 1) (k : Nat) :
    Coef.arctanSum x (2 * k) ≤ Real.arctan x ∧ Real.arctan x ≤ Coef.arctanSum x (2 * k + 1) := by
  have hs := (Real.hasSum_arctan (x := x)
    (by rw [Real.norm_eq_abs, abs_of_nonneg hx0]; exact hx1)).tendsto_sum_nat
  have ha : Antitone fun i : ℕ => x ^ (2 * i + 1) / ((2 * i + 1 : ℕ) : ℝ) := by
    refine antitone_nat_of_succ_le fun n => ?_
    refine div_le_div₀ (by positivity) ?_ (by positivity) ?_
    · exact pow_le_pow_of_le_one hx0 hx1.le (by omega)
    · exact_mod_cast (by omega)
  have hs' : Filter.Tendsto (Coef.arctanSum x) Filter.atTop (nhds (Real.arctan x)) := by
    refine hs.congr fun n => Finset.sum_congr rfl fun i _ => ?_
    rw [mul_div_assoc]
  exact ⟨ha.alternating_series_le_tendsto hs' k, ha.tendsto_le_alternating_series hs' k⟩

theorem Coef.arctan_eq {xx : Nat} (hx : 0 < xx) (k j : Nat) :
    0 < (Coef.arctan xx k j).2 ∧
    ((Coef.arctan xx k j).1 : ℝ) / ((Coef.arctan xx k j).2 : ℝ) =
      ∑ i ∈ Finset.range (k + 1), (-1 : ℝ) ^ i * (1 / (((2 * (j + i) + 1 : ℕ) : ℝ) * (xx : ℝ) ^ i)) := by
  induction k generalizing j with
  | zero => exact ⟨by simp [Coef.arctan], by simp [Coef.arctan]⟩
  | succ k ih =>
    obtain ⟨i1, i2⟩ := ih (j + 1)
    have hrest : ∑ i ∈ Finset.range (k + 1), (-1 : ℝ) ^ (i + 1) *
        (1 / (((2 * (j + (i + 1)) + 1 : ℕ) : ℝ) * (xx : ℝ) ^ (i + 1))) =
        -(1 / (xx : ℝ)) * (((Coef.arctan xx k (j + 1)).1 : ℝ) / ((Coef.arctan xx k (j + 1)).2 : ℝ)) := by
      rw [i2, Finset.mul_sum]
      refine Finset.sum_congr rfl fun i _ => ?_
      rw [show j + (i + 1) = j + 1 + i by ring, pow_succ (-1 : ℝ), pow_succ (xx : ℝ)]
      have h1 : (((2 * (j + 1 + i) + 1 : ℕ)) : ℝ) ≠ 0 := by positivity
      have h2 : (xx : ℝ) ≠ 0 := by positivity
      field_simp
    rw [Finset.sum_range_succ', hrest, Coef.arctan]
    generalize (Coef.arctan xx k (j + 1)).1 = a at *
    generalize (Coef.arctan xx k (j + 1)).2 = b at *
    refine ⟨Nat.mul_pos i1 (Nat.mul_pos (by omega) hx), ?_⟩
    have hb : (b : ℝ) ≠ 0 := by positivity
    have hxr : (xx : ℝ) ≠ 0 := by positivity
    have hj : (2 * (j : ℝ) + 1) ≠ 0 := by positivity
    push_cast
    simp only [pow_zero, add_zero, mul_one, one_mul]
    field_simp
    ring

theorem Coef.arctan_frac {x : Nat} (hx : 0 < x) (k : Nat) :
    ((Coef.arctan (x * x) k 0).1 : ℝ) / ((x : ℝ) * ((Coef.arctan (x * x) k 0).2 : ℝ)) =
      Coef.arctanSum (1 / (x : ℝ)) (k + 1) := by
  obtain ⟨h, e⟩ := Coef.arctan_eq (Nat.mul_pos hx hx) k 0
  have hxr : (x : ℝ) ≠ 0 := by positivity
  rw [mul_comm (x : ℝ), ← div_div, e, Coef.arctanSum, Finset.sum_div]
  refine Finset.sum_congr rfl fun i _ => ?_
  have h1 : (((2 * (0 + i) + 1 : ℕ)) : ℝ) ≠ 0 := by positivity
  rw [Nat.zero_add] at *
  push_cast
  rw [div_pow, one_pow]
  have h2 : (2 * (i : ℝ) + 1) ≠ 0 := by positivity
  field_simp
  ring

theorem Coef.arctanSum_succ (x : ℝ) (n : Nat) : Coef.arctanSum x (n + 1) =
    Coef.arctanSum x n + (-1) ^ n * (x ^ (2 * n + 1) / ((2 * n + 1 : ℕ) : ℝ)) := by
  rw [Coef.arctanSum, Finset.sum_range_succ, ← Coef.arctanSum]

/-- `Coef.piFloor` is π from below, by less than two units. -/
theorem Coef.pi_bounds {p : Nat} (hp : 8 ≤ p) :
    (Coef.piFloor p : ℝ) ≤ Real.pi * Coef.scale p ∧
    Real.pi * Coef.scale p ≤ (Coef.piFloor p : ℝ) + 2 := by
  have hP := Coef.scale_pos p
  have a := Coef.arctan_bounds (x := 1 / 5) (by norm_num) (by norm_num) (p / 8 + 1)
  have b := Coef.arctan_bounds (x := 1 / 239) (by norm_num) (by norm_num) (p / 8)
  have m := Real.four_mul_arctan_inv_5_sub_arctan_inv_239
  rw [← one_div, ← one_div] at m
  have f5 := Coef.arctan_frac (x := 5) (by norm_num) (p / 8 * 2 + 1)
  have f239 := Coef.arctan_frac (x := 239) (by norm_num) (p / 8 * 2)
  have d5 := (Coef.arctan_eq (xx := 25) (by norm_num) (p / 8 * 2 + 1) 0).1
  have d239 := (Coef.arctan_eq (xx := 57121) (by norm_num) (p / 8 * 2) 0).1
  rw [show p / 8 * 2 + 1 + 1 = 2 * (p / 8 + 1) by ring] at f5
  rw [show p / 8 * 2 + 1 = 2 * (p / 8) + 1 by ring] at f239
  rw [Coef.arctanSum_succ, show (-1 : ℝ) ^ (2 * (p / 8 + 1)) = 1 by rw [pow_mul]; norm_num] at a
  have e239 := Coef.arctanSum_succ (1 / 239) (2 * (p / 8))
  rw [show (-1 : ℝ) ^ (2 * (p / 8)) = 1 by rw [pow_mul]; norm_num] at e239
  norm_num only [Nat.cast_ofNat] at f5 f239
  -- the terms left out
  have hm : 1 ≤ p / 8 := by omega
  have hscale : Coef.scale p ≤ 128 * 256 ^ (p / 8) := by
    rw [Coef.scale, show (128 : ℝ) * 256 ^ (p / 8) = 2 ^ (7 + 8 * (p / 8)) by
      rw [pow_add, pow_mul]; norm_num]
    exact pow_le_pow_right₀ (by norm_num) (by omega)
  have t5 : (1 / 5 : ℝ) ^ (2 * (2 * (p / 8 + 1)) + 1) / ((2 * (2 * (p / 8 + 1)) + 1 : ℕ) : ℝ) *
      Coef.scale p ≤ 128 / 3125 := by
    have h1 : (1 / 5 : ℝ) ^ (2 * (2 * (p / 8 + 1)) + 1) / ((2 * (2 * (p / 8 + 1)) + 1 : ℕ) : ℝ) ≤
        (1 / 5 : ℝ) ^ (2 * (2 * (p / 8 + 1)) + 1) :=
      div_le_self (by positivity) (by exact_mod_cast (by omega))
    refine (mul_le_mul h1 hscale hP.le (by positivity)).trans ?_
    rw [show 2 * (2 * (p / 8 + 1)) + 1 = 4 * (p / 8) + 5 by ring, pow_add, pow_mul]
    have : ((1 / 5 : ℝ) ^ 4) ^ (p / 8) * 256 ^ (p / 8) ≤ 1 := by
      rw [← mul_pow]; exact pow_le_one₀ (by norm_num) (by norm_num)
    nlinarith
  have t239 : (1 / 239 : ℝ) ^ (2 * (2 * (p / 8)) + 1) / ((2 * (2 * (p / 8)) + 1 : ℕ) : ℝ) *
      Coef.scale p ≤ 1 / 100 := by
    have h1 : (1 / 239 : ℝ) ^ (2 * (2 * (p / 8)) + 1) / ((2 * (2 * (p / 8)) + 1 : ℕ) : ℝ) ≤
        (1 / 239 : ℝ) ^ (2 * (2 * (p / 8)) + 1) :=
      div_le_self (by positivity) (by exact_mod_cast (by omega))
    refine (mul_le_mul h1 hscale hP.le (by positivity)).trans ?_
    rw [show 2 * (2 * (p / 8)) + 1 = 4 * (p / 8) + 1 by ring, pow_add, pow_mul]
    have h2 : ((1 / 239 : ℝ) ^ 4) ^ (p / 8) * 256 ^ (p / 8) ≤ (1 / 100000) ^ 1 := by
      rw [← mul_pow]
      refine (pow_le_pow_left₀ (by norm_num) (show (1 / 239 : ℝ) ^ 4 * 256 ≤ 1 / 100000 by norm_num)
        _).trans ?_
      exact pow_le_pow_of_le_one (by norm_num) (by norm_num) hm
    nlinarith
  -- the floor
  have hfl := Coef.floor_near (2 ^ p * (16 * (Coef.arctan 25 (p / 8 * 2 + 1) 0).1 *
      (239 * (Coef.arctan 57121 (p / 8 * 2) 0).2 : Nat) - 4 * (Coef.arctan 57121 (p / 8 * 2) 0).1 *
      (5 * (Coef.arctan 25 (p / 8 * 2 + 1) 0).2 : Nat)))
    (den := 5 * (Coef.arctan 25 (p / 8 * 2 + 1) 0).2 * (239 * (Coef.arctan 57121 (p / 8 * 2) 0).2))
    (by positivity)
  rw [Coef.piFloor]
  generalize Coef.arctan 25 (p / 8 * 2 + 1) 0 = u at *
  generalize Coef.arctan 57121 (p / 8 * 2) 0 = v at *
  have hq : ((2 ^ p * (16 * u.1 * (239 * v.2 : Nat) - 4 * v.1 * (5 * u.2 : Nat)) : Int) : ℝ) /
      ((5 * u.2 * (239 * v.2) : Nat) : ℝ) =
      Coef.scale p * (16 * Coef.arctanSum (1 / 5) (2 * (p / 8 + 1)) -
        4 * Coef.arctanSum (1 / 239) (2 * (p / 8) + 1)) := by
    rw [← f5, ← f239, Coef.scale]
    have h5 : (u.2 : ℝ) ≠ 0 := by positivity
    have h239 : (v.2 : ℝ) ≠ 0 := by positivity
    push_cast
    field_simp
  rw [hq] at hfl
  generalize (2 ^ p * (16 * u.1 * (239 * v.2 : Nat) - 4 * v.1 * (5 * u.2 : Nat)) /
    ((5 * u.2 * (239 * v.2) : Nat) : Int) : Int) = z at *
  generalize Coef.arctanSum (1 / 5) (2 * (p / 8 + 1)) = L5 at *
  generalize Coef.arctanSum (1 / 239) (2 * (p / 8) + 1) = U239 at *
  generalize Coef.arctanSum (1 / 239) (2 * (p / 8)) = L239 at *
  generalize (1 / 5 : ℝ) ^ (2 * (2 * (p / 8 + 1)) + 1) / ((2 * (2 * (p / 8 + 1)) + 1 : ℕ) : ℝ) = T5 at *
  generalize (1 / 239 : ℝ) ^ (2 * (2 * (p / 8)) + 1) / ((2 * (2 * (p / 8)) + 1 : ℕ) : ℝ) = T239 at *
  have hlo : 16 * L5 - 4 * U239 ≤ Real.pi := by linarith [a.1, b.2]
  have hhi : Real.pi ≤ 16 * L5 - 4 * U239 + 16 * T5 + 4 * T239 := by linarith [a.2, b.1]
  have hlo' := mul_le_mul_of_nonneg_right hlo hP.le
  have hhi' := mul_le_mul_of_nonneg_right hhi hP.le
  have hz : Real.pi * Coef.scale p ≤ z + 2 := by nlinarith [hfl.2]
  have hz0 : (0 : ℝ) ≤ z := by
    have h1 : (8 : ℝ) ≤ Coef.scale p := by
      rw [Coef.scale]
      exact le_trans (by norm_num : (8 : ℝ) ≤ 2 ^ 8) (pow_le_pow_right₀ (by norm_num) hp)
    nlinarith [Real.pi_gt_three]
  have hzi : (0 : Int) ≤ z := by exact_mod_cast hz0
  have hcast : ((z.toNat : ℕ) : ℝ) = z := by exact_mod_cast Int.toNat_of_nonneg hzi
  rw [hcast]
  exact ⟨by nlinarith [hfl.1], hz⟩

/-! The Taylor polynomials -/

/-- The real number `Coef.taylor` is a fraction for. -/
noncomputable def Coef.taylorReal (y : ℝ) (off : Nat) : (k j : Nat) → ℝ
  | 0, _ => 1
  | k + 1, j =>
    1 - y / (((2 * j - 1 + off) * (2 * j + off) : Nat) : ℝ) * Coef.taylorReal y off k (j + 1)

theorem Coef.taylor_eq (p xx off k j : Nat) (hj : 1 ≤ j) :
    0 < (Coef.taylor p xx off k j).2 ∧
    ((Coef.taylor p xx off k j).1 : ℝ) / ((Coef.taylor p xx off k j).2 : ℝ) =
      Coef.taylorReal ((xx : ℝ) / 2 ^ (2 * p)) off k j := by
  induction k generalizing j with
  | zero => exact ⟨Nat.one_pos, by simp [Coef.taylor, Coef.taylorReal]⟩
  | succ k ih =>
    obtain ⟨i1, i2⟩ := ih (j + 1) (by omega)
    rw [Coef.taylorReal, ← i2, Coef.taylor]
    have hc : 0 < (2 * j - 1 + off) * (2 * j + off) := Nat.mul_pos (by omega) (by omega)
    generalize (Coef.taylor p xx off k (j + 1)).1 = a at *
    generalize (Coef.taylor p xx off k (j + 1)).2 = b at *
    generalize (2 * j - 1 + off) * (2 * j + off) = c at *
    have hp : 0 < 2 ^ (2 * p) := by positivity
    have hpr : ((2 ^ (2 * p) : ℕ) : ℝ) = (2 : ℝ) ^ (2 * p) := by push_cast; rfl
    rw [← hpr]
    generalize 2 ^ (2 * p) = r at *
    refine ⟨Nat.mul_pos i1 (Nat.mul_pos hc hp), ?_⟩
    have hbr : (b : ℝ) ≠ 0 := by positivity
    have hcr : (c : ℝ) ≠ 0 := by positivity
    have hppr : (r : ℝ) ≠ 0 := by positivity
    push_cast
    field_simp

theorem Coef.taylorReal_sum (y : ℝ) (off k j : Nat) :
    Coef.taylorReal y off k (j + 1) =
      ∑ i ∈ Finset.range (k + 1), (-1 : ℝ) ^ i * y ^ i *
        (((2 * j + off).factorial : ℝ) / ((2 * (j + i) + off).factorial : ℝ)) := by
  induction k generalizing j with
  | zero =>
    have : ((2 * j + off).factorial : ℝ) ≠ 0 := by positivity
    simp [Coef.taylorReal, this]
  | succ k ih =>
    rw [Finset.sum_range_succ', Coef.taylorReal, ih, sub_eq_add_neg, add_comm, Finset.mul_sum]
    congr 1
    · rw [← Finset.sum_neg_distrib]
      refine Finset.sum_congr rfl fun i _ => ?_
      have h1 : (2 * (j + 1) + off).factorial = (2 * (j + 1) - 1 + off) * (2 * (j + 1) + off) * (2 * j + off).factorial := by
        rw [show 2 * (j + 1) + off = (2 * j + off + 1) + 1 by ring, Nat.factorial_succ, Nat.factorial_succ,
          show 2 * (j + 1) - 1 + off = 2 * j + off + 1 by omega]
        ring
      have h2 : 2 * (j + 1 + i) + off = 2 * (j + (i + 1)) + off := by ring
      rw [h1, h2]
      have h3 : (((2 * (j + 1) - 1 + off) * (2 * (j + 1) + off) : ℕ) : ℝ) ≠ 0 := by
        have : 0 < (2 * (j + 1) - 1 + off) * (2 * (j + 1) + off) := Nat.mul_pos (by omega) (by omega)
        positivity
      have h4 : ((2 * (j + (i + 1)) + off).factorial : ℝ) ≠ 0 := by positivity
      rw [Nat.cast_mul _ (Nat.factorial _)]
      generalize ((((2 * (j + 1) - 1 + off) * (2 * (j + 1) + off)) : ℕ) : ℝ) = c at *
      generalize ((2 * (j + (i + 1)) + off).factorial : ℝ) = d at *
      field_simp
      ring
    · have : ((2 * j + off).factorial : ℝ) ≠ 0 := by positivity
      simp [this]

/-- The first `2 n` terms of the exponential series at `i x` are the first `n` of cosine and sine. -/
theorem Coef.exp_partial (x : ℝ) (n : Nat) :
    ∑ m ∈ Finset.range (2 * n), ((x : ℂ) * Complex.I) ^ m / (m.factorial : ℂ) =
      ((∑ i ∈ Finset.range n, (-1 : ℝ) ^ i * x ^ (2 * i) / ((2 * i).factorial : ℝ) : ℝ) : ℂ) +
      ((∑ i ∈ Finset.range n, (-1 : ℝ) ^ i * x ^ (2 * i + 1) / ((2 * i + 1).factorial : ℝ) : ℝ) : ℂ)
        * Complex.I := by
  induction n with
  | zero => simp
  | succ n ih =>
    rw [show 2 * (n + 1) = 2 * n + 1 + 1 by ring, Finset.sum_range_succ, Finset.sum_range_succ, ih,
      Finset.sum_range_succ, Finset.sum_range_succ]
    have hI : Complex.I ^ (2 * n) = (-1) ^ n := by rw [pow_mul, Complex.I_sq]
    rw [mul_pow, mul_pow, pow_succ Complex.I, hI]
    push_cast
    ring

theorem Coef.cos_sin_partial {x : ℝ} (h0 : 0 ≤ x) {n : Nat} (hx : x / ((2 * n).succ : ℝ) ≤ 1 / 2) :
    |Real.cos x - ∑ i ∈ Finset.range n, (-1 : ℝ) ^ i * x ^ (2 * i) / ((2 * i).factorial : ℝ)| ≤
      x ^ (2 * n) / ((2 * n).factorial : ℝ) * 2 ∧
    |Real.sin x - ∑ i ∈ Finset.range n, (-1 : ℝ) ^ i * x ^ (2 * i + 1) / ((2 * i + 1).factorial : ℝ)| ≤
      x ^ (2 * n) / ((2 * n).factorial : ℝ) * 2 := by
  have hn : ‖(x : ℂ) * Complex.I‖ = x := by simp [abs_of_nonneg h0]
  have hb := Complex.exp_bound' (x := (x : ℂ) * Complex.I) (n := 2 * n) (by rw [hn]; exact hx)
  rw [hn, Coef.exp_partial, Complex.exp_mul_I] at hb
  generalize ∑ i ∈ Finset.range n, (-1 : ℝ) ^ i * x ^ (2 * i) / ((2 * i).factorial : ℝ) = A at *
  generalize ∑ i ∈ Finset.range n, (-1 : ℝ) ^ i * x ^ (2 * i + 1) / ((2 * i + 1).factorial : ℝ) = B at *
  have hz : Complex.cos x + Complex.sin x * Complex.I - ((A : ℂ) + (B : ℂ) * Complex.I) =
      ((Real.cos x - A : ℝ) : ℂ) + ((Real.sin x - B : ℝ) : ℂ) * Complex.I := by
    push_cast; ring
  rw [hz] at hb
  constructor
  · refine le_trans (le_of_eq ?_) (le_trans (Complex.abs_re_le_norm _) hb)
    congr 1
    simp only [Complex.add_re, Complex.ofReal_re, Complex.mul_re, Complex.ofReal_im, Complex.I_re, Complex.I_im]
    ring
  · refine le_trans (le_of_eq ?_) (le_trans (Complex.abs_im_le_norm _) hb)
    congr 1
    simp only [Complex.add_im, Complex.ofReal_re, Complex.mul_im, Complex.ofReal_im, Complex.I_re, Complex.I_im]
    ring

/-- How small the remainder after `n` terms is, for an angle up to 3.2. -/
theorem Coef.remainder_small {x : ℝ} (h0 : 0 ≤ x) (hx : x ≤ 16 / 5) {n : Nat} (hn : 70 ≤ n) :
    x ^ (2 * n) / ((2 * n).factorial : ℝ) * 2 * 2 ^ (8 * n) ≤ 2 ^ 21 := by
  have h1 : x ^ (2 * n) ≤ (16 / 5) ^ (2 * n) := pow_le_pow_left₀ h0 hx _
  have h2 : (16 / 5 : ℝ) ^ (2 * n) / ((2 * n).factorial : ℝ) * 2 * 2 ^ (8 * n) ≤ 2 ^ 21 := by
    induction n, hn using Nat.le_induction with
    | base =>
      have h : ((16 / 5 : ℚ)) ^ (2 * 70) / ((2 * 70).factorial : ℚ) * 2 * 2 ^ (8 * 70) ≤ 2 ^ 21 := by
        decide +kernel
      have h3 := (Rat.cast_le (K := ℝ)).2 h
      push_cast at h3
      exact h3
    | succ n hn ih =>
      have ih := ih (pow_le_pow_left₀ h0 hx _)
      rw [show 2 * (n + 1) = 2 * n + 1 + 1 by ring, Nat.factorial_succ, Nat.factorial_succ,
        show 8 * (n + 1) = 8 * n + 8 by ring, pow_succ, pow_succ, pow_add]
      push_cast
      have hn' : (70 : ℝ) ≤ n := by exact_mod_cast hn
      have hf : (0 : ℝ) < ((2 * n).factorial : ℝ) := by positivity
      have e : (16 / 5 : ℝ) ^ (2 * n) * (16 / 5) * (16 / 5) /
          ((2 * (n : ℝ) + 1 + 1) * ((2 * (n : ℝ) + 1) * ((2 * n).factorial : ℝ))) * 2 *
          (2 ^ (8 * n) * 2 ^ 8) =
          ((16 / 5 : ℝ) ^ (2 * n) / ((2 * n).factorial : ℝ) * 2 * 2 ^ (8 * n)) *
          (65536 / 25 / ((2 * (n : ℝ) + 1 + 1) * (2 * (n : ℝ) + 1))) := by
        field_simp
        ring
      rw [e]
      refine (mul_le_mul_of_nonneg_right ih (by positivity)).trans ?_
      refine mul_le_of_le_one_right (by positivity) ?_
      rw [div_le_one (by positivity)]
      nlinarith
  refine le_trans ?_ h2
  gcongr

theorem Coef.remainder_units {p : Nat} (hp : 512 ≤ p) {x : ℝ} (h0 : 0 ≤ x) (hx : x ≤ 16 / 5) :
    x ^ (2 * (Coef.levels p + 1)) / ((2 * (Coef.levels p + 1)).factorial : ℝ) * 2 * Coef.scale p ≤
      1 / 1000000 := by
  have h := Coef.remainder_small h0 hx (n := Coef.levels p + 1) (by rw [Coef.levels]; omega)
  have hs : Coef.scale p * 2 ^ 41 ≤ 2 ^ (8 * (Coef.levels p + 1)) := by
    rw [Coef.scale, ← pow_add]
    exact pow_le_pow_right₀ (by norm_num) (by rw [Coef.levels]; omega)
  have hr : 0 ≤ x ^ (2 * (Coef.levels p + 1)) / ((2 * (Coef.levels p + 1)).factorial : ℝ) * 2 := by
    positivity
  generalize x ^ (2 * (Coef.levels p + 1)) / ((2 * (Coef.levels p + 1)).factorial : ℝ) * 2 = R at *
  have h2 := (mul_le_mul_of_nonneg_left hs hr).trans h
  have h3 : R * Coef.scale p * 2 ^ 41 ≤ 2 ^ 21 := by linarith
  norm_num at h3
  linarith

theorem Coef.taylor_scaled (p x off : Nat) :
    0 < (Coef.taylor p (x * x) off (Coef.levels p) 1).2 ∧
    ((Coef.taylor p (x * x) off (Coef.levels p) 1).1 : ℝ) / ((Coef.taylor p (x * x) off (Coef.levels p) 1).2 : ℝ) =
      ∑ i ∈ Finset.range (Coef.levels p + 1), (-1 : ℝ) ^ i * ((x : ℝ) / Coef.scale p) ^ (2 * i) *
        ((off.factorial : ℝ) / ((2 * i + off).factorial : ℝ)) := by
  obtain ⟨d, e⟩ := Coef.taylor_eq p (x * x) off (Coef.levels p) 1 le_rfl
  refine ⟨d, e.trans ?_⟩
  have hy : (((x * x : ℕ) : ℝ) / 2 ^ (2 * p)) = ((x : ℝ) / Coef.scale p) ^ 2 := by
    rw [Coef.scale_sq p, div_pow]; push_cast; ring
  rw [hy]
  refine (Coef.taylorReal_sum (((x : ℝ) / Coef.scale p) ^ 2) off (Coef.levels p) 0).trans ?_
  refine Finset.sum_congr rfl fun i _ => ?_
  rw [← pow_mul, Nat.mul_zero, Nat.zero_add, Nat.zero_add]

/-- `Coef.cosUnits` is below the cosine by less than a unit, and not above it, up to a millionth. -/
theorem Coef.cosUnits_near {p : Nat} (hp : 512 ≤ p) {x : Nat} (hx : (x : ℝ) / Coef.scale p ≤ 16 / 5) :
    |(Coef.cosUnits p x : ℝ) - Coef.scale p * Real.cos ((x : ℝ) / Coef.scale p)| ≤ 3 / 2 := by
  have hP := Coef.scale_pos p
  have h0 : (0 : ℝ) ≤ (x : ℝ) / Coef.scale p := by positivity
  obtain ⟨d, e⟩ := Coef.taylor_scaled p x 0
  have hc := (Coef.cos_sin_partial h0 (n := Coef.levels p + 1) (by
    have : (8 : ℝ) ≤ ((2 * (Coef.levels p + 1)).succ : ℝ) := by
      rw [Coef.levels]; exact_mod_cast (by omega)
    rw [div_le_iff₀ (by linarith)]; linarith)).1
  have hr := Coef.remainder_units hp h0 hx
  have hf := Coef.floor_near ((Coef.taylor p (x * x) 0 (Coef.levels p) 1).1 * 2 ^ p) d
  have hsum : ∑ i ∈ Finset.range (Coef.levels p + 1), (-1 : ℝ) ^ i * ((x : ℝ) / Coef.scale p) ^ (2 * i) / ((2 * i).factorial : ℝ) =
      ((Coef.taylor p (x * x) 0 (Coef.levels p) 1).1 : ℝ) / ((Coef.taylor p (x * x) 0 (Coef.levels p) 1).2 : ℝ) := by
    rw [e]
    refine Finset.sum_congr rfl fun i _ => ?_
    rw [Nat.add_zero, Nat.factorial_zero, Nat.cast_one, mul_one_div]
  rw [hsum] at hc
  rw [Coef.cosUnits]
  have hcast : (((Coef.taylor p (x * x) 0 (Coef.levels p) 1).1 * 2 ^ p : Int) : ℝ) / ((Coef.taylor p (x * x) 0 (Coef.levels p) 1).2 : ℝ) =
      Coef.scale p * (((Coef.taylor p (x * x) 0 (Coef.levels p) 1).1 : ℝ) / ((Coef.taylor p (x * x) 0 (Coef.levels p) 1).2 : ℝ)) := by
    rw [Coef.scale]; push_cast; ring
  rw [hcast] at hf
  generalize ((Coef.taylor p (x * x) 0 (Coef.levels p) 1).1 * 2 ^ p / ((Coef.taylor p (x * x) 0 (Coef.levels p) 1).2 : Int) : Int) = q at *
  generalize ((Coef.taylor p (x * x) 0 (Coef.levels p) 1).1 : ℝ) / ((Coef.taylor p (x * x) 0 (Coef.levels p) 1).2 : ℝ) = T at *
  generalize Real.cos ((x : ℝ) / Coef.scale p) = C at *
  have hCT := mul_le_mul_of_nonneg_left hc hP.le
  rw [mul_comm (Coef.scale p) (_ * 2)] at hCT
  replace hCT := hCT.trans hr
  have habs : |Coef.scale p * (C - T)| = Coef.scale p * |C - T| := by rw [abs_mul, abs_of_pos hP]
  rw [← habs, mul_sub, abs_le] at hCT
  rw [abs_le]
  constructor <;> linarith [hCT.1, hCT.2, hf.1, hf.2]

/-- `Coef.sinUnits` likewise. -/
theorem Coef.sinUnits_near {p : Nat} (hp : 512 ≤ p) {x : Nat} (hx : (x : ℝ) / Coef.scale p ≤ 16 / 5) :
    |(Coef.sinUnits p x : ℝ) - Coef.scale p * Real.sin ((x : ℝ) / Coef.scale p)| ≤ 3 / 2 := by
  have hP := Coef.scale_pos p
  have h0 : (0 : ℝ) ≤ (x : ℝ) / Coef.scale p := by positivity
  obtain ⟨d, e⟩ := Coef.taylor_scaled p x 1
  have hc := (Coef.cos_sin_partial h0 (n := Coef.levels p + 1) (by
    have : (8 : ℝ) ≤ ((2 * (Coef.levels p + 1)).succ : ℝ) := by
      rw [Coef.levels]; exact_mod_cast (by omega)
    rw [div_le_iff₀ (by linarith)]; linarith)).2
  have hr := Coef.remainder_units hp h0 hx
  have hf := Coef.floor_near ((Coef.taylor p (x * x) 1 (Coef.levels p) 1).1 * x) d
  have hsum : ∑ i ∈ Finset.range (Coef.levels p + 1), (-1 : ℝ) ^ i * ((x : ℝ) / Coef.scale p) ^ (2 * i + 1) / ((2 * i + 1).factorial : ℝ) =
      ((x : ℝ) / Coef.scale p) * (((Coef.taylor p (x * x) 1 (Coef.levels p) 1).1 : ℝ) / ((Coef.taylor p (x * x) 1 (Coef.levels p) 1).2 : ℝ)) := by
    rw [e, Finset.mul_sum]
    refine Finset.sum_congr rfl fun i _ => ?_
    rw [Nat.factorial_one, Nat.cast_one, pow_succ]
    ring
  rw [hsum] at hc
  rw [Coef.sinUnits]
  have hcast : (((Coef.taylor p (x * x) 1 (Coef.levels p) 1).1 * (x : Int) : Int) : ℝ) / ((Coef.taylor p (x * x) 1 (Coef.levels p) 1).2 : ℝ) =
      Coef.scale p * (((x : ℝ) / Coef.scale p) * (((Coef.taylor p (x * x) 1 (Coef.levels p) 1).1 : ℝ) / ((Coef.taylor p (x * x) 1 (Coef.levels p) 1).2 : ℝ))) := by
    push_cast
    have := hP.ne'
    field_simp
  rw [hcast] at hf
  generalize ((Coef.taylor p (x * x) 1 (Coef.levels p) 1).1 * (x : Int) / ((Coef.taylor p (x * x) 1 (Coef.levels p) 1).2 : Int) : Int) = q at *
  generalize ((x : ℝ) / Coef.scale p) * (((Coef.taylor p (x * x) 1 (Coef.levels p) 1).1 : ℝ) / ((Coef.taylor p (x * x) 1 (Coef.levels p) 1).2 : ℝ)) = T at *
  generalize Real.sin ((x : ℝ) / Coef.scale p) = C at *
  have hCT := mul_le_mul_of_nonneg_left hc hP.le
  rw [mul_comm (Coef.scale p) (_ * 2)] at hCT
  replace hCT := hCT.trans hr
  have habs : |Coef.scale p * (C - T)| = Coef.scale p * |C - T| := by rw [abs_mul, abs_of_pos hP]
  rw [← habs, mul_sub, abs_le] at hCT
  rw [abs_le]
  constructor <;> linarith [hCT.1, hCT.2, hf.1, hf.2]

/-! The enclosure -/

/-- The computed angle is below `2·π·num/den` by less than three units. -/
theorem Coef.angle_near {p : Nat} (hp : 8 ≤ p) {num den : Nat} (hd : 0 < den) (h : 2 * num ≤ den) :
    (Coef.angle p num den : ℝ) ≤ Coef.scale p * (2 * Real.pi * num / den) ∧
    Coef.scale p * (2 * Real.pi * num / den) ≤ Coef.angle p num den + 3 := by
  obtain ⟨p1, p2⟩ := Coef.pi_bounds hp
  have hdr : (0 : ℝ) < den := by exact_mod_cast hd
  have a1 : (Coef.angle p num den : ℝ) * den ≤ 2 * Coef.piFloor p * num := by
    exact_mod_cast Nat.div_mul_le_self (2 * Coef.piFloor p * num) den
  have a2 : (2 * Coef.piFloor p * num : ℝ) ≤ (Coef.angle p num den + 1) * den := by
    exact_mod_cast (Nat.lt_div_mul_add (a := 2 * Coef.piFloor p * num) hd).le.trans_eq (by
      rw [Coef.angle]; ring)
  have hn : (2 * num : ℝ) ≤ den := by exact_mod_cast h
  have hn0 : (0 : ℝ) ≤ num := by positivity
  have e : Coef.scale p * (2 * Real.pi * num / den) = 2 * (Real.pi * Coef.scale p) * num / den := by
    ring
  rw [e]
  generalize Real.pi * Coef.scale p = Q at *
  generalize (Coef.piFloor p : ℝ) = F at *
  generalize (Coef.angle p num den : ℝ) = A at *
  constructor
  · rw [le_div_iff₀ hdr]; nlinarith
  · rw [div_le_iff₀ hdr]; nlinarith

/-- What `Coef.cosSin` gives encloses cosine and sine, with ends at most 16 units apart. -/
theorem Coef.cosSin_encloses {p : Nat} (hp : 512 ≤ p) {num den : Nat} (hd : 0 < den)
    (h : 2 * num ≤ den) :
    (((Coef.cosSin p num den).1.lo : ℝ) ≤ Coef.scale p * Real.cos (2 * Real.pi * num / den) ∧
      Coef.scale p * Real.cos (2 * Real.pi * num / den) ≤ ((Coef.cosSin p num den).1.hi : ℝ) ∧
      ((Coef.cosSin p num den).2.lo : ℝ) ≤ Coef.scale p * Real.sin (2 * Real.pi * num / den) ∧
      Coef.scale p * Real.sin (2 * Real.pi * num / den) ≤ ((Coef.cosSin p num den).2.hi : ℝ)) ∧
    (Coef.cosSin p num den).1.hi ≤ (Coef.cosSin p num den).1.lo + 16 ∧
    (Coef.cosSin p num den).2.hi ≤ (Coef.cosSin p num den).2.lo + 16 := by
  have hP := Coef.scale_pos p
  have hdr : (0 : ℝ) < den := by exact_mod_cast hd
  rw [Coef.cosSin]
  by_cases hq : 4 * num = den
  · rw [if_pos hq]
    have hdn : (den : ℝ) = 4 * num := by exact_mod_cast hq.symm
    have hnr : (num : ℝ) ≠ 0 := by
      have : 0 < num := by omega
      positivity
    have hw : 2 * Real.pi * num / den = Real.pi / 2 := by rw [hdn]; field_simp; norm_num
    rw [hw, Real.cos_pi_div_two, Real.sin_pi_div_two]
    refine ⟨⟨by simp, by simp, ?_, ?_⟩, by simp, by simp⟩ <;> simp [Coef.scale]
  rw [if_neg hq]
  obtain ⟨a1, a2⟩ := Coef.angle_near (p := p) (by omega) hd h
  have hw : 2 * Real.pi * num / den ≤ 16 / 5 := by
    have hn : (2 * num : ℝ) ≤ den := by exact_mod_cast h
    rw [div_le_iff₀ hdr]
    have := Real.pi_lt_d2
    have h0 : (0 : ℝ) ≤ num := by positivity
    nlinarith [Real.pi_pos]
  have hsin : 12 * num = den ∨ 12 * num = 5 * den → Real.sin (2 * Real.pi * num / den) = 1 / 2 := by
    rintro (h12 | h12)
    · have hdn : (den : ℝ) = 12 * num := by exact_mod_cast h12.symm
      have hnr : (num : ℝ) ≠ 0 := by
        have : 0 < num := by omega
        positivity
      rw [show 2 * Real.pi * num / den = Real.pi / 6 by rw [hdn]; field_simp; norm_num,
        Real.sin_pi_div_six]
    · have hdn : (12 : ℝ) * num = 5 * den := by exact_mod_cast h12
      rw [show 2 * Real.pi * num / den = Real.pi - Real.pi / 6 by
        rw [show (num : ℝ) = 5 * den / 12 by linarith]; field_simp; norm_num,
        Real.sin_pi_sub, Real.sin_pi_div_six]
  generalize 2 * Real.pi * num / den = w at *
  have hx : (Coef.angle p num den : ℝ) / Coef.scale p ≤ 16 / 5 := by
    rw [div_le_iff₀ hP]; nlinarith
  have hc := Coef.cosUnits_near hp hx
  have hs := Coef.sinUnits_near hp hx
  have hdist : Coef.scale p * |(Coef.angle p num den : ℝ) / Coef.scale p - w| ≤ 3 := by
    rw [← abs_of_pos hP, ← abs_mul, abs_of_pos hP, mul_sub, mul_div_cancel₀ _ hP.ne', abs_le]
    constructor <;> linarith
  have lc := mul_le_mul_of_nonneg_left
    (Real.abs_cos_sub_cos_le ((Coef.angle p num den : ℝ) / Coef.scale p) w) hP.le
  have ls := mul_le_mul_of_nonneg_left
    (Real.abs_sin_sub_sin_le ((Coef.angle p num den : ℝ) / Coef.scale p) w) hP.le
  replace lc := lc.trans hdist
  replace ls := ls.trans hdist
  have ec : ∀ a b : ℝ, Coef.scale p * |a - b| = |Coef.scale p * a - Coef.scale p * b| := by
    intro a b; rw [← mul_sub, abs_mul, abs_of_pos hP]
  rw [ec, abs_le] at lc ls
  rw [abs_le] at hc hs
  simp only [Coef.slack]
  split_ifs with h12
  · have e : (2 : ℝ) ^ p = 2 * 2 ^ (p - 1) := by
      conv_lhs => rw [show p = p - 1 + 1 by omega, pow_succ, mul_comm]
    rw [hsin h12]
    refine ⟨⟨?_, ?_, ?_, ?_⟩, by omega, by simp⟩
    · push_cast; linarith [hc.1, hc.2, lc.1, lc.2]
    · push_cast; linarith [hc.1, hc.2, lc.1, lc.2]
    · rw [Coef.scale, e]; push_cast; linarith
    · rw [Coef.scale, e]; push_cast; linarith
  · refine ⟨⟨?_, ?_, ?_, ?_⟩, by omega, ?_⟩
    · push_cast; linarith [hc.1, lc.1, lc.2]
    · push_cast; linarith [hc.2, lc.1, lc.2]
    · push_cast; linarith [hs.1, ls.1, ls.2]
    · push_cast; linarith [hs.2, ls.1, ls.2]
    · show _ + 8 ≤ _ - 8 + (16 : Int)
      omega

end Sys2Proof.Machine
end

