-- ==== Sys2Proof/Laws/CoefDecided.lean ====
section
/-! SUPPORT. Every coefficient is decided: in the domain of the formulas some precision rounds both ends
of every enclosure alike, so `Coef.value` is always a rounding of its enclosure (`Coef.value_decided`).
Rounding is constant near every number that is no tie and not 0, and no formula of R155 and R156 has
a tie or 0 as its value but where `Coef.cosSin` is exact. -/

namespace Sys2Proof.Machine

/-! Rounding is constant between neighbouring multiples of half a unit -/

theorem F32.roundDiv_lt {n d k : Nat} (h1 : k * d ≤ n) (h2 : 2 * n < (2 * k + 1) * d) :
    F32.roundDiv n d = k := by
  have hd : 0 < d := by
    rcases Nat.eq_zero_or_pos d with rfl | h
    · simp at h2
    · exact h
  have hq : n / d = k := Nat.div_eq_of_lt_le (by nlinarith) (by nlinarith)
  have hr : n % d = n - k * d := by
    have := Nat.div_add_mod n d
    rw [hq, Nat.mul_comm] at this
    omega
  rw [F32.roundDiv, hq, hr, if_pos]
  have e : (2 * k + 1) * d = 2 * (k * d) + d := by ring
  omega

theorem F32.roundDiv_gt {n d k : Nat} (h1 : (2 * k + 1) * d < 2 * n) (h2 : n < (k + 1) * d) :
    F32.roundDiv n d = k + 1 := by
  have hd : 0 < d := by
    rcases Nat.eq_zero_or_pos d with rfl | h
    · simp at h2
    · exact h
  have hq : n / d = k := Nat.div_eq_of_lt_le (by nlinarith) (by nlinarith)
  have hr : n % d = n - k * d := by
    have := Nat.div_add_mod n d
    rw [hq, Nat.mul_comm] at this
    omega
  have e : (2 * k + 1) * d = 2 * (k * d) + d := by ring
  rw [F32.roundDiv, hq, hr, if_neg (by omega), if_pos (by omega)]

/-- `roundMag` of a value strictly between `z` and `z + 1` half units does not depend on where. -/
theorem F32.roundMag_cell {z num den : Nat} (h1 : z * den < 2 * num) (h2 : 2 * num < (z + 1) * den) :
    F32.roundMag num den = F32.roundMag (2 * z + 1) 4 := by
  have hd : 0 < den := by
    rcases Nat.eq_zero_or_pos den with rfl | h
    · simp at h2
    · exact h
  have hq : num / den = z / 2 := by
    rcases Nat.even_or_odd' z with ⟨y, rfl | rfl⟩
    · rw [show 2 * y / 2 = y by omega]
      exact Nat.div_eq_of_lt_le (by nlinarith) (by nlinarith)
    · rw [show (2 * y + 1) / 2 = y by omega]
      exact Nat.div_eq_of_lt_le (by nlinarith) (by nlinarith)
  have hq4 : (2 * z + 1) / 4 = z / 2 := by omega
  have hs : F32.shift num den = F32.shift (2 * z + 1) 4 := by rw [F32.shift, F32.shift, hq, hq4]
  rw [F32.roundMag_eq, F32.roundMag_eq, hs]
  generalize F32.shift (2 * z + 1) 4 = sh
  have hS : 0 < 2 ^ sh := by positivity
  generalize 2 ^ sh = S at *
  congr 2
  -- the quotient by `S` units
  obtain ⟨k, r, hr, hk⟩ : ∃ k r, r < 2 * S ∧ z = 2 * S * k + r :=
    ⟨z / (2 * S), z % (2 * S), Nat.mod_lt _ (by omega), (Nat.div_add_mod _ _).symm⟩
  rcases Nat.lt_or_ge r S with hrs | hrs
  · rw [F32.roundDiv_lt (k := k), F32.roundDiv_lt (k := k)]
    · rw [hk]; nlinarith
    · rw [hk]; nlinarith
    · have : S * k * den * 2 ≤ z * den := by rw [hk]; nlinarith
      nlinarith
    · have : (z + 1) * den ≤ (2 * k + 1) * S * den := Nat.mul_le_mul_right _ (by rw [hk]; nlinarith)
      nlinarith
  · rw [F32.roundDiv_gt (k := k), F32.roundDiv_gt (k := k)]
    · rw [hk]; nlinarith
    · rw [hk]; nlinarith
    · have : (2 * k + 1) * S * den ≤ z * den := Nat.mul_le_mul_right _ (by rw [hk]; nlinarith)
      nlinarith
    · have : (z + 1) * den ≤ 2 * (k + 1) * S * den := Nat.mul_le_mul_right _ (by rw [hk]; nlinarith)
      nlinarith

theorem F32.roundMag_congr {num den num' den' : Nat} (hd : 0 < den) (hd' : 0 < den')
    (h : num * den' = num' * den) : F32.roundMag num den = F32.roundMag num' den' :=
  le_antisymm (F32.roundMag_mono hd hd' h.le) (F32.roundMag_mono hd' hd h.ge)


/-! Which angles of a rational number of turns have cosine and sine in a rational linear relation -/

theorem Coef.totient_le_four {n : Nat} (hn : 0 < n) (h : n.totient ≤ 4) :
    n = 1 ∨ n = 2 ∨ n = 3 ∨ n = 4 ∨ n = 5 ∨ n = 6 ∨ n = 8 ∨ n = 10 ∨ n = 12 := by
  have hpos : 0 < n.totient := Nat.totient_pos.2 hn
  have hd : n ∣ 120 := by
    rw [Nat.dvd_iff_prime_pow_dvd_dvd]
    intro p k hp hk
    rcases Nat.eq_zero_or_pos k with rfl | hk0
    · simp
    have ht : (p ^ k).totient ≤ 4 := (Nat.le_of_dvd hpos (Nat.totient_dvd_of_dvd hk)).trans h
    rw [Nat.totient_prime_pow hp hk0] at ht
    obtain ⟨j, rfl⟩ : ∃ j, k = j + 1 := ⟨k - 1, by omega⟩
    rw [Nat.add_sub_cancel] at ht
    have h2 := hp.two_le
    have hp5 : p ≤ 5 := by
      have : 1 ≤ p ^ j := Nat.one_le_pow _ _ (by omega)
      have : p - 1 ≤ 4 := le_trans (Nat.le_mul_of_pos_left _ this) ht
      omega
    have hj : j ≤ 2 := by
      by_contra hc
      have : 2 ^ 3 ≤ p ^ j := (Nat.pow_le_pow_left h2 3).trans (Nat.pow_le_pow_right (by omega) (by omega))
      have : 8 * 1 ≤ p ^ j * (p - 1) := Nat.mul_le_mul this (by omega)
      omega
    interval_cases p <;> interval_cases j <;> revert ht hp <;> decide
  have all : ∀ m ∈ Nat.divisors 120, m.totient ≤ 4 →
      m = 1 ∨ m = 2 ∨ m = 3 ∨ m = 4 ∨ m = 5 ∨ m = 6 ∨ m = 8 ∨ m = 10 ∨ m = 12 := by decide +kernel
  exact all n (Nat.mem_divisors.2 ⟨hd, by norm_num⟩) h

open Polynomial in
/-- A rational linear relation bounds the order of the angle. -/
theorem Coef.relation_totient {k n : Nat} (hn : n ≠ 0) (hk : k.Coprime n) {a b : ℚ}
    (rel : Real.cos (2 * Real.pi * (k / n)) + a * Real.sin (2 * Real.pi * (k / n)) = b) :
    n.totient ≤ 4 := by
  have hprim := Complex.isPrimitiveRoot_exp_of_coprime k n hn hk
  have hθ : Complex.exp (2 * Real.pi * Complex.I * (k / n)) =
      Complex.exp (((2 * Real.pi * (k / n) : ℝ) : ℂ) * Complex.I) := by
    congr 1; push_cast; ring
  rw [hθ] at hprim
  generalize 2 * Real.pi * (k / n : ℝ) = w at *
  have hquad : (1 + (a : ℝ) ^ 2) * Real.cos w ^ 2 - 2 * b * Real.cos w + (b ^ 2 - a ^ 2) = 0 := by
    have h1 := Real.sin_sq_add_cos_sq w
    have h2 : (a * Real.sin w) ^ 2 = (b - Real.cos w) ^ 2 := by rw [← rel]; ring
    linear_combination -h2 + (a : ℝ) ^ 2 * h1
  have hz : (Complex.exp (w * Complex.I)) ^ 2 + 1 =
      2 * (Real.cos w : ℂ) * Complex.exp (w * Complex.I) := by
    have h1 := Complex.sin_sq_add_cos_sq (w : ℂ)
    rw [Complex.exp_mul_I, Complex.ofReal_cos]
    linear_combination (Complex.sin w ^ 2) * Complex.I_sq - h1
  generalize Complex.exp (w * Complex.I) = z at *
  have hquadC : (1 + (a : ℂ) ^ 2) * (Real.cos w : ℂ) ^ 2 - 2 * b * (Real.cos w : ℂ) + (b ^ 2 - a ^ 2) = 0 := by
    exact_mod_cast hquad
  generalize (Real.cos w : ℂ) = c at *
  let P : ℚ[X] := C ((1 + a ^ 2) / 4) * X ^ 4 - C b * X ^ 3 + C ((1 + a ^ 2) / 2 + b ^ 2 - a ^ 2) * X ^ 2
    - C b * X + C ((1 + a ^ 2) / 4)
  have hP : aeval z P = 0 := by
    simp only [P, map_add, map_sub, map_mul, map_pow, aeval_C, aeval_X, eq_ratCast]
    push_cast
    linear_combination z ^ 2 * hquadC + ((1 + (a : ℂ) ^ 2) / 4 * (z ^ 2 + 1 + 2 * c * z) - b * z) * hz
  have h4 : P.coeff 4 = (1 + a ^ 2) / 4 := by
    simp only [P, coeff_add, coeff_sub, coeff_C_mul, coeff_X_pow, coeff_X, coeff_C]; norm_num
  have hP0 : P ≠ 0 := by
    intro h
    rw [h, coeff_zero] at h4
    have : (0 : ℚ) < 1 + a ^ 2 := by positivity
    linarith
  have hdeg : P.natDegree ≤ 4 := by
    simp only [P]; compute_degree
  have hdvd := minpoly.dvd ℚ z hP
  rw [← cyclotomic_eq_minpoly_rat hprim (Nat.pos_of_ne_zero hn)] at hdvd
  have := natDegree_le_of_dvd hdvd hP0
  rw [natDegree_cyclotomic] at this
  omega

theorem Coef.sqrt_indep {m : Nat} (hm : m.Prime) {u v : ℚ} (h : (u : ℝ) + v * Real.sqrt m = 0) :
    u = 0 ∧ v = 0 := by
  have hv : v = 0 := by
    by_contra hv
    refine hm.irrational_sqrt ⟨-u / v, ?_⟩
    have : (v : ℝ) ≠ 0 := by exact_mod_cast hv
    push_cast
    field_simp
    linarith
  subst hv
  exact ⟨by exact_mod_cast (by simpa using h), rfl⟩

/-- `cos w + a·sin w = b` with rational `a`, `b` and `w` a rational number of turns strictly between 0 and
a half: a quarter turn, or one or two sixths and no sine, or an odd number of eighths. -/
theorem Coef.relation_cases {num den : Nat} (h0 : 0 < num) (h : 2 * num < den) {a b : ℚ}
    (rel : Real.cos (2 * Real.pi * num / den) + a * Real.sin (2 * Real.pi * num / den) = b) :
    4 * num = den ∨ (a = 0 ∧ (b = 1 / 2 ∨ b = -1 / 2)) ∨ (b = 0 ∧ (a = 1 ∨ a = -1)) := by
  have hg : 0 < Nat.gcd num den := Nat.gcd_pos_of_pos_left _ h0
  obtain ⟨k, hk⟩ := Nat.gcd_dvd_left num den
  obtain ⟨n, hn⟩ := Nat.gcd_dvd_right num den
  have hcop : k.Coprime n := by
    have := Nat.coprime_div_gcd_div_gcd (m := num) (n := den) hg
    rwa [Nat.div_eq_of_eq_mul_right hg hk, Nat.div_eq_of_eq_mul_right hg hn] at this
  generalize Nat.gcd num den = g at *
  subst hk hn
  have hk0 : 0 < k := Nat.pos_of_mul_pos_left h0
  have hkn : 2 * k < n := by nlinarith
  have hgr : (g : ℝ) ≠ 0 := by positivity
  have hnr : (n : ℝ) ≠ 0 := by
    have : 0 < n := by omega
    positivity
  have e : 2 * Real.pi * ((g * k : ℕ) : ℝ) / ((g * n : ℕ) : ℝ) = 2 * Real.pi * (k / n) := by
    push_cast; field_simp
  rw [e] at rel
  have ht := Coef.relation_totient (by omega) hcop rel
  have hs2 : Real.sqrt 2 * Real.sqrt 2 = 2 := Real.mul_self_sqrt (by norm_num)
  have hs3 : Real.sqrt 3 * Real.sqrt 3 = 3 := Real.mul_self_sqrt (by norm_num)
  have hs5 : Real.sqrt 5 * Real.sqrt 5 = 5 := Real.mul_self_sqrt (by norm_num)
  -- a fifth or a tenth of a turn has no such relation
  have five : ∀ x y : ℚ, (x = 1 / 4 ∨ x = -1 / 4) → (y = 1 / 4 ∨ y = -1 / 4) → ∀ w : ℝ,
      Real.cos w = x + y * Real.sqrt 5 → Real.cos w + a * Real.sin w = b → False := by
    intro x y hx hy w hc hrel
    have hquad : (1 + (a : ℝ) ^ 2) * Real.cos w ^ 2 - 2 * b * Real.cos w + (b ^ 2 - a ^ 2) = 0 := by
      have h1 := Real.sin_sq_add_cos_sq w
      have h2 : (a * Real.sin w) ^ 2 = (b - Real.cos w) ^ 2 := by rw [← hrel]; ring
      linear_combination -h2 + (a : ℝ) ^ 2 * h1
    rw [hc] at hquad
    have hlin : (((1 + a ^ 2) * (x ^ 2 + 5 * y ^ 2) - 2 * b * x + (b ^ 2 - a ^ 2) : ℚ) : ℝ) +
        (((1 + a ^ 2) * (2 * x * y) - 2 * b * y : ℚ) : ℝ) * Real.sqrt (5 : ℕ) = 0 := by
      push_cast
      linear_combination hquad - (1 + (a : ℝ) ^ 2) * y ^ 2 * hs5
    obtain ⟨q1, q2⟩ := Coef.sqrt_indep (by norm_num) hlin
    have hx2 : x ^ 2 = 1 / 16 := by rcases hx with rfl | rfl <;> norm_num
    have hy2 : y ^ 2 = 1 / 16 := by rcases hy with rfl | rfl <;> norm_num
    have hy0 : y ≠ 0 := by rintro rfl; norm_num at hy2
    have hb : b = (1 + a ^ 2) * x := by
      have : y * ((1 + a ^ 2) * x - b) = 0 := by linear_combination q2 / 2
      rcases mul_eq_zero.1 this with h | h
      · exact absurd h hy0
      · linarith
    have h20 : (a ^ 2 - 5) ^ 2 = 20 := by
      rw [hb] at q1
      linear_combination 16 * q1 + (-16 * (1 + a ^ 2) ^ 2 + 16 * (1 + a ^ 2)) * hx2 - 80 * (1 + a ^ 2) * hy2
    have hz : (((a ^ 2 - 5) : ℚ) : ℝ) ^ 2 = 20 := by exact_mod_cast h20
    have hirr : Irrational (Real.sqrt 5) := by exact_mod_cast (Nat.Prime.irrational_sqrt (p := 5) (by norm_num))
    have : (((a ^ 2 - 5) : ℚ) : ℝ) = 2 * Real.sqrt 5 ∨ (((a ^ 2 - 5) : ℚ) : ℝ) = -(2 * Real.sqrt 5) := by
      rw [← sq_eq_sq_iff_eq_or_eq_neg, hz]; nlinarith
    rcases this with h | h
    · exact hirr ⟨(a ^ 2 - 5) / 2, by push_cast at h ⊢; linarith⟩
    · exact hirr ⟨-(a ^ 2 - 5) / 2, by push_cast at h ⊢; linarith⟩
  have c36 := Real.cos_pi_div_five
  have c72 : Real.cos (2 * (Real.pi / 5)) = -1 / 4 + 1 / 4 * Real.sqrt 5 := by
    rw [Real.cos_two_mul, c36]; linear_combination (1 / 8) * hs5
  rcases Coef.totient_le_four (by omega) ht with rfl | rfl | rfl | rfl | rfl | rfl | rfl | rfl | rfl
  · omega
  · omega
  · obtain rfl : k = 1 := by omega
    rw [show 2 * Real.pi * ((1 : ℕ) / (3 : ℕ)) = Real.pi - Real.pi / 3 by push_cast; ring,
      Real.cos_pi_sub, Real.sin_pi_sub, Real.cos_pi_div_three, Real.sin_pi_div_three] at rel
    have := Coef.sqrt_indep (m := 3) (u := -1 / 2 - b) (v := a / 2) (by norm_num)
      (by push_cast; linarith)
    exact .inr (.inl ⟨by linarith [this.2], .inr (by linarith [this.1])⟩)
  · obtain rfl : k = 1 := by omega
    left; omega
  · exfalso
    have : k = 1 ∨ k = 2 := by omega
    rcases this with rfl | rfl
    · exact five (-1 / 4) (1 / 4) (.inr rfl) (.inl rfl) _ (by
        rw [show 2 * Real.pi * ((1 : ℕ) / (5 : ℕ)) = 2 * (Real.pi / 5) by push_cast; ring, c72]
        push_cast; ring) rel
    · exact five (-1 / 4) (-1 / 4) (.inr rfl) (.inr rfl) _ (by
        rw [show 2 * Real.pi * ((2 : ℕ) / (5 : ℕ)) = Real.pi - Real.pi / 5 by push_cast; ring,
          Real.cos_pi_sub, c36]
        push_cast; ring) rel
  · have : k = 1 := by
      have : k = 1 ∨ k = 2 := by omega
      rcases this with rfl | rfl
      · rfl
      · norm_num at hcop
    subst this
    rw [show 2 * Real.pi * ((1 : ℕ) / (6 : ℕ)) = Real.pi / 3 by push_cast; ring,
      Real.cos_pi_div_three, Real.sin_pi_div_three] at rel
    have := Coef.sqrt_indep (m := 3) (u := 1 / 2 - b) (v := a / 2) (by norm_num)
      (by push_cast; linarith)
    exact .inr (.inl ⟨by linarith [this.2], .inl (by linarith [this.1])⟩)
  · have : k = 1 ∨ k = 3 := by
      have : k = 1 ∨ k = 2 ∨ k = 3 := by omega
      rcases this with rfl | rfl | rfl
      · exact .inl rfl
      · norm_num at hcop
      · exact .inr rfl
    rcases this with rfl | rfl
    · rw [show 2 * Real.pi * ((1 : ℕ) / (8 : ℕ)) = Real.pi / 4 by push_cast; ring,
        Real.cos_pi_div_four, Real.sin_pi_div_four] at rel
      have := Coef.sqrt_indep (m := 2) (u := -b) (v := (1 + a) / 2) (by norm_num)
        (by push_cast; linarith)
      exact .inr (.inr ⟨by linarith [this.1], .inr (by linarith [this.2])⟩)
    · rw [show 2 * Real.pi * ((3 : ℕ) / (8 : ℕ)) = Real.pi - Real.pi / 4 by push_cast; ring,
        Real.cos_pi_sub, Real.sin_pi_sub, Real.cos_pi_div_four, Real.sin_pi_div_four] at rel
      have := Coef.sqrt_indep (m := 2) (u := -b) (v := (a - 1) / 2) (by norm_num)
        (by push_cast; linarith)
      exact .inr (.inr ⟨by linarith [this.1], .inl (by linarith [this.2])⟩)
  · exfalso
    have : k = 1 ∨ k = 3 := by
      have : k = 1 ∨ k = 2 ∨ k = 3 ∨ k = 4 := by omega
      rcases this with rfl | rfl | rfl | rfl
      · exact .inl rfl
      · norm_num at hcop
      · exact .inr rfl
      · norm_num at hcop
    rcases this with rfl | rfl
    · exact five (1 / 4) (1 / 4) (.inl rfl) (.inl rfl) _ (by
        rw [show 2 * Real.pi * ((1 : ℕ) / (10 : ℕ)) = Real.pi / 5 by push_cast; ring, c36]
        push_cast; ring) rel
    · exact five (1 / 4) (-1 / 4) (.inl rfl) (.inr rfl) _ (by
        rw [show 2 * Real.pi * ((3 : ℕ) / (10 : ℕ)) = Real.pi - 2 * (Real.pi / 5) by push_cast; ring,
          Real.cos_pi_sub, c72]
        push_cast; ring) rel
  · exfalso
    have : k = 1 ∨ k = 5 := by
      have : k = 1 ∨ k = 2 ∨ k = 3 ∨ k = 4 ∨ k = 5 := by omega
      rcases this with rfl | rfl | rfl | rfl | rfl <;> first | exact .inl rfl | exact .inr rfl | norm_num at hcop
    rcases this with rfl | rfl
    · rw [show 2 * Real.pi * ((1 : ℕ) / (12 : ℕ)) = Real.pi / 6 by push_cast; ring,
        Real.cos_pi_div_six, Real.sin_pi_div_six] at rel
      have := Coef.sqrt_indep (m := 3) (u := a / 2 - b) (v := 1 / 2) (by norm_num)
        (by push_cast; linarith)
      norm_num at this
    · rw [show 2 * Real.pi * ((5 : ℕ) / (12 : ℕ)) = Real.pi - Real.pi / 6 by push_cast; ring,
        Real.cos_pi_sub, Real.sin_pi_sub, Real.cos_pi_div_six, Real.sin_pi_div_six] at rel
      have := Coef.sqrt_indep (m := 3) (u := a / 2 - b) (v := -1 / 2) (by norm_num)
        (by push_cast; linarith)
      norm_num at this


/-! Rounding is constant near the values of the formulas -/

theorem F32.roundMag_near {a : ℝ} (h0 : 0 < a) (ha : Irrational a ∨ a = 1 / 2 ∨ a = 1) :
    ∃ ε > 0, ∃ m, ∀ n d : Nat, 0 < d → |(n : ℝ) / d - a| < ε → F32.roundMag (n * 2 ^ 149) d = m := by
  have hP : (0 : ℝ) < 2 ^ 150 := by positivity
  -- strictly between two neighbouring half units
  have cell : ∀ (z n d : Nat), 0 < d → (z : ℝ) / 2 ^ 150 < (n : ℝ) / d →
      (n : ℝ) / d < (z + 1) / 2 ^ 150 → F32.roundMag (n * 2 ^ 149) d = F32.roundMag (2 * z + 1) 4 := by
    intro z n d hd h1 h2
    have hdr : (0 : ℝ) < d := by exact_mod_cast hd
    rw [div_lt_div_iff₀ hP hdr] at h1
    rw [div_lt_div_iff₀ hdr hP] at h2
    refine F32.roundMag_cell ?_ ?_
    · have : z * d < n * 2 ^ 150 := by exact_mod_cast h1
      omega
    · have : n * 2 ^ 150 < (z + 1) * d := by exact_mod_cast h2
      omega
  -- about a whole number of half units whose two neighbours round as it does
  have point : ∀ z : Nat, 1 ≤ z → a = (z : ℝ) / 2 ^ 150 →
      F32.roundMag (2 * (z - 1) + 1) 4 = F32.roundMag z 2 →
      F32.roundMag (2 * z + 1) 4 = F32.roundMag z 2 →
      ∃ ε > 0, ∃ m, ∀ n d : Nat, 0 < d → |(n : ℝ) / d - a| < ε → F32.roundMag (n * 2 ^ 149) d = m := by
    intro z hz hza e1 e2
    refine ⟨1 / 2 ^ 150, by positivity, F32.roundMag z 2, fun n d hd hn => ?_⟩
    have hdr : (0 : ℝ) < d := by exact_mod_cast hd
    rw [abs_lt, hza] at hn
    rcases lt_trichotomy ((n : ℝ) / d) ((z : ℝ) / 2 ^ 150) with h | h | h
    · rw [cell (z - 1) n d hd _ _, e1]
      · rw [Nat.cast_sub hz, Nat.cast_one, sub_div]; linarith [hn.1]
      · rw [Nat.cast_sub hz, Nat.cast_one, sub_add_cancel]; exact h
    · rw [div_eq_div_iff hdr.ne' hP.ne'] at h
      have h' : n * 2 ^ 150 = z * d := by exact_mod_cast h
      exact F32.roundMag_congr hd (by norm_num) (by omega)
    · rw [cell z n d hd h _, e2]
      rw [add_div]; linarith [hn.2]
  rcases ha with ha | ha | ha
  · have hz := Nat.floor_le (show 0 ≤ a * 2 ^ 150 by positivity)
    have hz1 := Nat.lt_floor_add_one (a * 2 ^ 150)
    generalize Nat.floor (a * 2 ^ 150) = z at *
    have hne : (z : ℝ) ≠ a * 2 ^ 150 := by
      intro h
      refine ha ⟨(z : ℚ) / 2 ^ 150, ?_⟩
      push_cast
      rw [h]; field_simp
    have hz' : (z : ℝ) / 2 ^ 150 < a := by
      rw [div_lt_iff₀ hP]; exact lt_of_le_of_ne hz hne
    have hz1' : a < (z + 1) / 2 ^ 150 := by rw [lt_div_iff₀ hP]; exact hz1
    refine ⟨min (a - z / 2 ^ 150) ((z + 1) / 2 ^ 150 - a), lt_min (by linarith) (by linarith),
      F32.roundMag (2 * z + 1) 4, fun n d hd hn => ?_⟩
    rw [lt_min_iff, abs_lt, abs_lt] at hn
    exact cell z n d hd (by linarith [hn.1.1]) (by linarith [hn.2.2])
  · exact point (2 ^ 149) (by norm_num) (by rw [ha]; push_cast; norm_num) (by decide +kernel)
      (by decide +kernel)
  · exact point (2 ^ 150) (by norm_num) (by rw [ha]; push_cast; norm_num) (by decide +kernel)
      (by decide +kernel)

theorem F32.rnd32_near {r : ℝ} (hr : Irrational r ∨ r = 1 / 2 ∨ r = 1 ∨ r = -1) :
    ∃ ε > 0, ∃ w, ∀ (num : Int) (den : Nat), 0 < den → |(num : ℝ) / den - r| < ε →
      F32.rnd32 num den = w := by
  have hr0 : r ≠ 0 := by
    rintro rfl
    rcases hr with h | h | h | h
    · exact h ⟨0, by simp⟩
    all_goals norm_num at h
  have habs : Irrational |r| ∨ |r| = 1 / 2 ∨ |r| = 1 := by
    rcases hr with h | rfl | rfl | rfl
    · left
      rcases abs_choice r with e | e <;> rw [e]
      · exact h
      · exact h.neg
    · right; left; norm_num
    · right; right; norm_num
    · right; right; norm_num
  obtain ⟨ε, hε, m, hm⟩ := F32.roundMag_near (abs_pos.2 hr0) habs
  refine ⟨min ε |r|, lt_min hε (abs_pos.2 hr0), F32.ofMag (decide (r < 0)) m, fun num den hd hn => ?_⟩
  have hdr : (0 : ℝ) < den := by exact_mod_cast hd
  rw [lt_min_iff] at hn
  have hsign : num < 0 ↔ r < 0 := by
    have h1 : num < 0 ↔ (num : ℝ) / den < 0 := by
      rw [div_lt_iff₀ hdr, zero_mul]; exact_mod_cast Iff.rfl
    rw [h1]
    have h2 := abs_lt.1 hn.2
    rcases lt_or_gt_of_ne hr0 with h | h
    · rw [abs_of_neg h] at h2
      exact ⟨fun _ => h, fun _ => by linarith [h2.2]⟩
    · rw [abs_of_pos h] at h2
      exact ⟨fun h3 => absurd h3 (by linarith [h2.1]), fun h3 => absurd h3 (not_lt.2 h.le)⟩
  have hmag : F32.roundMag (num.natAbs * 2 ^ 149) den = m := by
    refine hm _ _ hd (lt_of_le_of_lt ?_ hn.1)
    have e : ((num.natAbs : ℕ) : ℝ) / den = |(num : ℝ) / den| := by
      rw [abs_div, abs_of_pos hdr, Nat.cast_natAbs, Int.cast_abs]
    rw [e]
    exact abs_abs_sub_abs_le _ _
  rw [F32.rnd32, hmag]
  congr 1
  exact decide_eq_decide.2 hsign

/-! The formulas over the real numbers -/

/-- The numerator of a formula of R155 and R156 over the real numbers. -/
noncomputable def Coef.exactNum (f : Coef.Formula) (cs al : ℝ) : ℝ :=
  match f with
  | .hpB0 => (1 + cs) / 2
  | .hpB1 => -(1 + cs)
  | .lpB0 => (1 - cs) / 2
  | .lpB1 => 1 - cs
  | .a1 => -2 * cs
  | .a2 => 1 - al

/-- `w0` of R155. -/
noncomputable def Coef.w0 (fc fs : Word) : ℝ := 2 * Real.pi * (F32.units fc : ℝ) / (F32.units fs : ℝ)

/-- `al` of R155. -/
noncomputable def Coef.al (fc q fs : Word) : ℝ :=
  Real.sin (Coef.w0 fc fs) / (2 * ((F32.units q : ℝ) / 2 ^ 149))

/-- A formula of R155 and R156 over the real numbers. -/
noncomputable def Coef.exact (fc q fs : Word) (f : Coef.Formula) : ℝ :=
  Coef.exactNum f (Real.cos (Coef.w0 fc fs)) (Coef.al fc q fs) / (1 + Coef.al fc q fs)

theorem Coef.inDomain_iff (fc q fs : Word) : Coef.inDomain fc q fs = true ↔
    F32.isFinite fc = true ∧ F32.isFinite q = true ∧ F32.isFinite fs = true ∧
    F32.neg fc = false ∧ F32.neg q = false ∧ F32.neg fs = false ∧
    0 < F32.units fc ∧ 0 < F32.units q ∧ 2 * F32.units fc < F32.units fs := by
  simp [Coef.inDomain, and_assoc]

theorem Coef.w0_mem {fc q fs : Word} (h : Coef.inDomain fc q fs = true) :
    0 < Coef.w0 fc fs ∧ Coef.w0 fc fs < Real.pi := by
  obtain ⟨-, -, -, -, -, -, h1, -, h3⟩ := (Coef.inDomain_iff fc q fs).1 h
  have h1r : (0 : ℝ) < F32.units fc := by exact_mod_cast h1
  have h3r : (2 * F32.units fc : ℝ) < F32.units fs := by exact_mod_cast h3
  have hs : (0 : ℝ) < F32.units fs := by linarith
  rw [Coef.w0]
  constructor
  · have := Real.pi_pos; positivity
  · rw [div_lt_iff₀ hs]; nlinarith [Real.pi_pos]

theorem Coef.al_pos {fc q fs : Word} (h : Coef.inDomain fc q fs = true) : 0 < Coef.al fc q fs := by
  obtain ⟨w1, w2⟩ := Coef.w0_mem h
  obtain ⟨-, -, -, -, -, -, -, h2, -⟩ := (Coef.inDomain_iff fc q fs).1 h
  have h2r : (0 : ℝ) < F32.units q := by exact_mod_cast h2
  have := Real.sin_pos_of_pos_of_lt_pi w1 w2
  rw [Coef.al]
  positivity

/-- A sine of 1/2 or 1, strictly inside half a turn, is that of one, five or three twelfths. -/
theorem Coef.sin_rational {num den : Nat} (h0 : 0 < num) (h : 2 * num < den) {s : ℚ}
    (hs : Real.sin (2 * Real.pi * num / den) = s) :
    4 * num = den ∨ 12 * num = den ∨ 12 * num = 5 * den := by
  have hd : (0 : ℝ) < den := by
    have : 0 < den := by omega
    exact_mod_cast this
  have hn : (0 : ℝ) < num := by exact_mod_cast h0
  have hnd : (2 * num : ℝ) < den := by exact_mod_cast h
  have hpi := Real.pi_pos
  have w1 : 0 < 2 * Real.pi * num / den := by positivity
  have w2 : 2 * Real.pi * num / den < Real.pi := by rw [div_lt_iff₀ hd]; nlinarith
  have hpos := Real.sin_pos_of_pos_of_lt_pi w1 w2
  have hniv := niven_sin (θ := 2 * Real.pi * num / den) ⟨2 * num / den, by push_cast; ring⟩ ⟨s, hs⟩
  -- from an angle to the fraction of a turn
  have turn : ∀ x y : Nat, 0 < y → 2 * Real.pi * num / den = Real.pi * (x / y) →
      2 * num * y = x * den := by
    intro x y hy e
    have hyr : (y : ℝ) ≠ 0 := by positivity
    have : (2 * num * y : ℝ) = x * den := by
      have e2 : 2 * (num : ℝ) / den = x / y := by
        have : Real.pi * (2 * (num : ℝ) / den) = Real.pi * (x / y) := by rw [← e]; ring
        exact mul_left_cancel₀ hpi.ne' this
      field_simp at e2
      linarith
    exact_mod_cast this
  -- the angles with a given sine
  have angles : ∀ v, 0 < v → v ≤ Real.pi / 2 → Real.sin (2 * Real.pi * num / den) = Real.sin v →
      2 * Real.pi * num / den = v ∨ 2 * Real.pi * num / den = Real.pi - v := by
    intro v v0 v1 e
    rcases le_or_gt (2 * Real.pi * num / den) (Real.pi / 2) with hw | hw
    · exact .inl (Real.injOn_sin ⟨by linarith, hw⟩ ⟨by linarith, v1⟩ e)
    · right
      rw [← Real.sin_pi_sub] at e
      have := Real.injOn_sin ⟨by linarith, by linarith⟩ ⟨by linarith, v1⟩ e
      linarith
  simp only [Set.mem_insert_iff, Set.mem_singleton_iff] at hniv
  rcases hniv with e | e | e | e | e
  · linarith
  · linarith
  · linarith
  · rw [← Real.sin_pi_div_six] at e
    rcases angles _ (by positivity) (by linarith) e with e | e
    · have := turn 1 6 (by norm_num) (by rw [e]; push_cast; ring)
      omega
    · have := turn 5 6 (by norm_num) (by rw [e]; push_cast; ring)
      omega
  · rw [← Real.sin_pi_div_two] at e
    rcases angles _ (by positivity) le_rfl e with e | e
    · have := turn 1 2 (by norm_num) (by rw [e]; push_cast; ring)
      omega
    · have := turn 1 2 (by norm_num) (by rw [e]; push_cast; ring)
      omega

/-- A formula is irrational, or 1/2, 1 or -1, unless the enclosure is exact for it. -/
theorem Coef.exact_cases {fc q fs : Word} (h : Coef.inDomain fc q fs = true) (f : Coef.Formula) :
    4 * F32.units fc = F32.units fs ∨
    (f = .a2 ∧ (12 * F32.units fc = F32.units fs ∨ 12 * F32.units fc = 5 * F32.units fs)) ∨
    (Irrational (Coef.exact fc q fs f) ∨ Coef.exact fc q fs f = 1 / 2 ∨ Coef.exact fc q fs f = 1 ∨
      Coef.exact fc q fs f = -1) := by
  by_cases hirr : Irrational (Coef.exact fc q fs f)
  · exact .inr (.inr (.inl hirr))
  obtain ⟨r, hr⟩ := not_not.1 hirr
  obtain ⟨-, -, -, -, -, -, h1, h2, h3⟩ := (Coef.inDomain_iff fc q fs).1 h
  have hal := Coef.al_pos h
  have hk : ((F32.units q : ℕ) : ℚ) ≠ 0 := by positivity
  obtain ⟨A, hA0, hA⟩ : ∃ A : ℚ, A ≠ 0 ∧ Coef.al fc q fs = A * Real.sin (Coef.w0 fc fs) := by
    refine ⟨2 ^ 149 / (2 * F32.units q), by positivity, ?_⟩
    have hkr : (F32.units q : ℝ) ≠ 0 := by exact_mod_cast hk
    rw [Coef.al]; push_cast; field_simp
  have hden : (1 + Coef.al fc q fs) ≠ 0 := by positivity
  have hval := hr
  rw [Coef.exact, eq_div_iff hden, hA] at hr
  rw [← hval]
  -- the relation, once for the five formulas with a cosine
  have key : ∀ a b : ℚ, Real.cos (Coef.w0 fc fs) + a * Real.sin (Coef.w0 fc fs) = b →
      4 * F32.units fc = F32.units fs ∨ (a = 0 ∧ (b = 1 / 2 ∨ b = -1 / 2)) ∨ (b = 0 ∧ (a = 1 ∨ a = -1)) :=
    fun a b => Coef.relation_cases h1 h3
  cases f with
  | hpB0 =>
    simp only [Coef.exactNum] at hr
    rcases key (-2 * r * A) (2 * r - 1) (by push_cast; linarith) with e | ⟨e, e'⟩ | ⟨e, -⟩
    · exact .inl e
    · have : r = 0 := by simpa [hA0] using e
      rw [this] at e'; norm_num at e'
    · exact .inr (.inr (.inr (.inl (by
        have : r = 1 / 2 := by linarith
        rw [this]; push_cast; rfl))))
  | hpB1 =>
    simp only [Coef.exactNum] at hr
    rcases key (r * A) (-1 - r) (by push_cast; linarith) with e | ⟨e, e'⟩ | ⟨e, -⟩
    · exact .inl e
    · have : r = 0 := by simpa [hA0] using e
      rw [this] at e'; norm_num at e'
    · exact .inr (.inr (.inr (.inr (.inr (by
        have : r = -1 := by linarith
        rw [this]; push_cast; rfl)))))
  | lpB0 =>
    simp only [Coef.exactNum] at hr
    rcases key (2 * r * A) (1 - 2 * r) (by push_cast; linarith) with e | ⟨e, e'⟩ | ⟨e, -⟩
    · exact .inl e
    · have : r = 0 := by simpa [hA0] using e
      rw [this] at e'; norm_num at e'
    · exact .inr (.inr (.inr (.inl (by
        have : r = 1 / 2 := by linarith
        rw [this]; push_cast; rfl))))
  | lpB1 =>
    simp only [Coef.exactNum] at hr
    rcases key (r * A) (1 - r) (by push_cast; linarith) with e | ⟨e, e'⟩ | ⟨e, -⟩
    · exact .inl e
    · have : r = 0 := by simpa [hA0] using e
      rw [this] at e'; norm_num at e'
    · exact .inr (.inr (.inr (.inr (.inl (by
        have : r = 1 := by linarith
        rw [this]; push_cast; rfl)))))
  | a1 =>
    simp only [Coef.exactNum] at hr
    rcases key (r * A / 2) (-r / 2) (by push_cast; linarith) with e | ⟨e, e'⟩ | ⟨e, e'⟩
    · exact .inl e
    · have : r = 0 := by simpa [hA0] using e
      rw [this] at e'; norm_num at e'
    · have : r = 0 := by linarith
      rw [this] at e'; norm_num at e'
  | a2 =>
    simp only [Coef.exactNum] at hr
    have hr1 : (1 + r : ℚ) ≠ 0 := by
      intro e
      have : (r : ℝ) = -1 := by
        have : r = -1 := by linarith
        rw [this]; push_cast; rfl
      rw [this] at hr
      linarith
    have hsin : Real.sin (Coef.w0 fc fs) = (((1 - r) / ((1 + r) * A) : ℚ) : ℝ) := by
      have h1 : ((1 : ℝ) + r) ≠ 0 := by exact_mod_cast hr1
      have h2 : (A : ℝ) ≠ 0 := by exact_mod_cast hA0
      push_cast
      rw [eq_div_iff (mul_ne_zero h1 h2)]
      linarith
    rcases Coef.sin_rational h1 h3 hsin with e | e
    · exact .inl e
    · exact .inr (.inl ⟨rfl, e⟩)

/-! Every formula is decided -/

/-- What `Coef.parts` gives encloses the numerators and the denominator of the formulas, with ends a
bounded number of units apart, and is exact where `Coef.cosSin` is. -/
theorem Coef.parts_encloses {fc q fs : Word} (h : Coef.inDomain fc q fs = true) {p : Nat} (hp : 512 ≤ p)
    (f : Coef.Formula) :
    let n := (Coef.parts fc q fs p).numerator f
    let d := (Coef.parts fc q fs p).den
    let K : ℝ := 2 * F32.units q * Coef.scale p
    ((n.lo : ℝ) ≤ Coef.exactNum f (Real.cos (Coef.w0 fc fs)) (Coef.al fc q fs) * K ∧
      Coef.exactNum f (Real.cos (Coef.w0 fc fs)) (Coef.al fc q fs) * K ≤ n.hi) ∧
    ((d.lo : ℝ) ≤ (1 + Coef.al fc q fs) * K ∧ (1 + Coef.al fc q fs) * K ≤ d.hi) ∧
    K ≤ d.lo ∧ n.hi ≤ n.lo + 64 * (F32.units q + 2 ^ 149) ∧ d.hi ≤ d.lo + 64 * (F32.units q + 2 ^ 149) ∧
    ((4 * F32.units fc = F32.units fs ∨
      (f = .a2 ∧ (12 * F32.units fc = F32.units fs ∨ 12 * F32.units fc = 5 * F32.units fs))) →
      n.lo = n.hi ∧ d.lo = d.hi) := by
  obtain ⟨-, -, -, -, -, -, h1, h2, h3⟩ := (Coef.inDomain_iff fc q fs).1 h
  obtain ⟨w1, w2⟩ := Coef.w0_mem h
  have hsin := Real.sin_pos_of_pos_of_lt_pi w1 w2
  have hP := Coef.scale_pos p
  have hkr : (0 : ℝ) < F32.units q := by exact_mod_cast h2
  obtain ⟨⟨c1, c2, s1, s2⟩, c3, s3⟩ := Coef.cosSin_encloses hp (den := F32.units fs)
    (num := F32.units fc) (by omega) (by omega)
  rw [← Coef.w0] at c1 c2 s1 s2
  have hPint : ((2 ^ p : Int) : ℝ) = Coef.scale p := by rw [Coef.scale]; push_cast; rfl
  have hexact : (4 * F32.units fc = F32.units fs →
        (Coef.cosSin p (F32.units fc) (F32.units fs)).1 = ⟨0, 0⟩ ∧
        (Coef.cosSin p (F32.units fc) (F32.units fs)).2 = ⟨2 ^ p, 2 ^ p⟩) ∧
      (12 * F32.units fc = F32.units fs ∨ 12 * F32.units fc = 5 * F32.units fs →
        (Coef.cosSin p (F32.units fc) (F32.units fs)).2 = ⟨2 ^ (p - 1), 2 ^ (p - 1)⟩) := by
    constructor
    · intro e
      rw [Coef.cosSin, if_pos e]
      exact ⟨rfl, rfl⟩
    · intro e
      rw [Coef.cosSin, if_neg (by omega), if_pos e]
  have hc := Real.abs_cos_le_one (Coef.w0 fc fs)
  rw [abs_le] at hc
  have hals : Coef.al fc q fs * (2 * F32.units q * Coef.scale p) =
      Coef.scale p * Real.sin (Coef.w0 fc fs) * 2 ^ 149 := by
    rw [Coef.al]; field_simp
  intro n d K
  simp only [n, d, K, Coef.parts]
  clear n d K
  generalize (Coef.cosSin p (F32.units fc) (F32.units fs)).1 = ci at *
  generalize (Coef.cosSin p (F32.units fc) (F32.units fs)).2 = si at *
  generalize Real.cos (Coef.w0 fc fs) = c at *
  generalize Real.sin (Coef.w0 fc fs) = s at *
  generalize Coef.al fc q fs = al at *
  generalize F32.units q = k at *
  generalize (2 : Int) ^ p = Pi at *
  obtain ⟨clo, chi⟩ := ci
  obtain ⟨slo, shi⟩ := si
  simp only at *
  have m1 : ((max 0 (Pi + clo) : Int) : ℝ) ≤ Coef.scale p + Coef.scale p * c := by
    rw [← hPint]; push_cast; rw [max_le_iff]; exact ⟨by rw [hPint]; nlinarith, by rw [hPint]; linarith⟩
  have m2 : ((max 0 (Pi - chi) : Int) : ℝ) ≤ Coef.scale p - Coef.scale p * c := by
    rw [← hPint]; push_cast; rw [max_le_iff]; exact ⟨by rw [hPint]; nlinarith, by rw [hPint]; linarith⟩
  have m3 : ((max 0 slo : Int) : ℝ) ≤ Coef.scale p * s := by
    push_cast; rw [max_le_iff]; exact ⟨by positivity, s1⟩
  have k1 : Pi + clo ≤ max 0 (Pi + clo) := le_max_right _ _
  have k2 : Pi - chi ≤ max 0 (Pi - chi) := le_max_right _ _
  have k3 : slo ≤ max 0 slo := le_max_right _ _
  have k30 : 0 ≤ max 0 slo := le_max_left _ _
  have hPi0 : 0 < Pi := by
    have : (0 : ℝ) < (Pi : ℝ) := by rw [hPint]; exact hP
    exact_mod_cast this
  have hk0 : (0 : Int) ≤ (k : Int) := by omega
  have hden : ((2 * (k : Int) * Pi + max 0 slo * 2 ^ 149 : Int) : ℝ) ≤ (1 + al) * (2 * k * Coef.scale p) ∧
      (1 + al) * (2 * k * Coef.scale p) ≤ ((2 * (k : Int) * Pi + shi * 2 ^ 149 : Int) : ℝ) := by
    have e : (1 + al) * (2 * k * Coef.scale p) =
        2 * k * (Pi : ℝ) + Coef.scale p * s * 2 ^ 149 := by rw [hPint]; linarith
    rw [e, Int.cast_add, Int.cast_add, Int.cast_mul (max 0 slo), Int.cast_mul shi]
    push_cast at m3 ⊢
    constructor <;> linarith
  have hK : 2 * (k : ℝ) * Coef.scale p ≤ ((2 * (k : Int) * Pi + max 0 slo * 2 ^ 149 : Int) : ℝ) := by
    have : (2 * (k : Int) * Pi : Int) ≤ 2 * (k : Int) * Pi + max 0 slo * 2 ^ 149 := by linarith
    have h := (Int.cast_le (R := ℝ)).2 this
    refine le_trans (le_of_eq ?_) h
    push_cast; rw [hPint]
  have hdw : 2 * (k : Int) * Pi + shi * 2 ^ 149 ≤
      2 * (k : Int) * Pi + max 0 slo * 2 ^ 149 + 64 * ((k : Int) + 2 ^ 149) := by linarith
  have hde : (4 * F32.units fc = F32.units fs ∨ 12 * F32.units fc = F32.units fs ∨
      12 * F32.units fc = 5 * F32.units fs) →
      2 * (k : Int) * Pi + max 0 slo * 2 ^ 149 = 2 * (k : Int) * Pi + shi * 2 ^ 149 ∧ slo = shi := by
    intro e
    have : slo = shi ∧ 0 ≤ slo := by
      rcases e with e | e
      · have := (hexact.1 e).2
        rw [Coef.Interval.mk.injEq] at this
        exact ⟨this.1.trans this.2.symm, by rw [this.1]; exact hPi0.le⟩
      · have := hexact.2 e
        rw [Coef.Interval.mk.injEq] at this
        exact ⟨this.1.trans this.2.symm, by rw [this.1]; positivity⟩
    exact ⟨by rw [max_eq_right this.2, this.1], this.1⟩
  have hce : 4 * F32.units fc = F32.units fs → clo = 0 ∧ chi = 0 := by
    intro e
    have := (hexact.1 e).1
    rwa [Coef.Interval.mk.injEq] at this
  have M1 := mul_le_mul_of_nonneg_right m1 hkr.le
  have M2 := mul_le_mul_of_nonneg_right m2 hkr.le
  have C1 := mul_le_mul_of_nonneg_right c1 hkr.le
  have C2 := mul_le_mul_of_nonneg_right c2 hkr.le
  have K1 := mul_le_mul_of_nonneg_right k1 hk0
  have K2 := mul_le_mul_of_nonneg_right k2 hk0
  have C3 := mul_le_mul_of_nonneg_right c3 hk0
  cases f with
  | hpB0 =>
    simp only [Coef.Parts.numerator, Coef.exactNum]
    refine ⟨⟨?_, ?_⟩, hden, hK, ?_, hdw, ?_⟩
    · rw [Int.cast_mul, Int.cast_natCast]; linarith
    · push_cast; rw [hPint]; linarith
    · linarith
    · rintro (e | ⟨e, -⟩)
      · exact ⟨by rw [(hce e).1, (hce e).2, max_eq_right (by omega)], (hde (.inl e)).1⟩
      · cases e
  | hpB1 =>
    simp only [Coef.Parts.numerator, Coef.exactNum]
    refine ⟨⟨?_, ?_⟩, hden, hK, ?_, hdw, ?_⟩
    · push_cast; rw [hPint]; linarith
    · rw [Int.cast_mul, Int.cast_mul, Int.cast_natCast]; push_cast at M1 ⊢; linarith
    · linarith
    · rintro (e | ⟨e, -⟩)
      · exact ⟨by rw [(hce e).1, (hce e).2, max_eq_right (by omega)], (hde (.inl e)).1⟩
      · cases e
  | lpB0 =>
    simp only [Coef.Parts.numerator, Coef.exactNum]
    refine ⟨⟨?_, ?_⟩, hden, hK, ?_, hdw, ?_⟩
    · rw [Int.cast_mul, Int.cast_natCast]; linarith
    · push_cast; rw [hPint]; linarith
    · linarith
    · rintro (e | ⟨e, -⟩)
      · exact ⟨by rw [(hce e).1, (hce e).2, max_eq_right (by omega)], (hde (.inl e)).1⟩
      · cases e
  | lpB1 =>
    simp only [Coef.Parts.numerator, Coef.exactNum]
    refine ⟨⟨?_, ?_⟩, hden, hK, ?_, hdw, ?_⟩
    · rw [Int.cast_mul, Int.cast_mul, Int.cast_natCast]; push_cast at M2 ⊢; linarith
    · push_cast; rw [hPint]; linarith
    · linarith
    · rintro (e | ⟨e, -⟩)
      · exact ⟨by rw [(hce e).1, (hce e).2, max_eq_right (by omega)], (hde (.inl e)).1⟩
      · cases e
  | a1 =>
    simp only [Coef.Parts.numerator, Coef.exactNum]
    refine ⟨⟨?_, ?_⟩, hden, hK, ?_, hdw, ?_⟩
    · push_cast; linarith
    · push_cast; linarith
    · linarith
    · rintro (e | ⟨e, -⟩)
      · exact ⟨by rw [(hce e).1, (hce e).2], (hde (.inl e)).1⟩
      · cases e
  | a2 =>
    simp only [Coef.Parts.numerator, Coef.exactNum]
    have e : (1 - al) * (2 * k * Coef.scale p) =
        2 * k * (Pi : ℝ) - Coef.scale p * s * 2 ^ 149 := by rw [hPint]; linarith
    refine ⟨⟨?_, ?_⟩, hden, hK, ?_, hdw, ?_⟩
    · rw [e]; push_cast; linarith
    · rw [e]; push_cast; linarith
    · linarith
    · intro e
      have e' := hde (by rcases e with e | ⟨-, e⟩; exacts [.inl e, .inr e])
      exact ⟨by rw [e'.2], e'.1⟩

/-- An end of a quotient's enclosure, and how far it is from the quotient. -/
theorem Coef.quotient_near {N D W : ℝ} {n d : Int} (hd : 0 < d) (hD : 0 < D)
    (hn : |(n : ℝ) - N| ≤ W) (hdw : |(d : ℝ) - D| ≤ W) :
    |(n : ℝ) / (d.toNat : ℝ) - N / D| ≤ (1 + |N / D|) * W / d := by
  have hc : ((d.toNat : ℕ) : ℝ) = d := by exact_mod_cast Int.toNat_of_nonneg hd.le
  have hdr : (0 : ℝ) < d := by exact_mod_cast hd
  have e : (n : ℝ) / d - N / D = ((n - N) - N / D * (d - D)) / d := by field_simp; ring
  rw [hc, e, abs_div, abs_of_pos hdr]
  refine div_le_div_of_nonneg_right ?_ hdr.le
  refine (abs_sub _ _).trans ?_
  rw [abs_mul]
  have := mul_le_mul_of_nonneg_left hdw (abs_nonneg (N / D))
  linarith

/-- From some precision on the two ends of a formula's enclosure round alike. -/
theorem Coef.roundAt_eventually {fc q fs : Word} (h : Coef.inDomain fc q fs = true) (f : Coef.Formula) :
    ∃ P, ∀ p, P ≤ p → (Coef.roundAt fc q fs f p).isSome = true := by
  obtain ⟨-, -, -, -, -, -, h1, h2, h3⟩ := (Coef.inDomain_iff fc q fs).1 h
  have hkr : (0 : ℝ) < F32.units q := by exact_mod_cast h2
  have hal := Coef.al_pos h
  -- an exact enclosure
  have hex : (4 * F32.units fc = F32.units fs ∨
      (f = .a2 ∧ (12 * F32.units fc = F32.units fs ∨ 12 * F32.units fc = 5 * F32.units fs))) →
      ∃ P, ∀ p, P ≤ p → (Coef.roundAt fc q fs f p).isSome = true := by
    intro e
    refine ⟨512, fun p hp => ?_⟩
    obtain ⟨e1, e2⟩ := (Coef.parts_encloses h hp f).2.2.2.2.2 e
    simp only [Coef.roundAt, Coef.roundQuotient, e1, e2]
    simp
  rcases Coef.exact_cases h f with e | e | hr
  · exact hex (.inl e)
  · exact hex (.inr e)
  clear hex
  obtain ⟨ε, hε, w, hw⟩ := F32.rnd32_near (r := Coef.exact fc q fs f) (by tauto)
  -- a precision at which both ends are nearer than `ε`
  obtain ⟨m, hm⟩ := pow_unbounded_of_one_lt
    ((1 + |Coef.exact fc q fs f|) * (64 * (F32.units q + 2 ^ 149)) / (2 * F32.units q) / ε)
    (show (1 : ℝ) < 2 by norm_num)
  refine ⟨max 512 m, fun p hp => ?_⟩
  have hp' : 512 ≤ p := le_trans (le_max_left _ _) hp
  have hmp : (2 : ℝ) ^ m ≤ Coef.scale p :=
    pow_le_pow_right₀ (by norm_num) (le_trans (le_max_right _ _) hp)
  obtain ⟨⟨n1, n2⟩, ⟨d1, d2⟩, hK, hnw, hdw, -⟩ := Coef.parts_encloses h hp' f
  have hP := Coef.scale_pos p
  have hKpos : 0 < 2 * (F32.units q : ℝ) * Coef.scale p := by positivity
  have hexact : Coef.exact fc q fs f =
      Coef.exactNum f (Real.cos (Coef.w0 fc fs)) (Coef.al fc q fs) * (2 * F32.units q * Coef.scale p) /
      ((1 + Coef.al fc q fs) * (2 * F32.units q * Coef.scale p)) := by
    rw [Coef.exact, mul_div_mul_right _ _ hKpos.ne']
  have hD : 0 < (1 + Coef.al fc q fs) * (2 * F32.units q * Coef.scale p) := by positivity
  simp only [Coef.roundAt, Coef.roundQuotient]
  generalize (Coef.parts fc q fs p).numerator f = n at *
  generalize (Coef.parts fc q fs p).den = d at *
  have hdlo : 0 < d.lo := by
    have : (0 : ℝ) < d.lo := lt_of_lt_of_le hKpos hK
    exact_mod_cast this
  have hdhi : 0 < d.hi := by
    have : (0 : ℝ) < d.hi := by linarith
    exact_mod_cast this
  have hnwr : (n.hi : ℝ) ≤ n.lo + 64 * (F32.units q + 2 ^ 149) := by exact_mod_cast hnw
  have hdwr : (d.hi : ℝ) ≤ d.lo + 64 * (F32.units q + 2 ^ 149) := by exact_mod_cast hdw
  have near : ∀ (a b : Int), (a = n.lo ∨ a = n.hi) → (b = d.lo ∨ b = d.hi) →
      F32.rnd32 a b.toNat = w := by
    intro a b ha hb
    have hbpos : 0 < b := by rcases hb with rfl | rfl <;> assumption
    have hbK : 2 * (F32.units q : ℝ) * Coef.scale p ≤ b := by
      rcases hb with rfl | rfl
      · exact hK
      · linarith
    refine hw _ _ (by omega) ?_
    have hq := Coef.quotient_near (n := a) (d := b) (W := 64 * (F32.units q + 2 ^ 149)) hbpos hD
      (N := Coef.exactNum f (Real.cos (Coef.w0 fc fs)) (Coef.al fc q fs) *
        (2 * F32.units q * Coef.scale p))
      (by rw [abs_le]; rcases ha with rfl | rfl <;> constructor <;> linarith)
      (by rw [abs_le]; rcases hb with rfl | rfl <;> constructor <;> linarith)
    rw [← hexact] at hq
    refine lt_of_le_of_lt hq ?_
    have hW : 0 ≤ (1 + |Coef.exact fc q fs f|) * (64 * ((F32.units q : ℝ) + 2 ^ 149)) := by positivity
    refine lt_of_le_of_lt (div_le_div_of_nonneg_left hW hKpos hbK) ?_
    have hm2 := lt_of_lt_of_le hm hmp
    rw [div_lt_iff₀ hε, div_lt_iff₀ (by positivity)] at hm2
    rw [div_lt_iff₀ hKpos]
    linarith
  have e1 : F32.rnd32 n.lo (if 0 ≤ n.lo then d.hi.toNat else d.lo.toNat) = w := by
    split_ifs
    · exact near _ _ (.inl rfl) (.inr rfl)
    · exact near _ _ (.inl rfl) (.inl rfl)
  have e2 : F32.rnd32 n.hi (if 0 ≤ n.hi then d.lo.toNat else d.hi.toNat) = w := by
    split_ifs
    · exact near _ _ (.inr rfl) (.inl rfl)
    · exact near _ _ (.inr rfl) (.inr rfl)
  rw [e1, e2]
  simp

theorem Coef.search_eq (round : Nat → Option Word) (p : Nat) :
    Coef.search round p = match round p with | some w => some w | none => Coef.search round (2 * p) :=
  (Coef.search.eq_def round p).trans (by cases round p <;> rfl)

/-- A search that meets a precision that decides ends, at a precision that decides. -/
theorem Coef.search_some (round : Nat → Option Word) (i : Nat) :
    ∀ p, (round (p * 2 ^ i)).isSome = true →
      ∃ p' w, p ≤ p' ∧ round p' = some w ∧ Coef.search round p = some w := by
  induction i with
  | zero =>
    intro p h
    rw [pow_zero, mul_one] at h
    obtain ⟨w, hw⟩ := Option.isSome_iff_exists.1 h
    exact ⟨p, w, le_rfl, hw, by rw [Coef.search_eq, hw]⟩
  | succ i ih =>
    intro p h
    cases hr : round p with
    | some w => exact ⟨p, w, le_rfl, hr, by rw [Coef.search_eq, hr]⟩
    | none =>
      obtain ⟨p', w, h1, h2, h3⟩ := ih (2 * p) (by rw [show 2 * p * 2 ^ i = p * 2 ^ (i + 1) by ring]; exact h)
      exact ⟨p', w, by omega, h2, by rw [Coef.search_eq, hr]; exact h3⟩

/-- In the domain of the formulas every coefficient is the rounding of both ends of an enclosure. -/
theorem Coef.value_decided {fc q fs : Word} (h : Coef.inDomain fc q fs = true) (f : Coef.Formula) :
    ∃ p, 512 ≤ p ∧ Coef.roundAt fc q fs f p = some (Coef.value fc q fs f) := by
  rw [Coef.value, if_pos h, Coef.entry]
  cases hr : Coef.roundAt fc q fs f Coef.firstBits with
  | some w => exact ⟨512, le_rfl, hr⟩
  | none =>
    obtain ⟨P, hP⟩ := Coef.roundAt_eventually h f
    have hpow : P ≤ 2 * Coef.firstBits * 2 ^ P :=
      Nat.lt_two_pow_self.le.trans (Nat.le_mul_of_pos_left _ (by decide))
    obtain ⟨p, w, h1, h2, h3⟩ := Coef.search_some _ P _ (hP _ hpow)
    refine ⟨p, le_trans (by decide) h1, ?_⟩
    rw [h2, h3]
    rfl

end Sys2Proof.Machine
end

