-- ==== Sys2Proof/Laws/Memory.lean ====
section
/-! SUPPORT. The laws of the memories: read after write, what a write leaves alone, the canonical form
kept by every operation, and the splice of `clearWords` against the loop of R211. -/

namespace Sys2Proof.Machine

/-! One byte -/

@[simp] theorem Memory.get_nil (a : Nat) : Memory.get [] a = none := rfl

theorem Memory.get_cons (k : Nat) (v : Byte) (m : Memory) (a : Nat) :
    Memory.get ((k, v) :: m) a = if a = k then some v else Memory.get m a := rfl

theorem Memory.get_set_self (m : Memory) (a : Nat) (b : Byte) :
    Memory.get (Memory.set m a b) a = some b := by
  induction m with
  | nil => simp [Memory.set, Memory.get]
  | cons x m ih =>
    obtain ⟨k, v⟩ := x
    rw [Memory.set]
    split_ifs with h1 h2
    · simp [Memory.get]
    · simp [Memory.get]
    · rw [Memory.get_cons, if_neg h2, ih]

theorem Memory.get_set_other (m : Memory) {a a' : Nat} (b : Byte) (h : a' ≠ a) :
    Memory.get (Memory.set m a b) a' = Memory.get m a' := by
  induction m with
  | nil => simp [Memory.set, Memory.get, h]
  | cons x m ih =>
    obtain ⟨k, v⟩ := x
    rw [Memory.set]
    split_ifs with h1 h2
    · rw [Memory.get_cons, if_neg h]
    · subst h2
      rw [Memory.get_cons, Memory.get_cons, if_neg h, if_neg h]
    · rw [Memory.get_cons, Memory.get_cons, ih]

theorem Memory.mem_set {m : Memory} {a : Nat} {b : Byte} {x : Host.Cell}
    (h : x ∈ Memory.set m a b) : x = (a, b) ∨ x ∈ m := by
  induction m with
  | nil => simpa [Memory.set] using h
  | cons y m ih =>
    obtain ⟨k, v⟩ := y
    rw [Memory.set] at h
    split_ifs at h with h1 h2
    · simpa using h
    · rcases List.mem_cons.1 h with h | h
      · exact .inl h
      · exact .inr (List.mem_cons_of_mem _ h)
    · rcases List.mem_cons.1 h with h | h
      · exact .inr (by simp [h])
      · exact (ih h).imp id (List.mem_cons_of_mem _)

/-- A byte write keeps the canonical form. -/
theorem Memory.set_wf {m : Memory} (a : Nat) (b : Byte) (h : Memory.wf m) :
    Memory.wf (Memory.set m a b) := by
  induction m with
  | nil => simp [Memory.set, Memory.wf]
  | cons x m ih =>
    obtain ⟨k, v⟩ := x
    have hk : ∀ y ∈ m, k < y.1 := fun y hy => (List.pairwise_cons.1 h).1 y hy
    have hm : Memory.wf m := (List.pairwise_cons.1 h).2
    rw [Memory.set]
    split_ifs with h1 h2
    · refine List.pairwise_cons.2 ⟨fun y hy => ?_, h⟩
      rcases List.mem_cons.1 hy with rfl | hy
      · exact h1
      · exact h1.trans (hk y hy)
    · subst h2
      exact List.pairwise_cons.2 ⟨hk, hm⟩
    · refine List.pairwise_cons.2 ⟨fun y hy => ?_, ih hm⟩
      rcases Memory.mem_set hy with rfl | hy
      · exact lt_of_le_of_ne (not_lt.1 h1) (Ne.symm h2)
      · exact hk y hy

/-! One word -/

theorem Memory.get_setWord_inside (m : Memory) (a k : Nat) (v : Word) (hk : k < 4) :
    Memory.get (Memory.setWord m a v) (a + k) = some (v.extractLsb' (8 * k) 8) := by
  have : k = 0 ∨ k = 1 ∨ k = 2 ∨ k = 3 := by omega
  rcases this with rfl | rfl | rfl | rfl
  · simp only [Memory.setWord, Nat.add_zero]
    rw [Memory.get_set_other _ _ (by omega), Memory.get_set_other _ _ (by omega),
      Memory.get_set_other _ _ (by omega), Memory.get_set_self]
  · simp only [Memory.setWord]
    rw [Memory.get_set_other _ _ (by omega), Memory.get_set_other _ _ (by omega),
      Memory.get_set_self]
  · simp only [Memory.setWord]
    rw [Memory.get_set_other _ _ (by omega), Memory.get_set_self]
  · simp only [Memory.setWord]
    rw [Memory.get_set_self]

/-- Bytes outside the word written read as before. -/
theorem Memory.get_setWord_outside (m : Memory) {a a' : Nat} (v : Word)
    (h : a' < a ∨ a + 4 ≤ a') : Memory.get (Memory.setWord m a v) a' = Memory.get m a' := by
  simp only [Memory.setWord]
  rw [Memory.get_set_other _ _ (by omega), Memory.get_set_other _ _ (by omega),
    Memory.get_set_other _ _ (by omega), Memory.get_set_other _ _ (by omega)]

/-- Read after write of the same word gives the value written, whatever the draw. -/
theorem Memory.getWord_setWord_self (m : Memory) (n a : Nat) (v : Word) :
    Memory.getWord (Memory.setWord m a v) n a = v := by
  simp only [Memory.getWord, Memory.byteAt]
  rw [Memory.get_setWord_inside _ _ _ _ (by omega : 0 < 4),
    Memory.get_setWord_inside _ _ _ _ (by omega : 1 < 4),
    Memory.get_setWord_inside _ _ _ _ (by omega : 2 < 4),
    Memory.get_setWord_inside _ _ _ _ (by omega : 3 < 4)]
  simpa using wordOfBytes_extract v

/-- Two memories that list the same bytes of a word read the same word there. -/
theorem Memory.getWord_congr {m m' : Memory} (n a : Nat)
    (h : ∀ k < 4, Memory.get m (a + k) = Memory.get m' (a + k)) :
    Memory.getWord m n a = Memory.getWord m' n a := by
  simp only [Memory.getWord, Memory.byteAt]
  rw [h 0 (by omega), h 1 (by omega), h 2 (by omega), h 3 (by omega)]

/-- Read after write of another word reads as before. -/
theorem Memory.getWord_setWord_other (m : Memory) (n : Nat) {a a' : Nat} (v : Word)
    (h : a' + 4 ≤ a ∨ a + 4 ≤ a') :
    Memory.getWord (Memory.setWord m a v) n a' = Memory.getWord m n a' :=
  Memory.getWord_congr _ _ fun k hk => Memory.get_setWord_outside _ _ (by omega)

/-- A word write keeps the canonical form. -/
theorem Memory.setWord_wf {m : Memory} (a : Nat) (v : Word) (h : Memory.wf m) :
    Memory.wf (Memory.setWord m a v) :=
  Memory.set_wf _ _ (Memory.set_wf _ _ (Memory.set_wf _ _ (Memory.set_wf _ _ h)))

/-- A word all of whose bytes are listed reads the same at every draw. -/
theorem Memory.getWord_of_listed {m : Memory} {a : Nat} {v : Word}
    (h : ∀ k < 4, Memory.get m (a + k) = some (v.extractLsb' (8 * k) 8)) (n : Nat) :
    Memory.getWord m n a = v := by
  simp only [Memory.getWord, Memory.byteAt]
  rw [h 0 (by omega), h 1 (by omega), h 2 (by omega), h 3 (by omega)]
  simpa using wordOfBytes_extract v

/-! Splices -/

theorem Memory.get_append (m m' : Memory) (a : Nat) :
    Memory.get (m ++ m') a = (Memory.get m a).or (Memory.get m' a) := by
  induction m with
  | nil => simp [Memory.get]
  | cons x m ih =>
    obtain ⟨k, v⟩ := x
    rw [List.cons_append, Memory.get_cons, Memory.get_cons]
    split_ifs
    · rfl
    · exact ih

theorem Memory.get_eq_none {m : Memory} {a : Nat} (h : ∀ x ∈ m, x.1 ≠ a) :
    Memory.get m a = none := by
  induction m with
  | nil => rfl
  | cons x m ih =>
    obtain ⟨k, v⟩ := x
    rw [Memory.get_cons, if_neg (Ne.symm (h (k, v) (by simp)))]
    exact ih fun y hy => h y (List.mem_cons_of_mem _ hy)

theorem Memory.get_filter {m : Memory} {p : Host.Cell → Bool} {a : Nat}
    (h : ∀ v : Byte, p (a, v) = true) : Memory.get (m.filter p) a = Memory.get m a := by
  induction m with
  | nil => rfl
  | cons x m ih =>
    obtain ⟨k, v⟩ := x
    rw [List.filter_cons]
    by_cases hk : a = k
    · subst hk
      rw [if_pos (h v), Memory.get_cons, Memory.get_cons, if_pos rfl, if_pos rfl]
    · split_ifs
      · rw [Memory.get_cons, Memory.get_cons, if_neg hk, if_neg hk, ih]
      · rw [Memory.get_cons, if_neg hk, ih]

theorem Memory.get_zeros (a count k : Nat) (hk : k < count) :
    Memory.get ((List.range count).map fun j => ((a + j, 0) : Host.Cell)) (a + k) = some 0 := by
  induction count with
  | zero => omega
  | succ c ih =>
    rw [List.range_succ, List.map_append, Memory.get_append]
    by_cases hc : k < c
    · rw [ih hc]; rfl
    · have : k = c := by omega
      subst this
      rw [Memory.get_eq_none (by simp; omega)]
      simp [Memory.get]

/-- Every byte of the region `clearWords` writes is listed as 0. -/
theorem Memory.get_clearWords_inside (m : Memory) (a count a' : Nat)
    (h1 : a ≤ a') (h2 : a' < a + 4 * count) :
    Memory.get (Memory.clearWords m a count) a' = some 0 := by
  rw [Memory.clearWords, Memory.get_append, Memory.get_append,
    Memory.get_eq_none (m := m.filter _) (by simp; omega)]
  have := Memory.get_zeros a (4 * count) (a' - a) (by omega)
  rw [show a + (a' - a) = a' by omega] at this
  rw [this]; rfl

/-- Every byte outside the region reads as before. -/
theorem Memory.get_clearWords_outside (m : Memory) (a count a' : Nat)
    (h : a' < a ∨ a + 4 * count ≤ a') :
    Memory.get (Memory.clearWords m a count) a' = Memory.get m a' := by
  rw [Memory.clearWords, Memory.get_append, Memory.get_append,
    Memory.get_eq_none (m := (List.range _).map _) (by simp; omega)]
  rcases h with h | h
  · rw [Memory.get_filter (by simp; omega), Memory.get_eq_none (m := m.filter _) (by simp; omega)]
    simp
  · rw [Memory.get_eq_none (m := m.filter fun x => decide (x.1 < a)) (by simp; omega),
      Memory.get_filter (by simp; omega)]
    simp

/-- A cleared word reads `+0.0` at every draw. -/
theorem Memory.getWord_clearWords (m : Memory) (n a count k : Nat) (hk : k < count) :
    Memory.getWord (Memory.clearWords m a count) n (a + 4 * k) = 0 := by
  refine Memory.getWord_of_listed (fun j hj => ?_) n
  rw [Memory.get_clearWords_inside _ _ _ _ (by omega) (by omega)]
  simp

theorem Memory.clearWords_wf {m : Memory} (a count : Nat) (h : Memory.wf m) :
    Memory.wf (Memory.clearWords m a count) := by
  rw [Memory.clearWords, Memory.wf, List.pairwise_append, List.pairwise_append]
  refine ⟨⟨h.filter _, ?_, ?_⟩, h.filter _, ?_⟩
  · rw [List.pairwise_map]
    exact List.pairwise_lt_range.imp fun h => by simpa using h
  · intro x hx y hy
    simp only [List.mem_filter, decide_eq_true_eq, List.mem_map, List.mem_range] at hx hy
    obtain ⟨k, -, rfl⟩ := hy
    have := hx.2
    simp only; omega
  · intro x hx y hy
    simp only [List.mem_append, List.mem_filter, decide_eq_true_eq, List.mem_map,
      List.mem_range] at hx hy
    rcases hx with ⟨-, hx⟩ | ⟨k, hk, rfl⟩
    · have := hy.2; omega
    · have := hy.2; simp only; omega

/-! Canonical memories are determined by what they list -/

theorem Memory.wf_tail {x : Host.Cell} {m : Memory} (h : Memory.wf (x :: m)) : Memory.wf m :=
  (List.pairwise_cons.1 h).2

theorem Memory.get_of_head_lt {k : Nat} {v : Byte} {m : Memory} (h : Memory.wf ((k, v) :: m))
    {a : Nat} (ha : a ≤ k) : Memory.get m a = none :=
  Memory.get_eq_none fun y hy => by
    have := (List.pairwise_cons.1 h).1 y hy
    simp only at this; omega

/-- Equal memories are equal data: two canonical memories that list the same bytes are equal. -/
theorem Memory.ext {m m' : Memory} (h : Memory.wf m) (h' : Memory.wf m')
    (hg : ∀ a, Memory.get m a = Memory.get m' a) : m = m' := by
  induction m generalizing m' with
  | nil =>
    cases m' with
    | nil => rfl
    | cons y t =>
      obtain ⟨k, v⟩ := y
      have := hg k
      simp [Memory.get] at this
  | cons x t ih =>
    obtain ⟨k, v⟩ := x
    cases m' with
    | nil =>
      have := hg k
      simp [Memory.get] at this
    | cons y t' =>
      obtain ⟨k', v'⟩ := y
      have hk : k = k' := by
        rcases Nat.lt_trichotomy k k' with hlt | heq | hlt
        · have := hg k
          rw [Memory.get_cons, if_pos rfl, Memory.get_cons, if_neg (by omega),
            Memory.get_of_head_lt h' (by omega)] at this
          simp at this
        · exact heq
        · have := hg k'
          rw [Memory.get_cons, Memory.get_cons, if_pos rfl, if_neg (by omega),
            Memory.get_of_head_lt h (by omega)] at this
          simp at this
      subst hk
      have hv : v = v' := by
        have := hg k
        simpa [Memory.get] using this
      subst hv
      rw [ih (Memory.wf_tail h) (Memory.wf_tail h') fun a => ?_]
      by_cases ha : a = k
      · subst ha
        rw [Memory.get_of_head_lt h le_rfl, Memory.get_of_head_lt h' le_rfl]
      · have := hg a
        rwa [Memory.get_cons, Memory.get_cons, if_neg ha, if_neg ha] at this

/-- The loop of R211, `for j in 0 .. count-1: MemWrite(RING[c], j, 1, +0.0)`. -/
def Memory.clearLoop (m : Memory) (a : Nat) : Nat → Memory
  | 0 => m
  | count + 1 => Memory.setWord (Memory.clearLoop m a count) (a + 4 * count) 0

/-- `clearWords` is that loop. -/
theorem Memory.clearWords_eq_loop {m : Memory} (h : Memory.wf m) (a count : Nat) :
    Memory.clearWords m a count = Memory.clearLoop m a count := by
  have key : Memory.wf (Memory.clearLoop m a count) ∧ ∀ a',
      Memory.get (Memory.clearLoop m a count) a' = Memory.get (Memory.clearWords m a count) a' := by
    induction count with
    | zero =>
      refine ⟨h, fun a' => ?_⟩
      rw [Memory.get_clearWords_outside _ _ _ _ (by omega)]
      rfl
    | succ c ih =>
      refine ⟨Memory.setWord_wf _ _ ih.1, fun a' => ?_⟩
      rw [Memory.clearLoop]
      by_cases hin : a + 4 * c ≤ a' ∧ a' < a + 4 * c + 4
      · rw [Memory.get_clearWords_inside _ _ _ _ (by omega) (by omega),
          show a' = a + 4 * c + (a' - (a + 4 * c)) by omega,
          Memory.get_setWord_inside _ _ _ _ (by omega)]
        simp
      · rw [Memory.get_setWord_outside _ _ (by omega), ih.2]
        by_cases hr : a ≤ a' ∧ a' < a + 4 * c
        · rw [Memory.get_clearWords_inside _ _ _ _ hr.1 hr.2,
            Memory.get_clearWords_inside _ _ _ _ hr.1 (by omega)]
        · rw [Memory.get_clearWords_outside _ _ _ _ (by omega),
            Memory.get_clearWords_outside _ _ _ _ (by omega)]
  exact Memory.ext (Memory.clearWords_wf _ _ h) key.1 fun a' => (key.2 a').symm

end Sys2Proof.Machine
end

