-- ==== Sys2Proof/Laws/State.lean ====
section
/-! SUPPORT. One lemma per field per update of the state, each true by unfolding the update once, so
that no later proof unfolds a record update. -/

namespace Sys2Proof.Machine

/-! `State.setHistory` -/

@[simp] theorem State.setHistory_engState (s : State) (st : Stage) (c : Channel) (h : History) :
    (State.setHistory s st c h).engState = s.engState := rfl
@[simp] theorem State.setHistory_cfgFs (s : State) (st : Stage) (c : Channel) (h : History) :
    (State.setHistory s st c h).cfgFs = s.cfgFs := rfl
@[simp] theorem State.setHistory_cfgNch (s : State) (st : Stage) (c : Channel) (h : History) :
    (State.setHistory s st c h).cfgNch = s.cfgNch := rfl
@[simp] theorem State.setHistory_cfgMaxMs (s : State) (st : Stage) (c : Channel) (h : History) :
    (State.setHistory s st c h).cfgMaxMs = s.cfgMaxMs := rfl
@[simp] theorem State.setHistory_capacity (s : State) (st : Stage) (c : Channel) (h : History) :
    (State.setHistory s st c h).capacity = s.capacity := rfl
@[simp] theorem State.setHistory_writePos (s : State) (st : Stage) (c : Channel) (h : History) :
    (State.setHistory s st c h).writePos = s.writePos := rfl
@[simp] theorem State.setHistory_sm (s : State) (st : Stage) (c : Channel) (h : History) :
    (State.setHistory s st c h).sm = s.sm := rfl
@[simp] theorem State.setHistory_cf (s : State) (st : Stage) (c : Channel) (h : History) :
    (State.setHistory s st c h).cf = s.cf := rfl
@[simp] theorem State.setHistory_fh (s : State) (st : Stage) (c : Channel) (h : History) :
    (State.setHistory s st c h).fh = PerStage.set s.fh st (PerChannel.set (PerStage.get s.fh st) c h) := rfl
@[simp] theorem State.setHistory_ring (s : State) (st : Stage) (c : Channel) (h : History) :
    (State.setHistory s st c h).ring = s.ring := rfl
@[simp] theorem State.setHistory_buf (s : State) (st : Stage) (c : Channel) (h : History) :
    (State.setHistory s st c h).buf = s.buf := rfl
@[simp] theorem State.setHistory_cause (s : State) (st : Stage) (c : Channel) (h : History) :
    (State.setHistory s st c h).cause = s.cause := rfl
@[simp] theorem State.setHistory_esticky (s : State) (st : Stage) (c : Channel) (h : History) :
    (State.setHistory s st c h).esticky = s.esticky := rfl
@[simp] theorem State.setHistory_argFs (s : State) (st : Stage) (c : Channel) (h : History) :
    (State.setHistory s st c h).argFs = s.argFs := rfl
@[simp] theorem State.setHistory_argNch (s : State) (st : Stage) (c : Channel) (h : History) :
    (State.setHistory s st c h).argNch = s.argNch := rfl
@[simp] theorem State.setHistory_argMaxMs (s : State) (st : Stage) (c : Channel) (h : History) :
    (State.setHistory s st c h).argMaxMs = s.argMaxMs := rfl
@[simp] theorem State.setHistory_argNsamp (s : State) (st : Stage) (c : Channel) (h : History) :
    (State.setHistory s st c h).argNsamp = s.argNsamp := rfl
@[simp] theorem State.setHistory_param (s : State) (st : Stage) (c : Channel) (h : History) :
    (State.setHistory s st c h).param = s.param := rfl
@[simp] theorem State.setHistory_host (s : State) (st : Stage) (c : Channel) (h : History) :
    (State.setHistory s st c h).host = s.host := rfl
@[simp] theorem State.setHistory_landing (s : State) (st : Stage) (c : Channel) (h : History) :
    (State.setHistory s st c h).landing = s.landing := rfl
@[simp] theorem State.setHistory_rdata (s : State) (st : Stage) (c : Channel) (h : History) :
    (State.setHistory s st c h).rdata = s.rdata := rfl
@[simp] theorem State.setHistory_draws (s : State) (st : Stage) (c : Channel) (h : History) :
    (State.setHistory s st c h).draws = s.draws := rfl

/-! `State.setCoefs` -/

@[simp] theorem State.setCoefs_engState (s : State) (st : Stage) (k : Coefs) :
    (State.setCoefs s st k).engState = s.engState := rfl
@[simp] theorem State.setCoefs_cfgFs (s : State) (st : Stage) (k : Coefs) :
    (State.setCoefs s st k).cfgFs = s.cfgFs := rfl
@[simp] theorem State.setCoefs_cfgNch (s : State) (st : Stage) (k : Coefs) :
    (State.setCoefs s st k).cfgNch = s.cfgNch := rfl
@[simp] theorem State.setCoefs_cfgMaxMs (s : State) (st : Stage) (k : Coefs) :
    (State.setCoefs s st k).cfgMaxMs = s.cfgMaxMs := rfl
@[simp] theorem State.setCoefs_capacity (s : State) (st : Stage) (k : Coefs) :
    (State.setCoefs s st k).capacity = s.capacity := rfl
@[simp] theorem State.setCoefs_writePos (s : State) (st : Stage) (k : Coefs) :
    (State.setCoefs s st k).writePos = s.writePos := rfl
@[simp] theorem State.setCoefs_sm (s : State) (st : Stage) (k : Coefs) :
    (State.setCoefs s st k).sm = s.sm := rfl
@[simp] theorem State.setCoefs_cf (s : State) (st : Stage) (k : Coefs) :
    (State.setCoefs s st k).cf = PerStage.set s.cf st k := rfl
@[simp] theorem State.setCoefs_fh (s : State) (st : Stage) (k : Coefs) :
    (State.setCoefs s st k).fh = s.fh := rfl
@[simp] theorem State.setCoefs_ring (s : State) (st : Stage) (k : Coefs) :
    (State.setCoefs s st k).ring = s.ring := rfl
@[simp] theorem State.setCoefs_buf (s : State) (st : Stage) (k : Coefs) :
    (State.setCoefs s st k).buf = s.buf := rfl
@[simp] theorem State.setCoefs_cause (s : State) (st : Stage) (k : Coefs) :
    (State.setCoefs s st k).cause = s.cause := rfl
@[simp] theorem State.setCoefs_esticky (s : State) (st : Stage) (k : Coefs) :
    (State.setCoefs s st k).esticky = s.esticky := rfl
@[simp] theorem State.setCoefs_argFs (s : State) (st : Stage) (k : Coefs) :
    (State.setCoefs s st k).argFs = s.argFs := rfl
@[simp] theorem State.setCoefs_argNch (s : State) (st : Stage) (k : Coefs) :
    (State.setCoefs s st k).argNch = s.argNch := rfl
@[simp] theorem State.setCoefs_argMaxMs (s : State) (st : Stage) (k : Coefs) :
    (State.setCoefs s st k).argMaxMs = s.argMaxMs := rfl
@[simp] theorem State.setCoefs_argNsamp (s : State) (st : Stage) (k : Coefs) :
    (State.setCoefs s st k).argNsamp = s.argNsamp := rfl
@[simp] theorem State.setCoefs_param (s : State) (st : Stage) (k : Coefs) :
    (State.setCoefs s st k).param = s.param := rfl
@[simp] theorem State.setCoefs_host (s : State) (st : Stage) (k : Coefs) :
    (State.setCoefs s st k).host = s.host := rfl
@[simp] theorem State.setCoefs_landing (s : State) (st : Stage) (k : Coefs) :
    (State.setCoefs s st k).landing = s.landing := rfl
@[simp] theorem State.setCoefs_rdata (s : State) (st : Stage) (k : Coefs) :
    (State.setCoefs s st k).rdata = s.rdata := rfl
@[simp] theorem State.setCoefs_draws (s : State) (st : Stage) (k : Coefs) :
    (State.setCoefs s st k).draws = s.draws := rfl

/-! `State.setEngState` -/

@[simp] theorem State.setEngState_engState (s : State) (e : EngState) :
    (State.setEngState s e).engState = e := rfl
@[simp] theorem State.setEngState_cfgFs (s : State) (e : EngState) :
    (State.setEngState s e).cfgFs = s.cfgFs := rfl
@[simp] theorem State.setEngState_cfgNch (s : State) (e : EngState) :
    (State.setEngState s e).cfgNch = s.cfgNch := rfl
@[simp] theorem State.setEngState_cfgMaxMs (s : State) (e : EngState) :
    (State.setEngState s e).cfgMaxMs = s.cfgMaxMs := rfl
@[simp] theorem State.setEngState_capacity (s : State) (e : EngState) :
    (State.setEngState s e).capacity = s.capacity := rfl
@[simp] theorem State.setEngState_writePos (s : State) (e : EngState) :
    (State.setEngState s e).writePos = s.writePos := rfl
@[simp] theorem State.setEngState_sm (s : State) (e : EngState) :
    (State.setEngState s e).sm = s.sm := rfl
@[simp] theorem State.setEngState_cf (s : State) (e : EngState) :
    (State.setEngState s e).cf = s.cf := rfl
@[simp] theorem State.setEngState_fh (s : State) (e : EngState) :
    (State.setEngState s e).fh = s.fh := rfl
@[simp] theorem State.setEngState_ring (s : State) (e : EngState) :
    (State.setEngState s e).ring = s.ring := rfl
@[simp] theorem State.setEngState_buf (s : State) (e : EngState) :
    (State.setEngState s e).buf = s.buf := rfl
@[simp] theorem State.setEngState_cause (s : State) (e : EngState) :
    (State.setEngState s e).cause = s.cause := rfl
@[simp] theorem State.setEngState_esticky (s : State) (e : EngState) :
    (State.setEngState s e).esticky = s.esticky := rfl
@[simp] theorem State.setEngState_argFs (s : State) (e : EngState) :
    (State.setEngState s e).argFs = s.argFs := rfl
@[simp] theorem State.setEngState_argNch (s : State) (e : EngState) :
    (State.setEngState s e).argNch = s.argNch := rfl
@[simp] theorem State.setEngState_argMaxMs (s : State) (e : EngState) :
    (State.setEngState s e).argMaxMs = s.argMaxMs := rfl
@[simp] theorem State.setEngState_argNsamp (s : State) (e : EngState) :
    (State.setEngState s e).argNsamp = s.argNsamp := rfl
@[simp] theorem State.setEngState_param (s : State) (e : EngState) :
    (State.setEngState s e).param = s.param := rfl
@[simp] theorem State.setEngState_host (s : State) (e : EngState) :
    (State.setEngState s e).host = s.host := rfl
@[simp] theorem State.setEngState_landing (s : State) (e : EngState) :
    (State.setEngState s e).landing = s.landing := rfl
@[simp] theorem State.setEngState_rdata (s : State) (e : EngState) :
    (State.setEngState s e).rdata = s.rdata := rfl
@[simp] theorem State.setEngState_draws (s : State) (e : EngState) :
    (State.setEngState s e).draws = s.draws := rfl

/-! `State.raise` -/

@[simp] theorem State.raise_engState (s : State) (c : Cause) :
    (State.raise s c).engState = s.engState := rfl
@[simp] theorem State.raise_cfgFs (s : State) (c : Cause) :
    (State.raise s c).cfgFs = s.cfgFs := rfl
@[simp] theorem State.raise_cfgNch (s : State) (c : Cause) :
    (State.raise s c).cfgNch = s.cfgNch := rfl
@[simp] theorem State.raise_cfgMaxMs (s : State) (c : Cause) :
    (State.raise s c).cfgMaxMs = s.cfgMaxMs := rfl
@[simp] theorem State.raise_capacity (s : State) (c : Cause) :
    (State.raise s c).capacity = s.capacity := rfl
@[simp] theorem State.raise_writePos (s : State) (c : Cause) :
    (State.raise s c).writePos = s.writePos := rfl
@[simp] theorem State.raise_sm (s : State) (c : Cause) :
    (State.raise s c).sm = s.sm := rfl
@[simp] theorem State.raise_cf (s : State) (c : Cause) :
    (State.raise s c).cf = s.cf := rfl
@[simp] theorem State.raise_fh (s : State) (c : Cause) :
    (State.raise s c).fh = s.fh := rfl
@[simp] theorem State.raise_ring (s : State) (c : Cause) :
    (State.raise s c).ring = s.ring := rfl
@[simp] theorem State.raise_buf (s : State) (c : Cause) :
    (State.raise s c).buf = s.buf := rfl
@[simp] theorem State.raise_cause (s : State) (c : Cause) :
    (State.raise s c).cause = c := rfl
@[simp] theorem State.raise_esticky (s : State) (c : Cause) :
    (State.raise s c).esticky = true := rfl
@[simp] theorem State.raise_argFs (s : State) (c : Cause) :
    (State.raise s c).argFs = s.argFs := rfl
@[simp] theorem State.raise_argNch (s : State) (c : Cause) :
    (State.raise s c).argNch = s.argNch := rfl
@[simp] theorem State.raise_argMaxMs (s : State) (c : Cause) :
    (State.raise s c).argMaxMs = s.argMaxMs := rfl
@[simp] theorem State.raise_argNsamp (s : State) (c : Cause) :
    (State.raise s c).argNsamp = s.argNsamp := rfl
@[simp] theorem State.raise_param (s : State) (c : Cause) :
    (State.raise s c).param = s.param := rfl
@[simp] theorem State.raise_host (s : State) (c : Cause) :
    (State.raise s c).host = s.host := rfl
@[simp] theorem State.raise_landing (s : State) (c : Cause) :
    (State.raise s c).landing = s.landing := rfl
@[simp] theorem State.raise_rdata (s : State) (c : Cause) :
    (State.raise s c).rdata = s.rdata := rfl
@[simp] theorem State.raise_draws (s : State) (c : Cause) :
    (State.raise s c).draws = s.draws := rfl

/-! `State.succeed` -/

@[simp] theorem State.succeed_engState (s : State) :
    (State.succeed s).engState = s.engState := rfl
@[simp] theorem State.succeed_cfgFs (s : State) :
    (State.succeed s).cfgFs = s.cfgFs := rfl
@[simp] theorem State.succeed_cfgNch (s : State) :
    (State.succeed s).cfgNch = s.cfgNch := rfl
@[simp] theorem State.succeed_cfgMaxMs (s : State) :
    (State.succeed s).cfgMaxMs = s.cfgMaxMs := rfl
@[simp] theorem State.succeed_capacity (s : State) :
    (State.succeed s).capacity = s.capacity := rfl
@[simp] theorem State.succeed_writePos (s : State) :
    (State.succeed s).writePos = s.writePos := rfl
@[simp] theorem State.succeed_sm (s : State) :
    (State.succeed s).sm = s.sm := rfl
@[simp] theorem State.succeed_cf (s : State) :
    (State.succeed s).cf = s.cf := rfl
@[simp] theorem State.succeed_fh (s : State) :
    (State.succeed s).fh = s.fh := rfl
@[simp] theorem State.succeed_ring (s : State) :
    (State.succeed s).ring = s.ring := rfl
@[simp] theorem State.succeed_buf (s : State) :
    (State.succeed s).buf = s.buf := rfl
@[simp] theorem State.succeed_cause (s : State) :
    (State.succeed s).cause = Cause.none := rfl
@[simp] theorem State.succeed_esticky (s : State) :
    (State.succeed s).esticky = s.esticky := rfl
@[simp] theorem State.succeed_argFs (s : State) :
    (State.succeed s).argFs = s.argFs := rfl
@[simp] theorem State.succeed_argNch (s : State) :
    (State.succeed s).argNch = s.argNch := rfl
@[simp] theorem State.succeed_argMaxMs (s : State) :
    (State.succeed s).argMaxMs = s.argMaxMs := rfl
@[simp] theorem State.succeed_argNsamp (s : State) :
    (State.succeed s).argNsamp = s.argNsamp := rfl
@[simp] theorem State.succeed_param (s : State) :
    (State.succeed s).param = s.param := rfl
@[simp] theorem State.succeed_host (s : State) :
    (State.succeed s).host = s.host := rfl
@[simp] theorem State.succeed_landing (s : State) :
    (State.succeed s).landing = s.landing := rfl
@[simp] theorem State.succeed_rdata (s : State) :
    (State.succeed s).rdata = s.rdata := rfl
@[simp] theorem State.succeed_draws (s : State) :
    (State.succeed s).draws = s.draws := rfl

/-! `State.landAll` -/

@[simp] theorem State.landAll_engState (s : State) :
    (State.landAll s).engState = s.engState := rfl
@[simp] theorem State.landAll_cfgFs (s : State) :
    (State.landAll s).cfgFs = s.cfgFs := rfl
@[simp] theorem State.landAll_cfgNch (s : State) :
    (State.landAll s).cfgNch = s.cfgNch := rfl
@[simp] theorem State.landAll_cfgMaxMs (s : State) :
    (State.landAll s).cfgMaxMs = s.cfgMaxMs := rfl
@[simp] theorem State.landAll_capacity (s : State) :
    (State.landAll s).capacity = s.capacity := rfl
@[simp] theorem State.landAll_writePos (s : State) :
    (State.landAll s).writePos = s.writePos := rfl
@[simp] theorem State.landAll_sm (s : State) :
    (State.landAll s).sm = s.sm := rfl
@[simp] theorem State.landAll_cf (s : State) :
    (State.landAll s).cf = s.cf := rfl
@[simp] theorem State.landAll_fh (s : State) :
    (State.landAll s).fh = s.fh := rfl
@[simp] theorem State.landAll_ring (s : State) :
    (State.landAll s).ring = s.ring := rfl
@[simp] theorem State.landAll_buf (s : State) :
    (State.landAll s).buf = s.buf := rfl
@[simp] theorem State.landAll_cause (s : State) :
    (State.landAll s).cause = s.cause := rfl
@[simp] theorem State.landAll_esticky (s : State) :
    (State.landAll s).esticky = s.esticky := rfl
@[simp] theorem State.landAll_argFs (s : State) :
    (State.landAll s).argFs = s.argFs := rfl
@[simp] theorem State.landAll_argNch (s : State) :
    (State.landAll s).argNch = s.argNch := rfl
@[simp] theorem State.landAll_argMaxMs (s : State) :
    (State.landAll s).argMaxMs = s.argMaxMs := rfl
@[simp] theorem State.landAll_argNsamp (s : State) :
    (State.landAll s).argNsamp = s.argNsamp := rfl
@[simp] theorem State.landAll_param (s : State) :
    (State.landAll s).param = s.landing.foldl Params.write s.param := rfl
@[simp] theorem State.landAll_host (s : State) :
    (State.landAll s).host = s.host := rfl
@[simp] theorem State.landAll_landing (s : State) :
    (State.landAll s).landing = [] := rfl
@[simp] theorem State.landAll_rdata (s : State) :
    (State.landAll s).rdata = s.rdata := rfl
@[simp] theorem State.landAll_draws (s : State) :
    (State.landAll s).draws = s.draws := rfl

/-! `latchConfig` -/

@[simp] theorem latchConfig_engState (fs nch ms : Word) (cap : Nat) (s : State) :
    (latchConfig fs nch ms cap s).engState = s.engState := rfl
@[simp] theorem latchConfig_cfgFs (fs nch ms : Word) (cap : Nat) (s : State) :
    (latchConfig fs nch ms cap s).cfgFs = fs := rfl
@[simp] theorem latchConfig_cfgNch (fs nch ms : Word) (cap : Nat) (s : State) :
    (latchConfig fs nch ms cap s).cfgNch = nch := rfl
@[simp] theorem latchConfig_cfgMaxMs (fs nch ms : Word) (cap : Nat) (s : State) :
    (latchConfig fs nch ms cap s).cfgMaxMs = ms := rfl
@[simp] theorem latchConfig_capacity (fs nch ms : Word) (cap : Nat) (s : State) :
    (latchConfig fs nch ms cap s).capacity = BitVec.ofNat 32 cap := rfl
@[simp] theorem latchConfig_writePos (fs nch ms : Word) (cap : Nat) (s : State) :
    (latchConfig fs nch ms cap s).writePos = 0 := rfl
@[simp] theorem latchConfig_sm (fs nch ms : Word) (cap : Nat) (s : State) :
    (latchConfig fs nch ms cap s).sm = s.sm := rfl
@[simp] theorem latchConfig_cf (fs nch ms : Word) (cap : Nat) (s : State) :
    (latchConfig fs nch ms cap s).cf = s.cf := rfl
@[simp] theorem latchConfig_fh (fs nch ms : Word) (cap : Nat) (s : State) :
    (latchConfig fs nch ms cap s).fh = s.fh := rfl
@[simp] theorem latchConfig_ring (fs nch ms : Word) (cap : Nat) (s : State) :
    (latchConfig fs nch ms cap s).ring = s.ring := rfl
@[simp] theorem latchConfig_buf (fs nch ms : Word) (cap : Nat) (s : State) :
    (latchConfig fs nch ms cap s).buf = s.buf := rfl
@[simp] theorem latchConfig_cause (fs nch ms : Word) (cap : Nat) (s : State) :
    (latchConfig fs nch ms cap s).cause = s.cause := rfl
@[simp] theorem latchConfig_esticky (fs nch ms : Word) (cap : Nat) (s : State) :
    (latchConfig fs nch ms cap s).esticky = s.esticky := rfl
@[simp] theorem latchConfig_argFs (fs nch ms : Word) (cap : Nat) (s : State) :
    (latchConfig fs nch ms cap s).argFs = s.argFs := rfl
@[simp] theorem latchConfig_argNch (fs nch ms : Word) (cap : Nat) (s : State) :
    (latchConfig fs nch ms cap s).argNch = s.argNch := rfl
@[simp] theorem latchConfig_argMaxMs (fs nch ms : Word) (cap : Nat) (s : State) :
    (latchConfig fs nch ms cap s).argMaxMs = s.argMaxMs := rfl
@[simp] theorem latchConfig_argNsamp (fs nch ms : Word) (cap : Nat) (s : State) :
    (latchConfig fs nch ms cap s).argNsamp = s.argNsamp := rfl
@[simp] theorem latchConfig_param (fs nch ms : Word) (cap : Nat) (s : State) :
    (latchConfig fs nch ms cap s).param = s.param := rfl
@[simp] theorem latchConfig_host (fs nch ms : Word) (cap : Nat) (s : State) :
    (latchConfig fs nch ms cap s).host = s.host := rfl
@[simp] theorem latchConfig_landing (fs nch ms : Word) (cap : Nat) (s : State) :
    (latchConfig fs nch ms cap s).landing = s.landing := rfl
@[simp] theorem latchConfig_rdata (fs nch ms : Word) (cap : Nat) (s : State) :
    (latchConfig fs nch ms cap s).rdata = s.rdata := rfl
@[simp] theorem latchConfig_draws (fs nch ms : Word) (cap : Nat) (s : State) :
    (latchConfig fs nch ms cap s).draws = s.draws := rfl

/-! `configure` -/

@[simp] theorem configure_engState (cfg : Config) (n : Nat) (st : Stage) (fc : Word) (s : State) :
    (configure cfg n st fc s).engState = s.engState := rfl
@[simp] theorem configure_cfgFs (cfg : Config) (n : Nat) (st : Stage) (fc : Word) (s : State) :
    (configure cfg n st fc s).cfgFs = s.cfgFs := rfl
@[simp] theorem configure_cfgNch (cfg : Config) (n : Nat) (st : Stage) (fc : Word) (s : State) :
    (configure cfg n st fc s).cfgNch = s.cfgNch := rfl
@[simp] theorem configure_cfgMaxMs (cfg : Config) (n : Nat) (st : Stage) (fc : Word) (s : State) :
    (configure cfg n st fc s).cfgMaxMs = s.cfgMaxMs := rfl
@[simp] theorem configure_capacity (cfg : Config) (n : Nat) (st : Stage) (fc : Word) (s : State) :
    (configure cfg n st fc s).capacity = s.capacity := rfl
@[simp] theorem configure_writePos (cfg : Config) (n : Nat) (st : Stage) (fc : Word) (s : State) :
    (configure cfg n st fc s).writePos = s.writePos := rfl
@[simp] theorem configure_sm (cfg : Config) (n : Nat) (st : Stage) (fc : Word) (s : State) :
    (configure cfg n st fc s).sm = s.sm := rfl
@[simp] theorem configure_cf (cfg : Config) (n : Nat) (st : Stage) (fc : Word) (s : State) :
    (configure cfg n st fc s).cf = PerStage.set s.cf st (stageCoefs cfg n st fc s.cfgFs) := rfl
@[simp] theorem configure_fh (cfg : Config) (n : Nat) (st : Stage) (fc : Word) (s : State) :
    (configure cfg n st fc s).fh = s.fh := rfl
@[simp] theorem configure_ring (cfg : Config) (n : Nat) (st : Stage) (fc : Word) (s : State) :
    (configure cfg n st fc s).ring = s.ring := rfl
@[simp] theorem configure_buf (cfg : Config) (n : Nat) (st : Stage) (fc : Word) (s : State) :
    (configure cfg n st fc s).buf = s.buf := rfl
@[simp] theorem configure_cause (cfg : Config) (n : Nat) (st : Stage) (fc : Word) (s : State) :
    (configure cfg n st fc s).cause = s.cause := rfl
@[simp] theorem configure_esticky (cfg : Config) (n : Nat) (st : Stage) (fc : Word) (s : State) :
    (configure cfg n st fc s).esticky = s.esticky := rfl
@[simp] theorem configure_argFs (cfg : Config) (n : Nat) (st : Stage) (fc : Word) (s : State) :
    (configure cfg n st fc s).argFs = s.argFs := rfl
@[simp] theorem configure_argNch (cfg : Config) (n : Nat) (st : Stage) (fc : Word) (s : State) :
    (configure cfg n st fc s).argNch = s.argNch := rfl
@[simp] theorem configure_argMaxMs (cfg : Config) (n : Nat) (st : Stage) (fc : Word) (s : State) :
    (configure cfg n st fc s).argMaxMs = s.argMaxMs := rfl
@[simp] theorem configure_argNsamp (cfg : Config) (n : Nat) (st : Stage) (fc : Word) (s : State) :
    (configure cfg n st fc s).argNsamp = s.argNsamp := rfl
@[simp] theorem configure_param (cfg : Config) (n : Nat) (st : Stage) (fc : Word) (s : State) :
    (configure cfg n st fc s).param = s.param := rfl
@[simp] theorem configure_host (cfg : Config) (n : Nat) (st : Stage) (fc : Word) (s : State) :
    (configure cfg n st fc s).host = s.host := rfl
@[simp] theorem configure_landing (cfg : Config) (n : Nat) (st : Stage) (fc : Word) (s : State) :
    (configure cfg n st fc s).landing = s.landing := rfl
@[simp] theorem configure_rdata (cfg : Config) (n : Nat) (st : Stage) (fc : Word) (s : State) :
    (configure cfg n st fc s).rdata = s.rdata := rfl
@[simp] theorem configure_draws (cfg : Config) (n : Nat) (st : Stage) (fc : Word) (s : State) :
    (configure cfg n st fc s).draws = s.draws := rfl

/-! `filterStage` -/

@[simp] theorem filterStage_engState (cfg : Config) (n : Nat) (st : Stage) (c : Channel) (k : Nat) (s : State) :
    (filterStage cfg n st c k s).engState = s.engState := rfl
@[simp] theorem filterStage_cfgFs (cfg : Config) (n : Nat) (st : Stage) (c : Channel) (k : Nat) (s : State) :
    (filterStage cfg n st c k s).cfgFs = s.cfgFs := rfl
@[simp] theorem filterStage_cfgNch (cfg : Config) (n : Nat) (st : Stage) (c : Channel) (k : Nat) (s : State) :
    (filterStage cfg n st c k s).cfgNch = s.cfgNch := rfl
@[simp] theorem filterStage_cfgMaxMs (cfg : Config) (n : Nat) (st : Stage) (c : Channel) (k : Nat) (s : State) :
    (filterStage cfg n st c k s).cfgMaxMs = s.cfgMaxMs := rfl
@[simp] theorem filterStage_capacity (cfg : Config) (n : Nat) (st : Stage) (c : Channel) (k : Nat) (s : State) :
    (filterStage cfg n st c k s).capacity = s.capacity := rfl
@[simp] theorem filterStage_writePos (cfg : Config) (n : Nat) (st : Stage) (c : Channel) (k : Nat) (s : State) :
    (filterStage cfg n st c k s).writePos = s.writePos := rfl
@[simp] theorem filterStage_sm (cfg : Config) (n : Nat) (st : Stage) (c : Channel) (k : Nat) (s : State) :
    (filterStage cfg n st c k s).sm = s.sm := rfl
@[simp] theorem filterStage_cf (cfg : Config) (n : Nat) (st : Stage) (c : Channel) (k : Nat) (s : State) :
    (filterStage cfg n st c k s).cf = s.cf := rfl
@[simp] theorem filterStage_fh (cfg : Config) (n : Nat) (st : Stage) (c : Channel) (k : Nat) (s : State) :
    (filterStage cfg n st c k s).fh = (State.setHistory s st c
      (filterLoop cfg (PerStage.get s.cf st) c k n 0 s.buf (State.history s st c)).2).fh := rfl
@[simp] theorem filterStage_ring (cfg : Config) (n : Nat) (st : Stage) (c : Channel) (k : Nat) (s : State) :
    (filterStage cfg n st c k s).ring = s.ring := rfl
@[simp] theorem filterStage_buf (cfg : Config) (n : Nat) (st : Stage) (c : Channel) (k : Nat) (s : State) :
    (filterStage cfg n st c k s).buf = (filterLoop cfg (PerStage.get s.cf st) c k n 0 s.buf (State.history s st c)).1 := rfl
@[simp] theorem filterStage_cause (cfg : Config) (n : Nat) (st : Stage) (c : Channel) (k : Nat) (s : State) :
    (filterStage cfg n st c k s).cause = s.cause := rfl
@[simp] theorem filterStage_esticky (cfg : Config) (n : Nat) (st : Stage) (c : Channel) (k : Nat) (s : State) :
    (filterStage cfg n st c k s).esticky = s.esticky := rfl
@[simp] theorem filterStage_argFs (cfg : Config) (n : Nat) (st : Stage) (c : Channel) (k : Nat) (s : State) :
    (filterStage cfg n st c k s).argFs = s.argFs := rfl
@[simp] theorem filterStage_argNch (cfg : Config) (n : Nat) (st : Stage) (c : Channel) (k : Nat) (s : State) :
    (filterStage cfg n st c k s).argNch = s.argNch := rfl
@[simp] theorem filterStage_argMaxMs (cfg : Config) (n : Nat) (st : Stage) (c : Channel) (k : Nat) (s : State) :
    (filterStage cfg n st c k s).argMaxMs = s.argMaxMs := rfl
@[simp] theorem filterStage_argNsamp (cfg : Config) (n : Nat) (st : Stage) (c : Channel) (k : Nat) (s : State) :
    (filterStage cfg n st c k s).argNsamp = s.argNsamp := rfl
@[simp] theorem filterStage_param (cfg : Config) (n : Nat) (st : Stage) (c : Channel) (k : Nat) (s : State) :
    (filterStage cfg n st c k s).param = s.param := rfl
@[simp] theorem filterStage_host (cfg : Config) (n : Nat) (st : Stage) (c : Channel) (k : Nat) (s : State) :
    (filterStage cfg n st c k s).host = s.host := rfl
@[simp] theorem filterStage_landing (cfg : Config) (n : Nat) (st : Stage) (c : Channel) (k : Nat) (s : State) :
    (filterStage cfg n st c k s).landing = s.landing := rfl
@[simp] theorem filterStage_rdata (cfg : Config) (n : Nat) (st : Stage) (c : Channel) (k : Nat) (s : State) :
    (filterStage cfg n st c k s).rdata = s.rdata := rfl
@[simp] theorem filterStage_draws (cfg : Config) (n : Nat) (st : Stage) (c : Channel) (k : Nat) (s : State) :
    (filterStage cfg n st c k s).draws = s.draws := rfl

/-! `delayMix` -/

@[simp] theorem delayMix_engState (cfg : Config) (n : Nat) (c : Channel) (k d : Nat) (m : Word) (s : State) :
    (delayMix cfg n c k d m s).engState = s.engState := rfl
@[simp] theorem delayMix_cfgFs (cfg : Config) (n : Nat) (c : Channel) (k d : Nat) (m : Word) (s : State) :
    (delayMix cfg n c k d m s).cfgFs = s.cfgFs := rfl
@[simp] theorem delayMix_cfgNch (cfg : Config) (n : Nat) (c : Channel) (k d : Nat) (m : Word) (s : State) :
    (delayMix cfg n c k d m s).cfgNch = s.cfgNch := rfl
@[simp] theorem delayMix_cfgMaxMs (cfg : Config) (n : Nat) (c : Channel) (k d : Nat) (m : Word) (s : State) :
    (delayMix cfg n c k d m s).cfgMaxMs = s.cfgMaxMs := rfl
@[simp] theorem delayMix_capacity (cfg : Config) (n : Nat) (c : Channel) (k d : Nat) (m : Word) (s : State) :
    (delayMix cfg n c k d m s).capacity = s.capacity := rfl
@[simp] theorem delayMix_writePos (cfg : Config) (n : Nat) (c : Channel) (k d : Nat) (m : Word) (s : State) :
    (delayMix cfg n c k d m s).writePos = s.writePos := rfl
@[simp] theorem delayMix_sm (cfg : Config) (n : Nat) (c : Channel) (k d : Nat) (m : Word) (s : State) :
    (delayMix cfg n c k d m s).sm = s.sm := rfl
@[simp] theorem delayMix_cf (cfg : Config) (n : Nat) (c : Channel) (k d : Nat) (m : Word) (s : State) :
    (delayMix cfg n c k d m s).cf = s.cf := rfl
@[simp] theorem delayMix_fh (cfg : Config) (n : Nat) (c : Channel) (k d : Nat) (m : Word) (s : State) :
    (delayMix cfg n c k d m s).fh = s.fh := rfl
@[simp] theorem delayMix_ring (cfg : Config) (n : Nat) (c : Channel) (k d : Nat) (m : Word) (s : State) :
    (delayMix cfg n c k d m s).ring = (delayLoop cfg c s.capacity.toNat s.writePos.toNat d m k n 0 s.buf s.ring).2 := rfl
@[simp] theorem delayMix_buf (cfg : Config) (n : Nat) (c : Channel) (k d : Nat) (m : Word) (s : State) :
    (delayMix cfg n c k d m s).buf = (delayLoop cfg c s.capacity.toNat s.writePos.toNat d m k n 0 s.buf s.ring).1 := rfl
@[simp] theorem delayMix_cause (cfg : Config) (n : Nat) (c : Channel) (k d : Nat) (m : Word) (s : State) :
    (delayMix cfg n c k d m s).cause = s.cause := rfl
@[simp] theorem delayMix_esticky (cfg : Config) (n : Nat) (c : Channel) (k d : Nat) (m : Word) (s : State) :
    (delayMix cfg n c k d m s).esticky = s.esticky := rfl
@[simp] theorem delayMix_argFs (cfg : Config) (n : Nat) (c : Channel) (k d : Nat) (m : Word) (s : State) :
    (delayMix cfg n c k d m s).argFs = s.argFs := rfl
@[simp] theorem delayMix_argNch (cfg : Config) (n : Nat) (c : Channel) (k d : Nat) (m : Word) (s : State) :
    (delayMix cfg n c k d m s).argNch = s.argNch := rfl
@[simp] theorem delayMix_argMaxMs (cfg : Config) (n : Nat) (c : Channel) (k d : Nat) (m : Word) (s : State) :
    (delayMix cfg n c k d m s).argMaxMs = s.argMaxMs := rfl
@[simp] theorem delayMix_argNsamp (cfg : Config) (n : Nat) (c : Channel) (k d : Nat) (m : Word) (s : State) :
    (delayMix cfg n c k d m s).argNsamp = s.argNsamp := rfl
@[simp] theorem delayMix_param (cfg : Config) (n : Nat) (c : Channel) (k d : Nat) (m : Word) (s : State) :
    (delayMix cfg n c k d m s).param = s.param := rfl
@[simp] theorem delayMix_host (cfg : Config) (n : Nat) (c : Channel) (k d : Nat) (m : Word) (s : State) :
    (delayMix cfg n c k d m s).host = s.host := rfl
@[simp] theorem delayMix_landing (cfg : Config) (n : Nat) (c : Channel) (k d : Nat) (m : Word) (s : State) :
    (delayMix cfg n c k d m s).landing = s.landing := rfl
@[simp] theorem delayMix_rdata (cfg : Config) (n : Nat) (c : Channel) (k d : Nat) (m : Word) (s : State) :
    (delayMix cfg n c k d m s).rdata = s.rdata := rfl
@[simp] theorem delayMix_draws (cfg : Config) (n : Nat) (c : Channel) (k d : Nat) (m : Word) (s : State) :
    (delayMix cfg n c k d m s).draws = s.draws := rfl

/-! `advance` -/

@[simp] theorem advance_engState (k nch : Nat) (s : State) :
    (advance k nch s).engState = s.engState := rfl
@[simp] theorem advance_cfgFs (k nch : Nat) (s : State) :
    (advance k nch s).cfgFs = s.cfgFs := rfl
@[simp] theorem advance_cfgNch (k nch : Nat) (s : State) :
    (advance k nch s).cfgNch = s.cfgNch := rfl
@[simp] theorem advance_cfgMaxMs (k nch : Nat) (s : State) :
    (advance k nch s).cfgMaxMs = s.cfgMaxMs := rfl
@[simp] theorem advance_capacity (k nch : Nat) (s : State) :
    (advance k nch s).capacity = s.capacity := rfl
@[simp] theorem advance_writePos (k nch : Nat) (s : State) :
    (advance k nch s).writePos = BitVec.ofNat 32 ((s.writePos.toNat + k) % s.capacity.toNat) := rfl
@[simp] theorem advance_sm (k nch : Nat) (s : State) :
    (advance k nch s).sm = s.sm := rfl
@[simp] theorem advance_cf (k nch : Nat) (s : State) :
    (advance k nch s).cf = s.cf := rfl
@[simp] theorem advance_fh (k nch : Nat) (s : State) :
    (advance k nch s).fh = s.fh := rfl
@[simp] theorem advance_ring (k nch : Nat) (s : State) :
    (advance k nch s).ring = s.ring := rfl
@[simp] theorem advance_buf (k nch : Nat) (s : State) :
    (advance k nch s).buf = s.buf := rfl
@[simp] theorem advance_cause (k nch : Nat) (s : State) :
    (advance k nch s).cause = Cause.none := rfl
@[simp] theorem advance_esticky (k nch : Nat) (s : State) :
    (advance k nch s).esticky = s.esticky := rfl
@[simp] theorem advance_argFs (k nch : Nat) (s : State) :
    (advance k nch s).argFs = s.argFs := rfl
@[simp] theorem advance_argNch (k nch : Nat) (s : State) :
    (advance k nch s).argNch = s.argNch := rfl
@[simp] theorem advance_argMaxMs (k nch : Nat) (s : State) :
    (advance k nch s).argMaxMs = s.argMaxMs := rfl
@[simp] theorem advance_argNsamp (k nch : Nat) (s : State) :
    (advance k nch s).argNsamp = s.argNsamp := rfl
@[simp] theorem advance_param (k nch : Nat) (s : State) :
    (advance k nch s).param = s.param := rfl
@[simp] theorem advance_host (k nch : Nat) (s : State) :
    (advance k nch s).host = s.host := rfl
@[simp] theorem advance_landing (k nch : Nat) (s : State) :
    (advance k nch s).landing = s.landing := rfl
@[simp] theorem advance_rdata (k nch : Nat) (s : State) :
    (advance k nch s).rdata = s.rdata := rfl
@[simp] theorem advance_draws (k nch : Nat) (s : State) :
    (advance k nch s).draws = s.draws + blockDraws nch k := rfl

/-! `State.landBefore` -/

@[simp] theorem State.landBefore_engState (s : State) (k : ParamIx) :
    (State.landBefore s k).engState = s.engState := rfl
@[simp] theorem State.landBefore_cfgFs (s : State) (k : ParamIx) :
    (State.landBefore s k).cfgFs = s.cfgFs := rfl
@[simp] theorem State.landBefore_cfgNch (s : State) (k : ParamIx) :
    (State.landBefore s k).cfgNch = s.cfgNch := rfl
@[simp] theorem State.landBefore_cfgMaxMs (s : State) (k : ParamIx) :
    (State.landBefore s k).cfgMaxMs = s.cfgMaxMs := rfl
@[simp] theorem State.landBefore_capacity (s : State) (k : ParamIx) :
    (State.landBefore s k).capacity = s.capacity := rfl
@[simp] theorem State.landBefore_writePos (s : State) (k : ParamIx) :
    (State.landBefore s k).writePos = s.writePos := rfl
@[simp] theorem State.landBefore_sm (s : State) (k : ParamIx) :
    (State.landBefore s k).sm = s.sm := rfl
@[simp] theorem State.landBefore_cf (s : State) (k : ParamIx) :
    (State.landBefore s k).cf = s.cf := rfl
@[simp] theorem State.landBefore_fh (s : State) (k : ParamIx) :
    (State.landBefore s k).fh = s.fh := rfl
@[simp] theorem State.landBefore_ring (s : State) (k : ParamIx) :
    (State.landBefore s k).ring = s.ring := rfl
@[simp] theorem State.landBefore_buf (s : State) (k : ParamIx) :
    (State.landBefore s k).buf = s.buf := rfl
@[simp] theorem State.landBefore_cause (s : State) (k : ParamIx) :
    (State.landBefore s k).cause = s.cause := rfl
@[simp] theorem State.landBefore_esticky (s : State) (k : ParamIx) :
    (State.landBefore s k).esticky = s.esticky := rfl
@[simp] theorem State.landBefore_argFs (s : State) (k : ParamIx) :
    (State.landBefore s k).argFs = s.argFs := rfl
@[simp] theorem State.landBefore_argNch (s : State) (k : ParamIx) :
    (State.landBefore s k).argNch = s.argNch := rfl
@[simp] theorem State.landBefore_argMaxMs (s : State) (k : ParamIx) :
    (State.landBefore s k).argMaxMs = s.argMaxMs := rfl
@[simp] theorem State.landBefore_argNsamp (s : State) (k : ParamIx) :
    (State.landBefore s k).argNsamp = s.argNsamp := rfl
@[simp] theorem State.landBefore_host (s : State) (k : ParamIx) :
    (State.landBefore s k).host = s.host := rfl
@[simp] theorem State.landBefore_rdata (s : State) (k : ParamIx) :
    (State.landBefore s k).rdata = s.rdata := rfl
@[simp] theorem State.landBefore_draws (s : State) (k : ParamIx) :
    (State.landBefore s k).draws = s.draws := rfl

/-! `pullTargets` -/

theorem pullTargets_state (s : State) :
    (pullTargets s).2 = State.landBefore (State.landBefore (State.landBefore
      (State.landBefore s .delayTime) .dryWetMix) .hpfCutoff) .lpfCutoff := rfl

@[simp] theorem pullTargets_engState (s : State) :
    (pullTargets s).2.engState = s.engState := by
  rw [pullTargets_state]; simp only [State.landBefore_engState]
@[simp] theorem pullTargets_cfgFs (s : State) :
    (pullTargets s).2.cfgFs = s.cfgFs := by
  rw [pullTargets_state]; simp only [State.landBefore_cfgFs]
@[simp] theorem pullTargets_cfgNch (s : State) :
    (pullTargets s).2.cfgNch = s.cfgNch := by
  rw [pullTargets_state]; simp only [State.landBefore_cfgNch]
@[simp] theorem pullTargets_cfgMaxMs (s : State) :
    (pullTargets s).2.cfgMaxMs = s.cfgMaxMs := by
  rw [pullTargets_state]; simp only [State.landBefore_cfgMaxMs]
@[simp] theorem pullTargets_capacity (s : State) :
    (pullTargets s).2.capacity = s.capacity := by
  rw [pullTargets_state]; simp only [State.landBefore_capacity]
@[simp] theorem pullTargets_writePos (s : State) :
    (pullTargets s).2.writePos = s.writePos := by
  rw [pullTargets_state]; simp only [State.landBefore_writePos]
@[simp] theorem pullTargets_sm (s : State) :
    (pullTargets s).2.sm = s.sm := by
  rw [pullTargets_state]; simp only [State.landBefore_sm]
@[simp] theorem pullTargets_cf (s : State) :
    (pullTargets s).2.cf = s.cf := by
  rw [pullTargets_state]; simp only [State.landBefore_cf]
@[simp] theorem pullTargets_fh (s : State) :
    (pullTargets s).2.fh = s.fh := by
  rw [pullTargets_state]; simp only [State.landBefore_fh]
@[simp] theorem pullTargets_ring (s : State) :
    (pullTargets s).2.ring = s.ring := by
  rw [pullTargets_state]; simp only [State.landBefore_ring]
@[simp] theorem pullTargets_buf (s : State) :
    (pullTargets s).2.buf = s.buf := by
  rw [pullTargets_state]; simp only [State.landBefore_buf]
@[simp] theorem pullTargets_cause (s : State) :
    (pullTargets s).2.cause = s.cause := by
  rw [pullTargets_state]; simp only [State.landBefore_cause]
@[simp] theorem pullTargets_esticky (s : State) :
    (pullTargets s).2.esticky = s.esticky := by
  rw [pullTargets_state]; simp only [State.landBefore_esticky]
@[simp] theorem pullTargets_argFs (s : State) :
    (pullTargets s).2.argFs = s.argFs := by
  rw [pullTargets_state]; simp only [State.landBefore_argFs]
@[simp] theorem pullTargets_argNch (s : State) :
    (pullTargets s).2.argNch = s.argNch := by
  rw [pullTargets_state]; simp only [State.landBefore_argNch]
@[simp] theorem pullTargets_argMaxMs (s : State) :
    (pullTargets s).2.argMaxMs = s.argMaxMs := by
  rw [pullTargets_state]; simp only [State.landBefore_argMaxMs]
@[simp] theorem pullTargets_argNsamp (s : State) :
    (pullTargets s).2.argNsamp = s.argNsamp := by
  rw [pullTargets_state]; simp only [State.landBefore_argNsamp]
@[simp] theorem pullTargets_host (s : State) :
    (pullTargets s).2.host = s.host := by
  rw [pullTargets_state]; simp only [State.landBefore_host]
@[simp] theorem pullTargets_rdata (s : State) :
    (pullTargets s).2.rdata = s.rdata := by
  rw [pullTargets_state]; simp only [State.landBefore_rdata]
@[simp] theorem pullTargets_draws (s : State) :
    (pullTargets s).2.draws = s.draws := by
  rw [pullTargets_state]; simp only [State.landBefore_draws]

/-! `State.hardwareReset` -/

@[simp] theorem State.hardwareReset_engState (cfg : Config) (s : State) :
    (State.hardwareReset cfg s).engState = .unprepared := rfl
@[simp] theorem State.hardwareReset_cfgFs (cfg : Config) (s : State) :
    (State.hardwareReset cfg s).cfgFs = 0 := rfl
@[simp] theorem State.hardwareReset_cfgNch (cfg : Config) (s : State) :
    (State.hardwareReset cfg s).cfgNch = 0 := rfl
@[simp] theorem State.hardwareReset_cfgMaxMs (cfg : Config) (s : State) :
    (State.hardwareReset cfg s).cfgMaxMs = 0 := rfl
@[simp] theorem State.hardwareReset_capacity (cfg : Config) (s : State) :
    (State.hardwareReset cfg s).capacity = 0 := rfl
@[simp] theorem State.hardwareReset_writePos (cfg : Config) (s : State) :
    (State.hardwareReset cfg s).writePos = 0 := rfl
@[simp] theorem State.hardwareReset_sm (cfg : Config) (s : State) :
    (State.hardwareReset cfg s).sm = cfg.smReset := rfl
@[simp] theorem State.hardwareReset_cf (cfg : Config) (s : State) :
    (State.hardwareReset cfg s).cf = ⟨Coefs.atReset, Coefs.atReset⟩ := rfl
@[simp] theorem State.hardwareReset_fh (cfg : Config) (s : State) :
    (State.hardwareReset cfg s).fh = ⟨⟨History.cleared, History.cleared⟩, ⟨History.cleared, History.cleared⟩⟩ := rfl
@[simp] theorem State.hardwareReset_ring (cfg : Config) (s : State) :
    (State.hardwareReset cfg s).ring = [] := rfl
@[simp] theorem State.hardwareReset_buf (cfg : Config) (s : State) :
    (State.hardwareReset cfg s).buf = [] := rfl
@[simp] theorem State.hardwareReset_cause (cfg : Config) (s : State) :
    (State.hardwareReset cfg s).cause = .none := rfl
@[simp] theorem State.hardwareReset_esticky (cfg : Config) (s : State) :
    (State.hardwareReset cfg s).esticky = false := rfl
@[simp] theorem State.hardwareReset_argFs (cfg : Config) (s : State) :
    (State.hardwareReset cfg s).argFs = 0 := rfl
@[simp] theorem State.hardwareReset_argNch (cfg : Config) (s : State) :
    (State.hardwareReset cfg s).argNch = 0 := rfl
@[simp] theorem State.hardwareReset_argMaxMs (cfg : Config) (s : State) :
    (State.hardwareReset cfg s).argMaxMs = 0 := rfl
@[simp] theorem State.hardwareReset_argNsamp (cfg : Config) (s : State) :
    (State.hardwareReset cfg s).argNsamp = 0 := rfl
@[simp] theorem State.hardwareReset_param (cfg : Config) (s : State) :
    (State.hardwareReset cfg s).param = cfg.smReset := rfl
@[simp] theorem State.hardwareReset_host (cfg : Config) (s : State) :
    (State.hardwareReset cfg s).host = s.host := rfl
@[simp] theorem State.hardwareReset_landing (cfg : Config) (s : State) :
    (State.hardwareReset cfg s).landing = s.landing := rfl
@[simp] theorem State.hardwareReset_rdata (cfg : Config) (s : State) :
    (State.hardwareReset cfg s).rdata = s.rdata := rfl
@[simp] theorem State.hardwareReset_draws (cfg : Config) (s : State) :
    (State.hardwareReset cfg s).draws = s.draws := rfl

end Sys2Proof.Machine
end

