-- ==== Sys2Proof/Laws/DelayBuffer.lean ====
section
/-! SUPPORT. What one sample of DELAYMIX does (R190, R191), and what the whole operation leaves alone. -/

namespace Sys2Proof.Machine

theorem ringAddr_eq (cfg : Config) (c : Channel) (j : Nat) : ringAddr cfg c j = ringAddr cfg c 0 + 4 * j := by
  simp only [ringAddr]; omega

/-- A left ring of at most `RING_DEPTH` words ends where the right one begins. -/
theorem ringAddr_left_le_right (cfg : Config) {i : Nat} (h : i ≤ cfg.ringDepth) (j : Nat) :
    ringAddr cfg .left i ≤ ringAddr cfg .right j := by
  simp only [ringAddr, Channel.index]; omega

theorem ringStore_wf (cfg : Config) (c : Channel) (p d : Nat) (v : Word) {ring : Memory}
    (h : Memory.wf ring) : Memory.wf (ringStore cfg c p d v ring) := by
  rw [ringStore]; split_ifs
  · exact h
  · exact Memory.setWord_wf _ _ h

/-- Where a sample is stored, the ring reads as that sample. -/
theorem ringStore_self (cfg : Config) (c : Channel) (p n : Nat) {d : Nat} (v : Word) (ring : Memory)
    (h : d ≠ 0 ∨ cfg.ringWriteOnBypass = true) :
    Memory.getWord (ringStore cfg c p d v ring) n (ringAddr cfg c p) = v := by
  rw [ringStore, if_neg (by rcases h with h | h <;> simp [h])]
  exact Memory.getWord_setWord_self _ _ _ _

/-- Every other word of the ring stays. -/
theorem ringStore_other (cfg : Config) (c : Channel) {p q : Nat} (n d : Nat) (v : Word) (ring : Memory)
    (h : q ≠ p) :
    Memory.getWord (ringStore cfg c p d v ring) n (ringAddr cfg c q) =
      Memory.getWord ring n (ringAddr cfg c q) := by
  rw [ringStore]; split_ifs
  · rfl
  · have e1 := ringAddr_eq cfg c p
    have e2 := ringAddr_eq cfg c q
    exact Memory.getWord_setWord_other _ _ _ (by omega)

theorem ringStore_get_outside (cfg : Config) (c : Channel) {p a : Nat} (d : Nat) (v : Word) (ring : Memory)
    (h : a < ringAddr cfg c p ∨ ringAddr cfg c p + 4 ≤ a) :
    Memory.get (ringStore cfg c p d v ring) a = Memory.get ring a := by
  rw [ringStore]; split_ifs
  · rfl
  · exact Memory.get_setWord_outside _ _ h

theorem delayLoop_succ (cfg : Config) (c : Channel) (cap w d : Nat) (m : Word) (count n i : Nat)
    (buf ring : Memory) :
    delayLoop cfg c cap w d m (count + 1) n i buf ring =
      (let dry := Memory.getWord buf n (bufAddr cfg c i)
       let ring' := ringStore cfg c (writeIndex cap w i) d dry ring
       delayLoop cfg c cap w d m count (n + 6) (i + 1)
        (Memory.setWord buf (bufAddr cfg c i)
          (mixOut cfg (n + 2) d dry (Memory.getWord ring' (n + 1)
            (ringAddr cfg c (readIndex cap (writeIndex cap w i) d))) m)) ring') := rfl

theorem delayLoop_wf (cfg : Config) (c : Channel) (cap w d : Nat) (m : Word) (count n i : Nat)
    {buf ring : Memory} (hb : Memory.wf buf) (hr : Memory.wf ring) :
    Memory.wf (delayLoop cfg c cap w d m count n i buf ring).1 ∧
    Memory.wf (delayLoop cfg c cap w d m count n i buf ring).2 := by
  induction count generalizing n i buf ring with
  | zero => exact ⟨hb, hr⟩
  | succ count ih => rw [delayLoop_succ]; exact ih _ _ (Memory.setWord_wf _ _ hb) (ringStore_wf _ _ _ _ _ hr)

theorem delayMix_frame (cfg : Config) (n : Nat) (c : Channel) (count d : Nat) (m : Word) (s : State) :
    delayMix cfg n c count d m s =
      { s with buf := (delayMix cfg n c count d m s).buf, ring := (delayMix cfg n c count d m s).ring } :=
  rfl

end Sys2Proof.Machine
end

