-- ==== Sys2Proof/Laws/DelayMapper.lean ====
section
/-! SUPPORT. The arithmetic PREPARE and MAPDELAY share (R181, R212): the sample count of a time at a rate,
when it exists, and that it grows with the time. -/

namespace Sys2Proof.Machine

theorem rate_pos {fs : Word} (h1 : F32.isFinite fs = true) (h2 : F32.fgt hardware fs F32.zero = true) :
   F32.neg fs = false ∧ 0 < F32.units fs := by
  rw [F32.fgt, F32.flt_hardware, F32.lt_iff_of_finite (by decide +kernel) h1, show F32.val F32.zero = 0 by decide +kernel] at h2
  rw [F32.val] at h2
  cases h : F32.neg fs
  · simp only [h, Bool.false_eq_true, if_false] at h2; exact ⟨rfl, by omega⟩
  · simp only [h, if_true] at h2; omega

theorem maxMs_nonneg {ms : Word} (h1 : F32.isFinite ms = true) (h2 : F32.flt hardware ms F32.zero = false) :
   F32.neg ms = false ∨ F32.mag ms = 0 := by
  have : ¬ (F32.lt ms F32.zero = true) := by rw [← F32.flt_hardware, h2]; simp
  rw [F32.lt_iff_of_finite h1 (by decide +kernel), show F32.val F32.zero = 0 by decide +kernel, F32.val] at this
  cases h : F32.neg ms
  · left; rfl
  · right; simp only [h, if_true] at this
    exact F32.magUnits_eq_zero.1 (by have : F32.units ms = 0 := by omega
                                     exact this)

/-- v(eff, fs) -/
def samplesOf (n m : Nat) (e fs : Word) : Word := F32.div n (F32.mul m e fs) F32.thousand


/-- if the floor of samplesOf exists then everything is finite -/
theorem samplesOf_finite {n m len: Nat} {e fs : Word} (he : F32.isNaN e = false) (hfs : F32.isFinite fs = true) (hfp : 0 < F32.units fs)
   (h : F32.floorU32 (samplesOf n m e fs) = some len) : F32.isFinite e = true ∧ F32.isFinite (F32.mul m e fs) = true := by
  have hfsz : F32.isZero fs = false := by
    rw [F32.isZero_def, decide_eq_false_iff_not]; intro hz
    rw [F32.units, hz] at hfp; simp at hfp
  have hinf : ∀ w, F32.isInf w = true → F32.floorU32 (F32.div n w F32.thousand) = none := by
    intro w hw
    have hn : F32.isNaN w = false := by
      simp only [F32.isInf, decide_eq_true_eq] at hw
      simp [F32.isNaN, hw]
    rw [F32.div, hn, show F32.isNaN F32.thousand = false by decide +kernel, hw, show F32.isInf F32.thousand = false by decide +kernel]
    simp only [Bool.or_self, Bool.false_eq_true, if_false, if_true]
    rw [F32.floorU32, F32.isFinite_ofMag (by norm_num [F32.infMag])]
    simp
  have hmulfin : F32.isNaN (F32.mul m e fs) = true → False := by
    rw [F32.mul, he, F32.isNaN_of_finite hfs, F32.isInf_of_finite hfs]
    simp only [Bool.or_self, Bool.false_eq_true, if_false, Bool.or_false]
    split_ifs with h1 h2
    · have : F32.isZero e = false := by
        simp only [F32.isInf, decide_eq_true_eq] at h1
        rw [F32.isZero_def, h1]; decide
      rw [this, hfsz] at h2; simp at h2
    · simp [F32.isNaN, F32.mag_ofMag (show F32.infMag < 2^31 by norm_num [F32.infMag])]
    · have := F32.roundMag_le_inf (F32.units e * F32.units fs) (2^149)
      simp only [F32.isNaN, F32.mag_ofMag (F32.roundMag_lt _ _), decide_eq_true_eq]; omega
  have hm : F32.isFinite (F32.mul m e fs) = true := by
    by_contra hc
    have h1 : F32.isNaN (F32.mul m e fs) = false := by
      cases h : F32.isNaN (F32.mul m e fs) <;> simp_all
    have h2 : F32.isInf (F32.mul m e fs) = true := by
      simp only [F32.isFinite, F32.isNaN, F32.isInf, decide_eq_true_eq, decide_eq_false_iff_not] at *; omega
    rw [samplesOf, hinf _ h2] at h
    simp at h
  refine ⟨?_, hm⟩
  by_contra hc
  have h2 : F32.isInf e = true := by
    simp only [F32.isFinite, F32.isNaN, F32.isInf, decide_eq_true_eq, decide_eq_false_iff_not] at *; omega
  have hez : F32.isZero e = false := by
    simp only [F32.isInf, decide_eq_true_eq] at h2
    rw [F32.isZero_def, h2]; decide
  rw [F32.mul, he, F32.isNaN_of_finite hfs, h2, hez, hfsz] at hm
  simp [F32.isFinite, F32.mag_ofMag (show F32.infMag < 2^31 by norm_num [F32.infMag])] at hm

theorem floorU32_div_thousand {n: Nat} {x : Word} (hx : F32.isFinite x = true) (hs : F32.neg x = false ∨ F32.mag x = 0) :
   F32.floorU32 (F32.div n x F32.thousand) =
     (let r := F32.roundMag (F32.units x * 2^149) (F32.units F32.thousand)
      if r < F32.infMag ∧ F32.magUnits r / 2^149 < 2^32 then some (F32.magUnits r / 2^149) else none) := by
  have hk : F32.isFinite F32.thousand = true := by decide +kernel
  have hz : F32.isZero F32.thousand = false := by decide +kernel
  have hlt := F32.roundMag_lt (F32.units x * 2^149) (F32.units F32.thousand)
  rw [F32.div_of_finite hx hk hz, F32.floorU32, F32.isFinite_ofMag hlt, F32.neg_ofMag hlt, F32.units_def (F32.ofMag _ _), F32.mag_ofMag hlt, F32.isZero_def, F32.mag_ofMag hlt]
  rw [show F32.neg F32.thousand = false by decide +kernel]
  have hsign : ((F32.neg x != false) && !decide (F32.roundMag (F32.units x * 2^149) (F32.units F32.thousand) = 0)) = false := by
    rcases hs with h | h
    · rw [h]; rfl
    · rw [F32.units, h]; simp
  rw [hsign]
  generalize F32.roundMag (F32.units x * 2^149) (F32.units F32.thousand) = r
  show _ = if r < F32.infMag ∧ F32.magUnits r / 2 ^ 149 < 2 ^ 32 then some (F32.magUnits r / 2 ^ 149) else none
  generalize F32.magUnits r / 2^149 = q
  by_cases h1 : r < F32.infMag
  · rw [decide_eq_true h1]
    simp only [Bool.not_true, Bool.false_eq_true, if_false, h1, true_and]
  · rw [decide_eq_false h1]
    simp only [Bool.not_false, if_true, h1, false_and, if_false]

/-- tail monotone -/
theorem samplesOf_mono {n m n' m' len : Nat} {e e' fs : Word} (he' : F32.isNaN e' = false) (hfs : F32.isFinite fs = true) (hfn : F32.neg fs = false) (hfp : 0 < F32.units fs)
   (hmag : F32.mag e ≤ F32.mag e') (hs : F32.neg e = false ∨ F32.mag e = 0) (hs' : F32.neg e' = false ∨ F32.mag e' = 0)
   (h : F32.floorU32 (samplesOf n' m' e' fs) = some len) : ∃ l, F32.floorU32 (samplesOf n m e fs) = some l ∧ l ≤ len ∧ (F32.mag e = F32.mag e' → l = len) := by
  obtain ⟨fe', fm'⟩ := samplesOf_finite he' hfs hfp h
  have fe : F32.isFinite e = true := by
    have := F32.mag_of_finite fe'
    rw [F32.isFinite]; exact decide_eq_true (by omega)
  have m1 := F32.mul_bits (n := m) fe hfs
  have m2 := F32.mul_bits (n := m') fe' hfs
  have hle : F32.mag (F32.mul m e fs) ≤ F32.mag (F32.mul m' e' fs) := by
    rw [m1.1, m2.1]
    exact F32.roundMag_mono (by positivity) (by positivity) (Nat.mul_le_mul_right _ (Nat.mul_le_mul_right _ (F32.magUnits_le_iff.2 hmag)))
  have fm : F32.isFinite (F32.mul m e fs) = true := by
    have := F32.mag_of_finite fm'
    rw [F32.isFinite]; exact decide_eq_true (by omega)
  have sgn : ∀ (k : Nat) (x : Word), F32.isFinite x = true → (F32.neg x = false ∨ F32.mag x = 0) → F32.neg (F32.mul k x fs) = false ∨ F32.mag (F32.mul k x fs) = 0 := by
    intro k x hx hh
    have := F32.mul_bits (n := k) hx hfs
    rw [this.1, this.2, hfn]
    rcases hh with h | h
    · left; rw [h]; rfl
    · right; rw [F32.units, h]; simp
  rw [samplesOf, floorU32_div_thousand fm' (sgn _ _ fe' hs')] at h
  rw [samplesOf, floorU32_div_thousand fm (sgn _ _ fe hs)]
  have hr : F32.roundMag (F32.units (F32.mul m e fs) * 2^149) (F32.units F32.thousand) ≤ F32.roundMag (F32.units (F32.mul m' e' fs) * 2^149) (F32.units F32.thousand) := by
    refine F32.roundMag_mono (by decide +kernel) (by decide +kernel) (Nat.mul_le_mul_right _ (Nat.mul_le_mul_right _ (F32.magUnits_le_iff.2 hle)))
  have heq : F32.mag e = F32.mag e' → F32.units (F32.mul m e fs) = F32.units (F32.mul m' e' fs) := by
    intro hh
    rw [F32.units_def (F32.mul m e fs), F32.units_def (F32.mul m' e' fs), m1.1, m2.1, F32.units_def e, F32.units_def e', hh]
  generalize F32.units (F32.mul m e fs) = A at *
  generalize F32.units (F32.mul m' e' fs) = B at *
  simp only at h ⊢
  split_ifs at h with h1
  have hu := F32.magUnits_le_iff.2 hr
  have hd := Nat.div_le_div_right (c := 2^149) hu
  rw [if_pos ⟨by omega, by omega⟩]
  simp only [Option.some.injEq] at h
  refine ⟨_, rfl, by omega, fun hh => ?_⟩
  rw [heq hh]; exact h

/-- scale and eff -/
theorem effMs_bits {n k : Nat} {dt ms : Word} (hdt : F32.isFinite dt = true) (hms : F32.isFinite ms = true) (hs : F32.neg ms = false ∨ F32.mag ms = 0) :
   let sc := F32.div n (F32.fabs dt) F32.dtFull
   F32.isNaN (F32.mul k sc ms) = false ∧ (F32.neg (F32.mul k sc ms) = false ∨ F32.mag (F32.mul k sc ms) = 0) ∧
   F32.mag (F32.mul k sc ms) = F32.roundMag (F32.magUnits (F32.roundMag (F32.units dt * 2^149) (F32.units F32.dtFull)) * F32.units ms) (2^149) := by
  intro sc
  have hfab : F32.isFinite (F32.fabs dt) = true := by simpa [F32.isFinite] using F32.mag_of_finite hdt
  have d := F32.div_bits (n := n) hfab (show F32.isFinite F32.dtFull = true by decide +kernel) (by decide +kernel)
  have hua : F32.units (F32.fabs dt) = F32.units dt := by rw [F32.units, F32.mag_fabs, F32.units]
  have hscm : F32.mag sc = F32.roundMag (F32.units dt * 2^149) (F32.units F32.dtFull) := by rw [← hua]; exact d.1
  have hscn : F32.neg sc = false := by rw [show F32.neg sc = _ from d.2, F32.neg_fabs]; decide +kernel
  have hscf : F32.isFinite sc = true := by
    rw [F32.isFinite, hscm, decide_eq_true_eq]
    -- dt/17.5 ≤ dt
    refine lt_of_le_of_lt (F32.roundMag_le (by decide +kernel) (F32.mag_of_finite hdt).le ?_) (F32.mag_of_finite hdt)
    exact Nat.mul_le_mul_left _ (by decide +kernel)
  have mm := F32.mul_bits (n := k) hscf hms
  refine ⟨?_, ?_, ?_⟩
  · rw [F32.isNaN, mm.1, decide_eq_false_iff_not]; have := F32.roundMag_le_inf (F32.units sc * F32.units ms) (2^149); omega
  · rw [mm.1, mm.2, hscn]
    rcases hs with h | h
    · left; rw [h]; rfl
    · right; rw [F32.units_def ms, h]; simp
  · rw [mm.1, F32.units_def sc, hscm]

theorem delayLen_samplesOf (n : Nat) (dt ms fs : Word) : delayLen hardware n dt ms fs =
   F32.floorU32 (samplesOf (n+3) (n+2) (F32.mul (n+1) (F32.div n (F32.fabs dt) F32.dtFull) ms) fs) := by
  simp only [delayLen, delayQuotient, F32.fdiv_hardware, F32.fmul_hardware, samplesOf]
theorem capacityOf_samplesOf (n : Nat) (ms fs : Word) : capacityOf hardware n ms fs = F32.floorU32 (samplesOf (n+1) n ms fs) := by
  simp only [capacityOf, F32.fdiv_hardware, F32.fmul_hardware, samplesOf]
  rw [show hardware.capGuard = 0 from rfl]; simp

theorem effMs_full {n k : Nat} {dt ms : Word} (hdt : F32.mag dt = F32.mag 0x418C0000#32) (hms : F32.isFinite ms = true) (hs : F32.neg ms = false ∨ F32.mag ms = 0) :
   F32.mag (F32.mul k (F32.div n (F32.fabs dt) F32.dtFull) ms) = F32.mag ms := by
  have hf : F32.isFinite dt = true := by rw [F32.isFinite, hdt]; decide +kernel
  rw [(effMs_bits hf hms hs).2.2, F32.units_def dt, hdt]
  have : F32.magUnits (F32.roundMag (F32.magUnits (F32.mag 0x418C0000#32) * 2 ^ 149) (F32.units F32.dtFull)) = 2 ^ 149 := by decide +kernel
  rw [this, Nat.mul_comm]
  exact F32.roundMag_exact (by positivity) (F32.mag_of_finite hms).le

end Sys2Proof.Machine
end

