-- ==== Sys2Proof/Laws/Filter.lean ====
section
/-! SUPPORT. What FILTER and CHAIN can change (R159, R160): the block buffer words of their block, the
histories of their channels, and nothing else; and what they read. -/

namespace Sys2Proof.Machine

/-! Addresses of the block buffer (R64) -/

theorem bufAddr_eq (cfg : Config) (c : Channel) (i : Nat) : bufAddr cfg c i = bufAddr cfg c 0 + 4 * i := by
  simp only [bufAddr]; omega

/-- A left block of at most `BLOCK_MAX` samples ends where the right one begins. -/
theorem bufAddr_left_le_right (cfg : Config) {i : Nat} (h : i ≤ cfg.blockMax) (j : Nat) :
    bufAddr cfg .left i ≤ bufAddr cfg .right j := by
  simp only [bufAddr, Channel.index]; omega

/-! FILTER -/

theorem filterLoop_zero (cfg : Config) (k : Coefs) (c : Channel) (n i : Nat) (buf : Memory) (h : History) :
    filterLoop cfg k c 0 n i buf h = (buf, h) := rfl

theorem filterLoop_succ (cfg : Config) (k : Coefs) (c : Channel) (count n i : Nat) (buf : Memory)
    (h : History) :
    filterLoop cfg k c (count + 1) n i buf h =
      filterLoop cfg k c count (n + 10) (i + 1)
        (Memory.setWord buf (bufAddr cfg c i)
          (biquadOut cfg (n + 1) k h (Memory.getWord buf n (bufAddr cfg c i))))
        (History.push h (Memory.getWord buf n (bufAddr cfg c i))
          (biquadOut cfg (n + 1) k h (Memory.getWord buf n (bufAddr cfg c i)))) := rfl

/-- FILTER writes the words of its block only. -/
theorem filterLoop_get_outside (cfg : Config) (k : Coefs) (c : Channel) {count i a : Nat}
    (h : a < bufAddr cfg c i ∨ bufAddr cfg c (i + count) ≤ a) (n : Nat) (buf : Memory) (hist : History) :
    Memory.get (filterLoop cfg k c count n i buf hist).1 a = Memory.get buf a := by
  induction count generalizing n i buf hist with
  | zero => rfl
  | succ count ih =>
    have e1 := bufAddr_eq cfg c i
    have e2 := bufAddr_eq cfg c (i + 1)
    have e3 := bufAddr_eq cfg c (i + 1 + count)
    have e4 := bufAddr_eq cfg c (i + (count + 1))
    rw [filterLoop_succ, ih (by omega), Memory.get_setWord_outside _ _ (by omega)]

theorem filterLoop_wf (cfg : Config) (k : Coefs) (c : Channel) (count n i : Nat) {buf : Memory}
    (hist : History) (h : Memory.wf buf) : Memory.wf (filterLoop cfg k c count n i buf hist).1 := by
  induction count generalizing n i buf hist with
  | zero => exact h
  | succ count ih => rw [filterLoop_succ]; exact ih _ _ _ (Memory.setWord_wf _ _ h)

/-- FILTER reads the words of its block only: two buffers with the same bytes there give the same
history and the same bytes there. -/
theorem filterLoop_congr (cfg : Config) (k : Coefs) (c : Channel) {count i : Nat} (n : Nat)
    {buf buf' : Memory} (hist : History)
    (h : ∀ a, bufAddr cfg c i ≤ a → a < bufAddr cfg c (i + count) →
      Memory.get buf a = Memory.get buf' a) :
    (filterLoop cfg k c count n i buf hist).2 = (filterLoop cfg k c count n i buf' hist).2 ∧
    ∀ a, bufAddr cfg c i ≤ a → a < bufAddr cfg c (i + count) →
      Memory.get (filterLoop cfg k c count n i buf hist).1 a =
        Memory.get (filterLoop cfg k c count n i buf' hist).1 a := by
  induction count generalizing n i buf buf' hist with
  | zero => exact ⟨rfl, h⟩
  | succ count ih =>
    have e1 := bufAddr_eq cfg c i
    have e2 := bufAddr_eq cfg c (i + 1)
    have e3 := bufAddr_eq cfg c (i + 1 + count)
    have e4 := bufAddr_eq cfg c (i + (count + 1))
    have hx : Memory.getWord buf n (bufAddr cfg c i) = Memory.getWord buf' n (bufAddr cfg c i) :=
      Memory.getWord_congr _ _ fun j hj => h _ (by omega) (by omega)
    rw [filterLoop_succ, filterLoop_succ, hx]
    generalize biquadOut cfg (n + 1) k hist (Memory.getWord buf' n (bufAddr cfg c i)) = y
    generalize History.push hist (Memory.getWord buf' n (bufAddr cfg c i)) y = hist'
    have hset : ∀ a, bufAddr cfg c i ≤ a → a < bufAddr cfg c (i + (count + 1)) →
        Memory.get (Memory.setWord buf (bufAddr cfg c i) y) a =
          Memory.get (Memory.setWord buf' (bufAddr cfg c i) y) a := by
      intro a h1 h2
      rcases Nat.lt_or_ge a (bufAddr cfg c i + 4) with h3 | h3
      · obtain ⟨j, rfl⟩ : ∃ j, a = bufAddr cfg c i + j := ⟨a - bufAddr cfg c i, by omega⟩
        rw [Memory.get_setWord_inside _ _ _ _ (by omega), Memory.get_setWord_inside _ _ _ _ (by omega)]
      · rw [Memory.get_setWord_outside _ _ (by omega), Memory.get_setWord_outside _ _ (by omega)]
        exact h a h1 h2
    obtain ⟨i1, i2⟩ := ih (i := i + 1) (n + 10) hist' (fun a h1 h2 => hset a (by omega) (by omega))
    refine ⟨i1, fun a h1 h2 => ?_⟩
    rcases Nat.lt_or_ge a (bufAddr cfg c (i + 1)) with h3 | h3
    · rw [filterLoop_get_outside _ _ _ (.inl h3), filterLoop_get_outside _ _ _ (.inl h3)]
      exact hset a h1 h2
    · exact i2 a h3 (by omega)

/-! FILTER and CHAIN on the state -/

theorem filterStage_frame (cfg : Config) (n : Nat) (st : Stage) (c : Channel) (count : Nat) (s : State) :
    filterStage cfg n st c count s =
      { s with fh := (filterStage cfg n st c count s).fh, buf := (filterStage cfg n st c count s).buf } :=
  rfl

theorem filterStage_history_self (cfg : Config) (n : Nat) (st : Stage) (c : Channel) (count : Nat)
    (s : State) :
    State.history (filterStage cfg n st c count s) st c =
      (filterLoop cfg (PerStage.get s.cf st) c count n 0 s.buf (State.history s st c)).2 := by
  cases st <;> cases c <;> rfl

theorem filterStage_get_outside (cfg : Config) (n : Nat) (st : Stage) (c : Channel) {count a : Nat}
    (s : State) (h : a < bufAddr cfg c 0 ∨ bufAddr cfg c 0 + 4 * count ≤ a) :
    Memory.get (filterStage cfg n st c count s).buf a = Memory.get s.buf a := by
  have e := bufAddr_eq cfg c (0 + count)
  exact filterLoop_get_outside _ _ _ (by omega) _ _ _

theorem filterStage_buf_wf (cfg : Config) (n : Nat) (st : Stage) (c : Channel) (count : Nat) {s : State}
    (h : Memory.wf s.buf) : Memory.wf (filterStage cfg n st c count s).buf :=
  filterLoop_wf _ _ _ _ _ _ _ h

/-- A history other than the one a stage works on is kept. -/
theorem filterStage_history_other (cfg : Config) (n : Nat) (st st' : Stage) (c c' : Channel) (count : Nat)
    (s : State) (h : c' ≠ c ∨ st' ≠ st) :
    State.history (filterStage cfg n st c count s) st' c' = State.history s st' c' := by
  cases st <;> cases st' <;> cases c <;> cases c' <;> first | rfl | simp at h

theorem chainLoop_frame (cfg : Config) (count : Nat) (cs : List Channel) (n : Nat) (s : State) :
    chainLoop cfg count cs n s =
      { s with fh := (chainLoop cfg count cs n s).fh, buf := (chainLoop cfg count cs n s).buf } := by
  induction cs generalizing n s with
  | nil => rfl
  | cons c cs ih => rw [chainLoop, ih]; rfl

theorem chainLoop_get_outside (cfg : Config) (count : Nat) (cs : List Channel) (n : Nat) (s : State)
    {a : Nat} (h : ∀ c ∈ cs, a < bufAddr cfg c 0 ∨ bufAddr cfg c 0 + 4 * count ≤ a) :
    Memory.get (chainLoop cfg count cs n s).buf a = Memory.get s.buf a := by
  induction cs generalizing n s with
  | nil => rfl
  | cons c cs ih =>
    rw [chainLoop, ih _ _ (fun c' hc => h c' (List.mem_cons_of_mem _ hc)),
      filterStage_get_outside _ _ _ _ _ (h c List.mem_cons_self),
      filterStage_get_outside _ _ _ _ _ (h c List.mem_cons_self)]

theorem chainLoop_buf_wf (cfg : Config) (count : Nat) (cs : List Channel) (n : Nat) {s : State}
    (h : Memory.wf s.buf) : Memory.wf (chainLoop cfg count cs n s).buf := by
  induction cs generalizing n s with
  | nil => exact h
  | cons c cs ih =>
    rw [chainLoop]; exact ih _ (filterStage_buf_wf _ _ _ _ _ (filterStage_buf_wf _ _ _ _ _ h))

theorem chainLoop_history_other (cfg : Config) (count : Nat) (cs : List Channel) (n : Nat) (s : State)
    (st : Stage) {c : Channel} (h : c ∉ cs) :
    State.history (chainLoop cfg count cs n s) st c = State.history s st c := by
  induction cs generalizing n s with
  | nil => rfl
  | cons d cs ih =>
    have hne : c ≠ d := fun e => h (e ▸ List.mem_cons_self)
    rw [chainLoop, ih _ _ (fun hm => h (List.mem_cons_of_mem _ hm)),
      filterStage_history_other _ _ _ _ _ _ _ _ (.inl hne),
      filterStage_history_other _ _ _ _ _ _ _ _ (.inl hne)]

end Sys2Proof.Machine
end

