-- ==== Sys2Proof/Laws/Host.lean ====
section
/-! SUPPORT. The host port and the step: which words are commands (R91, R94), the address map (R29, R64),
and, once, everything a step that ends in a next state can be. -/

namespace Sys2Proof

/-- A word is its two fields. -/
theorem word_of_fields (w : Word) : w.extractLsb' 8 24 ++ w.extractLsb' 0 8 = w := by
  refine BitVec.eq_of_getLsbD_eq fun i hi => ?_
  simp only [BitVec.getLsbD_append, BitVec.getLsbD_extractLsb']
  split_ifs with h
  · simp [h]
  · rw [show 8 + (i - 8) = i by omega]
    have : i - 8 < 24 := by omega
    simp [this]

/-- The words of the opcode map are exactly the three command words (R91, R94). -/
theorem decodeWord_ok_iff (w : Word) (i : Instr) : decodeWord w = .ok i ↔ w = encode i := by
  constructor
  · intro h
    rw [decodeWord, decodeFields, cmdFields] at h
    split_ifs at h with h0 h1 h2 h3 <;> simp only [Except.ok.injEq, not_not] at h h0 <;> subst h <;>
      rw [← word_of_fields w, h0]
    · rw [show w.extractLsb' 0 8 = _ from h1]; decide
    · rw [show w.extractLsb' 0 8 = _ from h2]; decide
    · rw [show w.extractLsb' 0 8 = _ from h3]; decide
  · rintro rfl
    cases i <;> decide

/-- A word that is no command's word does not decode (R94). -/
theorem decodeWord_error {w : Word} (h : ∀ i : Instr, w ≠ encode i) : ∃ e, decodeWord w = .error e := by
  cases hd : decodeWord w with
  | error e => exact ⟨e, rfl⟩
  | ok i => exact absurd ((decodeWord_ok_iff w i).1 hd) (h i)

namespace Machine

/-- Between the last register and the block buffer every word is reserved (R29, R64). -/
theorem hostLoc_high_reserved {addr : Nat} (h1 : 0x44 ≤ addr) (h2 : addr < 0x8000) :
    hostLoc hardware addr = .reserved := by
  have e : ∀ k, k < 0x44 → (addr = k) = False := fun k hk => eq_false (by omega)
  simp (disch := decide) only [hostLoc, Nat.not_le.2 h2, e, if_false]

/-- The block buffer fills the upper half of the space (R64). -/
theorem hostLoc_upper {addr : Nat} (h1 : 0x8000 ≤ addr) (h2 : addr < 0x10000) :
    hostLoc hardware addr = .buf := by
  rw [hostLoc, if_pos h1, if_pos (by show addr < 0x8000 + 8 * 4096; omega)]

theorem hostLoc_beyond {addr : Nat} (h : 0x10000 ≤ addr) : hostLoc hardware addr = .reserved := by
  rw [hostLoc, if_pos (by omega), if_neg (by show ¬ addr < 0x8000 + 8 * 4096; omega)]

/-- The register words, one by one (R29). -/
theorem hostLoc_low : ∀ addr < 0x44, hostLoc hardware addr =
    match addr with
    | 0x00 => .cmd
    | 0x04 => .status
    | 0x08 => .argFs
    | 0x0C => .argNch
    | 0x10 => .argMaxMs
    | 0x14 => .argNsamp
    | 0x20 => .param .delayTime
    | 0x24 => .param .dryWetMix
    | 0x28 => .param .hpfCutoff
    | 0x2C => .param .lpfCutoff
    | 0x30 => .cfgFs
    | 0x34 => .cfgNch
    | 0x38 => .cfgMaxMs
    | 0x3C => .capacity
    | 0x40 => .writePos
    | _ => .reserved := by
  decide

/-- `CMD` is the word at 0x00 and no other (R29). -/
theorem hostLoc_cmd_iff (addr : Nat) : hostLoc hardware addr = .cmd ↔ addr = 0 := by
  constructor
  · intro h
    rcases Nat.lt_or_ge addr 0x44 with h1 | h1
    · have low : ∀ a < 0x44, hostLoc hardware a = .cmd → a = 0 := by decide
      exact low addr h1 h
    · rcases Nat.lt_or_ge addr 0x8000 with h2 | h2
      · rw [hostLoc_high_reserved h1 h2] at h; cases h
      · rcases Nat.lt_or_ge addr 0x10000 with h3 | h3
        · rw [hostLoc_upper h2 h3] at h; cases h
        · rw [hostLoc_beyond h3] at h; cases h
  · rintro rfl; rfl

/-- An access passes R62 exactly when it is a 32-bit access at a multiple of 4 inside the space. -/
theorem accessCheck_done {addr width : Nat} {e : HostEffect} (hw : width = 4) (ha : addr % 4 = 0)
    (hs : addr < 0x10000) : accessCheck addr width e = e := by
  rw [accessCheck, if_neg (by omega), if_neg (by omega), if_neg (by omega)]

theorem accessCheck_cases (addr width : Nat) (e : HostEffect) :
    (accessCheck addr width e = .refuse .accessWidth) ∨
    (accessCheck addr width e = .refuse .misalignedAccess) ∨
    (accessCheck addr width e = .absent) ∨
    (accessCheck addr width e = e ∧ width = 4 ∧ addr % 4 = 0 ∧ addr < 0x10000) := by
  rw [accessCheck]
  split_ifs with h1 h2 h3
  · exact .inl rfl
  · exact .inr (.inl rfl)
  · exact .inr (.inr (.inl rfl))
  · exact .inr (.inr (.inr ⟨rfl, not_not.1 h1, not_not.1 h2, by omega⟩))

/-- A command that ended landed what was in flight (R66, R67). -/
theorem finishCommand_next {o : Host.Outcome State Fault Refusal} {t : State}
    (h : finishCommand o = .next t) : ∃ u, o = .next u ∧ t = State.landAll u := by
  cases o with
  | next u => exact ⟨u, rfl, by simpa [finishCommand] using h.symm⟩
  | fault f => simp [finishCommand] at h
  | refused r => simp [finishCommand] at h

theorem step_nil {s : State} (h : s.host = []) : step s = .next s := by
  rw [step, h]

theorem step_cons {s : State} {m : HostMove} {rest : List HostMove} (h : s.host = m :: rest) :
    step s =
      match hostMove hardware m { s with host := rest } with
      | .done t => .next t
      | .command w t => runCommand w t
      | .refuse r => .refused r
      | .absent => .fault .outsideHostSpace := by
  cases s; cases h; rfl

/-- A 32-bit write to `CMD` runs the word it writes. -/
theorem step_command {s : State} {w : Word} {rest : List HostMove} (h : s.host = .write 0 4 w :: rest) :
    step s = runCommand w { s with host := rest } := by
  rw [step_cons h, hostMove, accessCheck_done rfl rfl (by omega), if_pos ((hostLoc_cmd_iff 0).2 rfl)]

/-- A write to any other word of the space is over at once. -/
theorem step_write {s : State} {addr : Nat} {v : Word} {rest : List HostMove}
    (h : s.host = .write addr 4 v :: rest) (ha : addr % 4 = 0) (hs : addr < 0x10000) (h0 : addr ≠ 0) :
    step s = .next (hostWrite hardware { s with host := rest } addr v) := by
  rw [step_cons h, hostMove, accessCheck_done rfl ha hs,
    if_neg (fun hc => h0 ((hostLoc_cmd_iff addr).1 hc))]

theorem step_read {s : State} {addr : Nat} {rest : List HostMove}
    (h : s.host = .read addr 4 :: rest) (ha : addr % 4 = 0) (hs : addr < 0x10000) :
    step s = .next { s with
      host := rest, rdata := hostReadValue hardware { s with host := rest } addr,
      draws := s.draws + 1 } := by
  rw [step_cons h, hostMove, accessCheck_done rfl ha hs]

/-- What a step that ends in a next state did: nothing (no move was left), a write to a word other than
`CMD`, a read, the start of a control-thread write, the reset event, a command, an illegal command
word. -/
theorem step_cases {s t : State} (h : step s = .next t) :
    (s.host = [] ∧ t = s) ∨
    ∃ m rest, s.host = m :: rest ∧
      ((∃ addr v, m = .write addr 4 v ∧ addr % 4 = 0 ∧ addr < 0x10000 ∧ addr ≠ 0 ∧
          t = hostWrite hardware { s with host := rest } addr v) ∨
       (∃ addr, m = .read addr 4 ∧ addr % 4 = 0 ∧ addr < 0x10000 ∧
          t = { s with
            host := rest, rdata := hostReadValue hardware { s with host := rest } addr,
            draws := s.draws + 1 }) ∨
       (∃ w, m = .overlap w ∧ t = { s with host := rest, landing := s.landing ++ [w] }) ∨
       (m = .reset ∧ t = State.hardwareReset hardware { s with host := rest }) ∨
       (∃ i u, m = .write 0 4 (encode i) ∧ exec i { s with host := rest } = .next u ∧
          t = State.landAll u) ∨
       (∃ w, m = .write 0 4 w ∧ (∀ i : Instr, w ≠ encode i) ∧
          t = State.landAll (State.illegalCommand { s with host := rest }))) := by
  cases hh : s.host with
  | nil =>
    rw [step_nil hh] at h
    exact .inl ⟨rfl, by simpa using h.symm⟩
  | cons m rest =>
    refine .inr ⟨m, rest, rfl, ?_⟩
    rw [step_cons hh] at h
    cases m with
    | write addr width v =>
      rw [hostMove] at h
      rcases accessCheck_cases addr width (if hostLoc hardware addr = .cmd then
          .command v { s with host := rest }
        else .done (hostWrite hardware { s with host := rest } addr v)) with e | e | e | ⟨e, rfl, ha, hs⟩
      · rw [e] at h; cases h
      · rw [e] at h; cases h
      · rw [e] at h; cases h
      rw [e] at h
      by_cases hc : hostLoc hardware addr = .cmd
      · rw [if_pos hc] at h
        obtain rfl := (hostLoc_cmd_iff addr).1 hc
        obtain ⟨u, hu, rfl⟩ := finishCommand_next h
        by_cases hi : ∃ i, v = encode i
        · obtain ⟨i, rfl⟩ := hi
          rw [(decodeWord_ok_iff _ i).2 rfl] at hu
          exact .inr (.inr (.inr (.inr (.inl ⟨i, u, rfl, hu, rfl⟩))))
        · have hn : ∀ i : Instr, v ≠ encode i := fun i hv => hi ⟨i, hv⟩
          obtain ⟨err, he⟩ := decodeWord_error hn
          rw [he] at hu
          simp only [Host.Outcome.next.injEq] at hu
          exact .inr (.inr (.inr (.inr (.inr ⟨v, rfl, hn, by rw [hu]⟩))))
      · rw [if_neg hc] at h
        simp only [Host.Outcome.next.injEq] at h
        exact .inl ⟨addr, v, rfl, ha, hs, fun h0 => hc ((hostLoc_cmd_iff addr).2 h0), h.symm⟩
    | read addr width =>
      rw [hostMove] at h
      rcases accessCheck_cases addr width (.done { ({ s with host := rest } : State) with
          rdata := hostReadValue hardware { s with host := rest } addr,
          draws := s.draws + 1 }) with e | e | e | ⟨e, rfl, ha, hs⟩
      · rw [e] at h; cases h
      · rw [e] at h; cases h
      · rw [e] at h; cases h
      rw [e] at h
      simp only [Host.Outcome.next.injEq] at h
      exact .inr (.inl ⟨addr, rfl, ha, hs, h.symm⟩)
    | overlap w =>
      simp only [hostMove, Host.Outcome.next.injEq] at h
      exact .inr (.inr (.inl ⟨w, rfl, h.symm⟩))
    | reset =>
      simp only [hostMove, Host.Outcome.next.injEq] at h
      exact .inr (.inr (.inr (.inl ⟨rfl, h.symm⟩)))

/-- A write other than to `CMD` changes an operand register, a `PARAM` register or a word of the block
buffer, and nothing else. -/
theorem hostWrite_frame (s : State) (addr : Nat) (v : Word) :
    hostWrite hardware s addr v =
      { s with
        argFs := (hostWrite hardware s addr v).argFs, argNch := (hostWrite hardware s addr v).argNch,
        argMaxMs := (hostWrite hardware s addr v).argMaxMs,
        argNsamp := (hostWrite hardware s addr v).argNsamp,
        param := (hostWrite hardware s addr v).param, buf := (hostWrite hardware s addr v).buf } := by
  rw [hostWrite]; cases hostLoc hardware addr <;> rfl

theorem hostWrite_buf_wf {s : State} (addr : Nat) (v : Word) (h : Memory.wf s.buf) :
    Memory.wf (hostWrite hardware s addr v).buf := by
  rw [hostWrite]; cases hostLoc hardware addr <;> first | exact h | exact Memory.setWord_wf _ _ h

end Machine

end Sys2Proof
end

