-- ==== Sys2Proof/Laws/Lifecycle.lean ====
section
/-! SUPPORT. What PREPARE's two loops clear (R211), and what a valid PREPARE leaves alone. -/

namespace Sys2Proof.Machine

theorem mem_channelsOf (n : Nat) (c : Channel) : c ∈ channelsOf n ↔ Channel.index c < n := by
  rcases n with _ | _ | n <;> cases c <;> simp [channelsOf, Channel.index]

theorem length_channelsOf {n : Nat} (h : n ≤ 2) : (channelsOf n).length = n := by
  simp only [channelsOf, List.length_take, List.length_cons, List.length_nil]; omega

theorem clearHistories_frame (cs : List Channel) (s : State) :
    clearHistories cs s = { s with fh := (clearHistories cs s).fh } := by
  induction cs generalizing s with
  | nil => rfl
  | cons c cs ih => rw [clearHistories, ih]; rfl

theorem clearHistories_history (cs : List Channel) (s : State) (st : Stage) (c : Channel) :
    State.history (clearHistories cs s) st c =
      if c ∈ cs then History.cleared else State.history s st c := by
  induction cs generalizing s with
  | nil => rfl
  | cons d cs ih =>
    rw [clearHistories, ih]
    by_cases h : c ∈ cs
    · rw [if_pos h, if_pos (List.mem_cons_of_mem _ h)]
    · rw [if_neg h]
      by_cases hd : c = d
      · subst hd
        rw [if_pos List.mem_cons_self]
        cases st <;> cases c <;> rfl
      · rw [if_neg (by simp [hd, h])]
        cases st <;> cases c <;> cases d <;> first | rfl | exact absurd rfl hd

theorem clearRings_frame (cfg : Config) (cap : Nat) (cs : List Channel) (s : State) :
    clearRings cfg cap cs s = { s with ring := (clearRings cfg cap cs s).ring } := by
  induction cs generalizing s with
  | nil => rfl
  | cons c cs ih => rw [clearRings, ih]

theorem clearRings_wf (cfg : Config) (cap : Nat) (cs : List Channel) {s : State} (h : Memory.wf s.ring) :
    Memory.wf (clearRings cfg cap cs s).ring := by
  induction cs generalizing s with
  | nil => exact h
  | cons c cs ih => rw [clearRings]; exact ih (Memory.clearWords_wf _ _ h)

/-- After the loop a ring byte is 0 if some listed channel's ring holds it, else what it was. -/
theorem clearRings_get (cfg : Config) (cap : Nat) (cs : List Channel) (s : State) (a : Nat) :
    Memory.get (clearRings cfg cap cs s).ring a =
      if ∃ c ∈ cs, ringAddr cfg c 0 ≤ a ∧ a < ringAddr cfg c 0 + 4 * cap then some 0
      else Memory.get s.ring a := by
  induction cs generalizing s with
  | nil => simp [clearRings]
  | cons d cs ih =>
    rw [clearRings, ih]
    by_cases h : ∃ c ∈ cs, ringAddr cfg c 0 ≤ a ∧ a < ringAddr cfg c 0 + 4 * cap
    · obtain ⟨c, hc, hr⟩ := h
      rw [if_pos ⟨c, hc, hr⟩, if_pos ⟨c, List.mem_cons_of_mem _ hc, hr⟩]
    · rw [if_neg h]
      by_cases hd : ringAddr cfg d 0 ≤ a ∧ a < ringAddr cfg d 0 + 4 * cap
      · rw [if_pos ⟨d, List.mem_cons_self, hd⟩]
        exact Memory.get_clearWords_inside _ _ _ _ hd.1 hd.2
      · rw [if_neg (by
          rintro ⟨c, hc, hr⟩
          rcases List.mem_cons.1 hc with rfl | hc
          · exact hd hr
          · exact h ⟨c, hc, hr⟩)]
        exact Memory.get_clearWords_outside _ _ _ _ (by omega)

/-- What a valid PREPARE writes: the latched operands, the capacity, the write position, the cause, the
state, histories and rings; nothing else (R211). -/
theorem prepareValid_frame (cfg : Config) (cap : Nat) (s : State) :
    prepareValid cfg cap s =
      { s with
        engState := .prepared, cause := .none
        cfgFs := s.argFs, cfgNch := s.argNch, cfgMaxMs := s.argMaxMs
        capacity := BitVec.ofNat 32 cap, writePos := 0
        fh := (clearHistories (channelsOf s.argNch.toNat) s).fh
        ring := (clearRings cfg cap (channelsOf s.argNch.toNat) s).ring } := by
  have hh : ∀ (cs : List Channel) (u v : State), u.fh = v.fh →
      (clearHistories cs u).fh = (clearHistories cs v).fh := by
    intro cs
    induction cs with
    | nil => exact fun u v h => h
    | cons c cs ih =>
      intro u v h
      refine ih _ _ ?_
      simp only [State.setHistory, h]
  have hr : ∀ (cs : List Channel) (u v : State), u.ring = v.ring →
      (clearRings cfg cap cs u).ring = (clearRings cfg cap cs v).ring := by
    intro cs
    induction cs with
    | nil => exact fun u v h => h
    | cons c cs ih =>
      intro u v h
      refine ih _ _ ?_
      simp only [h]
  simp only [prepareValid, State.succeed, State.setEngState]
  rw [clearRings_frame, clearHistories_frame]
  simp only [latchConfig]
  congr 1
  · exact hh _ _ s rfl
  · exact hr _ _ s rfl

end Sys2Proof.Machine
end

