-- ==== Sys2Proof/Laws/Operands.lean ====
section
/-! SUPPORT. VALIDATE (R213) and the capacity (R212): when a PREPARE is accepted, and what that says of the
latched operands. -/

namespace Sys2Proof.Machine

/-- VALIDATE accepts exactly the operands that pass its four checks. -/
theorem validate_ok_iff (n : Nat) (fs nch ms : Word) (cap : Nat) :
    validate hardware n fs nch ms = .ok cap ↔
      F32.isFinite fs = true ∧ F32.fgt hardware fs F32.zero = true ∧ (nch = 1 ∨ nch = 2) ∧
      F32.isFinite ms = true ∧ F32.flt hardware ms F32.zero = false ∧
      capacityOf hardware n ms fs = some cap ∧ 1 ≤ cap ∧ cap ≤ 65536 := by
  have hn : (nch = 1 ∨ nch = 2) ↔ ¬ (nch.toNat = 0 ∨ channelsMax < nch.toNat) := by
    simp only [channelsMax, ← BitVec.toNat_inj]
    show nch.toNat = 1 ∨ nch.toNat = 2 ↔ _
    omega
  rw [validate]
  constructor
  · intro h
    by_cases h1 : (!F32.isFinite fs || !F32.fgt hardware fs F32.zero) = true
    · rw [if_pos h1] at h; cases h
    rw [if_neg h1] at h
    by_cases h2 : nch.toNat = 0 ∨ channelsMax < nch.toNat
    · rw [if_pos h2] at h; cases h
    rw [if_neg h2] at h
    by_cases h3 : (!F32.isFinite ms || F32.flt hardware ms F32.zero) = true
    · rw [if_pos h3] at h; cases h
    rw [if_neg h3] at h
    cases hc : capacityOf hardware n ms fs with
    | none => rw [hc] at h; cases h
    | some c =>
      rw [hc] at h
      simp only at h
      split_ifs at h with h4
      simp only [Except.ok.injEq] at h
      subst h
      simp only [Bool.or_eq_true, Bool.not_eq_true', not_or, Bool.not_eq_false,
        Bool.not_eq_true] at h1 h3
      simp only [hardware, not_or, not_lt] at h4
      exact ⟨h1.1, h1.2, hn.2 h2, h3.1, h3.2, rfl, by omega, by omega⟩
  · rintro ⟨h1, h2, h3, h4, h5, h6, h7, h8⟩
    rw [if_neg (by simp [h1, h2]), if_neg (hn.1 h3), if_neg (by simp [h4, h5]), h6]
    simp only
    rw [if_neg (by simp only [hardware]; omega)]

/-- Every accepted capacity fits its register. -/
theorem toNat_capacity {cap : Nat} (h : cap ≤ 65536) : (BitVec.ofNat 32 cap).toNat = cap := by
  rw [BitVec.toNat_ofNat]; omega

/-- No NaN can arise in the capacity of accepted operands, so no free value enters it. -/
theorem capacityOf_draw (n m : Nat) {ms fs : Word} (h1 : F32.isFinite ms = true)
    (h2 : F32.flt hardware ms F32.zero = false) (h3 : F32.isFinite fs = true)
    (h4 : F32.fgt hardware fs F32.zero = true) :
    capacityOf hardware n ms fs = capacityOf hardware m ms fs := by
  obtain ⟨hfn, hfp⟩ := rate_pos h3 h4
  have hs := maxMs_nonneg h1 h2
  have key : ∀ i j len, capacityOf hardware i ms fs = some len →
      capacityOf hardware j ms fs = some len := by
    intro i j len h
    rw [capacityOf_samplesOf] at h ⊢
    obtain ⟨l, hl, -, he⟩ := samplesOf_mono (n := j + 1) (m := j) (F32.isNaN_of_finite h1) h3 hfn hfp
      le_rfl hs hs h
    rw [hl, he rfl]
  cases hc : capacityOf hardware n ms fs with
  | some len => exact (key n m len hc).symm
  | none =>
    cases hc' : capacityOf hardware m ms fs with
    | none => rfl
    | some len => rw [key m n len hc'] at hc; cases hc

/-- A rate with a ring of at least one word is no subnormal number (R153, U9): the ring would hold
`maxDelayMs · fs / 1000 < 1` words. -/
theorem rate_not_subnormal {n cap : Nat} {ms fs : Word} (h1 : F32.isFinite ms = true)
    (h2 : F32.flt hardware ms F32.zero = false) (h3 : F32.isFinite fs = true)
    (h4 : F32.fgt hardware fs F32.zero = true) (hc : capacityOf hardware n ms fs = some cap)
    (h5 : 1 ≤ cap) : F32.isSubnormal fs = false := by
  obtain ⟨hfn, hfp⟩ := rate_pos h3 h4
  have hs := maxMs_nonneg h1 h2
  by_contra hsub
  have hsub' : F32.mag fs < 2 ^ 23 := by
    simp only [F32.isSubnormal, Bool.not_eq_false, Bool.and_eq_true, decide_eq_true_eq] at hsub
    exact hsub.2
  rw [capacityOf_samplesOf] at hc
  obtain ⟨-, hm⟩ := samplesOf_finite (F32.isNaN_of_finite h1) h3 hfp hc
  have hb := F32.mul_bits (n := n) h1 h3
  have hsgn : F32.neg (F32.mul n ms fs) = false ∨ F32.mag (F32.mul n ms fs) = 0 := by
    rcases hs with h | h
    · left; rw [hb.2, h, hfn]; rfl
    · right; rw [hb.1, F32.units_def ms, h]; simp
  rw [samplesOf, floorU32_div_thousand hm hsgn] at hc
  have hu : F32.units fs ≤ 2 ^ 23 := by
    rw [F32.units_def, F32.magUnits, if_pos (Nat.div_eq_of_lt hsub')]
    exact (Nat.mod_lt _ (by norm_num)).le
  have hp : F32.units (F32.mul n ms fs) ≤ 2 ^ 151 := by
    rw [F32.units_def, hb.1]
    refine F32.roundMag_units_le_pow (by positivity) (by norm_num) ?_
    calc F32.units ms * F32.units fs ≤ 2 ^ 277 * 2 ^ 23 :=
          Nat.mul_le_mul (F32.units_lt_of_finite h1).le hu
      _ = 2 ^ 151 * 2 ^ 149 := by rw [← pow_add, ← pow_add]
  have hq : F32.magUnits (F32.roundMag (F32.units (F32.mul n ms fs) * 2 ^ 149)
      (F32.units F32.thousand)) ≤ 2 ^ 142 := by
    refine F32.roundMag_units_le_pow (by decide +kernel) (by norm_num) ?_
    have ht : 2 ^ 158 ≤ F32.units F32.thousand := by decide +kernel
    calc F32.units (F32.mul n ms fs) * 2 ^ 149 ≤ 2 ^ 151 * 2 ^ 149 := Nat.mul_le_mul_right _ hp
      _ = 2 ^ 142 * 2 ^ 158 := by rw [← pow_add, ← pow_add]
      _ ≤ 2 ^ 142 * F32.units F32.thousand := Nat.mul_le_mul_left _ ht
  have hz : F32.magUnits (F32.roundMag (F32.units (F32.mul n ms fs) * 2 ^ 149)
      (F32.units F32.thousand)) / 2 ^ 149 = 0 :=
    Nat.div_eq_of_lt (lt_of_le_of_lt hq (Nat.pow_lt_pow_right (by norm_num) (by norm_num)))
  simp only [hz] at hc
  split_ifs at hc
  simp only [Option.some.injEq] at hc
  omega

end Sys2Proof.Machine
end

