-- ==== Sys2Proof/Laws/PerInstr.lean ====
section
/-! SUPPORT. The family of statements made per command: its word, read as the opcode table numbers bits,
is that command and no other, and its fields are well formed (R90, R91). -/

namespace Sys2Proof

/-- The command's word is well formed, decodes to the command, and only the command has that word. -/
def Laws.RoundTrip.Statement (i : Instr) : Prop :=
  Instr.wf i = true ∧ Cmd32.wf (cmdFields (encode i)) = true ∧
  decodeTableWord 32 (encode i).toNat = some i ∧ ∀ j : Instr, encode j = encode i → j = i

theorem Laws.RoundTrip.prepare : Laws.RoundTrip.Statement .prepare := by
  refine ⟨rfl, by decide, by decide, ?_⟩
  intro j h; cases j <;> first | rfl | exact absurd h (by decide)

theorem Laws.RoundTrip.release : Laws.RoundTrip.Statement .release := by
  refine ⟨rfl, by decide, by decide, ?_⟩
  intro j h; cases j <;> first | rfl | exact absurd h (by decide)

theorem Laws.RoundTrip.process : Laws.RoundTrip.Statement .process := by
  refine ⟨rfl, by decide, by decide, ?_⟩
  intro j h; cases j <;> first | rfl | exact absurd h (by decide)

end Sys2Proof
end

