-- ==== Sys2Proof/Laws/Process.lean ====
section
/-! SUPPORT. What PROCESS can do (R215 to R221): which of its five endings it takes, and what a block
changes. -/

namespace Sys2Proof.Machine

/-- Pulling the targets changes the `PARAM` registers and the writes in flight, nothing else (R67). -/
theorem pullTargets_frame (s : State) :
    ∃ p l, (pullTargets s).2 = { s with param := p, landing := l } := ⟨_, _, rfl⟩

/-- Steps 2 and 3 of R215 as one update. -/
theorem smoothAndConfigure_eq (cfg : Config) (n : Nat) (t : Params) (s : State) :
    smoothAndConfigure cfg n t s =
      { s with
        sm := smoothParams cfg n s.sm t
        cf := ⟨stageCoefs cfg (n + 12) .highPass (smoothParams cfg n s.sm t).hpfCutoff s.cfgFs,
               stageCoefs cfg (n + 13) .lowPass (smoothParams cfg n s.sm t).lpfCutoff s.cfgFs⟩ } := rfl

/-- A channel's delay length in step 5: the mapped length, at most the capacity. -/
theorem delayFor_ok {cfg : Config} {n : Nat} {c : Channel} {s : State} {d : Nat}
    (h : delayFor cfg n c s = .ok d) :
    mapDelay cfg n c s.sm.delayTime s.cfgMaxMs s.cfgFs = some d ∧ d ≤ s.capacity.toNat := by
  rw [delayFor] at h
  cases hm : mapDelay cfg n c s.sm.delayTime s.cfgMaxMs s.cfgFs with
  | none => rw [hm] at h; cases h
  | some e =>
    rw [hm] at h
    simp only at h
    split_ifs at h with hc
    simp only [Except.ok.injEq] at h
    subst h
    exact ⟨rfl, by omega⟩

theorem delayFor_of_mapDelay {cfg : Config} {n : Nat} {c : Channel} {s : State} {d : Nat}
    (h : mapDelay cfg n c s.sm.delayTime s.cfgMaxMs s.cfgFs = some d) (hd : d ≤ s.capacity.toNat) :
    delayFor cfg n c s = .ok d := by
  rw [delayFor, h]; simp only; rw [if_neg (by omega)]

/-- Step 5 over a list of channels: one by one, each with the length it has. -/
theorem delayChannels_cons {cfg : Config} {count : Nat} {c : Channel} {cs : List Channel} {n : Nat}
    {s t : State} (h : delayChannels cfg count (c :: cs) n s = .ok t) :
    ∃ d, delayFor cfg n c s = .ok d ∧
      delayChannels cfg count cs (n + 4 + 6 * count) (delayMix cfg (n + 4) c count d s.sm.dryWetMix s)
        = .ok t := by
  rw [delayChannels] at h
  cases hd : delayFor cfg n c s with
  | error r => rw [hd] at h; cases h
  | ok d => rw [hd] at h; exact ⟨d, rfl, h⟩

theorem delayChannels_frame {cfg : Config} {count : Nat} {cs : List Channel} {n : Nat} {s t : State}
    (h : delayChannels cfg count cs n s = .ok t) : ∃ b r, t = { s with buf := b, ring := r } := by
  induction cs generalizing n s with
  | nil => exact ⟨s.buf, s.ring, by simpa [delayChannels] using h.symm⟩
  | cons c cs ih =>
    obtain ⟨d, -, h⟩ := delayChannels_cons h
    obtain ⟨b, r, rfl⟩ := ih h
    exact ⟨b, r, rfl⟩

theorem delayChannels_wf {cfg : Config} {count : Nat} {cs : List Channel} {n : Nat} {s t : State}
    (h : delayChannels cfg count cs n s = .ok t) (hb : Memory.wf s.buf) (hr : Memory.wf s.ring) :
    Memory.wf t.buf ∧ Memory.wf t.ring := by
  induction cs generalizing n s with
  | nil => simp only [delayChannels, Except.ok.injEq] at h; rw [← h]; exact ⟨hb, hr⟩
  | cons c cs ih =>
    obtain ⟨d, -, h⟩ := delayChannels_cons h
    have := delayLoop_wf cfg c s.capacity.toNat s.writePos.toNat d s.sm.dryWetMix count (n + 4) 0 hb hr
    exact ih h this.1 this.2

/-- Step 5 ends when every channel listed has a length within the capacity. -/
theorem delayChannels_exists {cfg : Config} {count : Nat} {cs : List Channel} {s : State}
    (h : ∀ c n, ∃ d, mapDelay cfg n c s.sm.delayTime s.cfgMaxMs s.cfgFs = some d ∧
      d ≤ s.capacity.toNat) (n : Nat) : ∃ t, delayChannels cfg count cs n s = .ok t := by
  induction cs generalizing n s with
  | nil => exact ⟨s, rfl⟩
  | cons c cs ih =>
    obtain ⟨d, h1, h2⟩ := h c n
    obtain ⟨t, ht⟩ := ih (s := delayMix cfg (n + 4) c count d s.sm.dryWetMix s) h (n + 4 + 6 * count)
    refine ⟨t, ?_⟩
    rw [delayChannels, delayFor_of_mapDelay h1 h2]
    exact ht

/-- A block that ends: step 5 ended, and then step 6 was taken. -/
theorem runBlock_ok {cfg : Config} {count : Nat} {p : Params} {s t : State}
    (h : runBlock cfg count p s = .ok t) :
    ∃ u, delayChannels cfg count (channelsOf s.cfgNch.toNat)
        (s.draws + 14 + (channelsOf s.cfgNch.toNat).length * (20 * count))
        (chainLoop cfg count (channelsOf s.cfgNch.toNat) (s.draws + 14)
          (smoothAndConfigure cfg s.draws p s)) = .ok u ∧
      t = advance count (channelsOf s.cfgNch.toNat).length u := by
  rw [runBlock] at h
  cases hd : delayChannels cfg count (channelsOf s.cfgNch.toNat)
        (s.draws + 14 + (channelsOf s.cfgNch.toNat).length * (20 * count))
        (chainLoop cfg count (channelsOf s.cfgNch.toNat) (s.draws + 14)
          (smoothAndConfigure cfg s.draws p s)) with
  | error r => rw [hd] at h; cases h
  | ok u => rw [hd] at h; exact ⟨u, rfl, by simpa using h.symm⟩

/-- What a block that ends changes: the smoothers, the coefficients, histories, both memories, the write
position, the cause; nothing else (R215). -/
theorem runBlock_frame {cfg : Config} {count : Nat} {p : Params} {s t : State}
    (h : runBlock cfg count p s = .ok t) :
    ∃ f b r, t = { s with
      sm := smoothParams cfg s.draws s.sm p
      cf := (smoothAndConfigure cfg s.draws p s).cf
      fh := f, buf := b, ring := r
      writePos := BitVec.ofNat 32 ((s.writePos.toNat + count) % s.capacity.toNat)
      cause := .none
      draws := s.draws + blockDraws (channelsOf s.cfgNch.toNat).length count } := by
  obtain ⟨u, hu, rfl⟩ := runBlock_ok h
  obtain ⟨b, r, rfl⟩ := delayChannels_frame hu
  rw [chainLoop_frame]
  exact ⟨_, b, r, rfl⟩

/-- A block keeps both memories in canonical form. -/
theorem runBlock_wf {cfg : Config} {count : Nat} {p : Params} {s t : State}
    (h : runBlock cfg count p s = .ok t) (hb : Memory.wf s.buf) (hr : Memory.wf s.ring) :
    Memory.wf t.buf ∧ Memory.wf t.ring := by
  obtain ⟨u, hu, rfl⟩ := runBlock_ok h
  refine delayChannels_wf (t := u) hu (chainLoop_buf_wf cfg count _ _ (s := smoothAndConfigure _ _ _ _) hb) ?_
  rw [chainLoop_frame]
  exact hr

/-- A block ends when every channel has a delay length within the capacity. -/
theorem runBlock_exists {cfg : Config} {count : Nat} {p : Params} {s : State}
    (h : ∀ c n, ∃ d, mapDelay cfg n c (smoothParams cfg s.draws s.sm p).delayTime s.cfgMaxMs s.cfgFs
      = some d ∧ d ≤ s.capacity.toNat) : ∃ t, runBlock cfg count p s = .ok t := by
  obtain ⟨u, hu⟩ := delayChannels_exists (cfg := cfg) (count := count)
    (cs := channelsOf s.cfgNch.toNat)
    (s := chainLoop cfg count (channelsOf s.cfgNch.toNat) (s.draws + 14)
      (smoothAndConfigure cfg s.draws p s))
    (by rw [chainLoop_frame]; exact h)
    (s.draws + 14 + (channelsOf s.cfgNch.toNat).length * (20 * count))
  exact ⟨_, by rw [runBlock]; simp only [hu]; rfl⟩

/-- The five endings of PROCESS that are a next state (R215, R216, R217, R221). -/
theorem processWith_next {cfg : Config} {s t : State} (h : processWith cfg s = .next t) :
    (s.engState ≠ .prepared ∧ t = State.raise s .useUnprepared) ∨
    (s.engState = .prepared ∧ cfg.blockMax < s.argNsamp.toNat ∧ t = State.raise s .useNsamp) ∨
    (s.engState = .prepared ∧ s.argNsamp.toNat = 0 ∧ t = State.succeed s) ∨
    (s.engState = .prepared ∧ 1 ≤ s.argNsamp.toNat ∧ s.argNsamp.toNat ≤ cfg.blockMax ∧
      legalParams (pullTargets s).1 = true ∧ ringUsable cfg s = true ∧
      F32.isSubnormal s.cfgFs = false ∧
      runBlock cfg s.argNsamp.toNat (pullTargets s).1 (pullTargets s).2 = .ok t) := by
  rw [processWith] at h
  by_cases hp : s.engState = .prepared
  · rw [if_neg (by simp [hp])] at h
    by_cases hb : cfg.blockMax < s.argNsamp.toNat
    · rw [if_pos hb] at h
      exact .inr (.inl ⟨hp, hb, by simpa using h.symm⟩)
    · rw [if_neg hb] at h
      by_cases h0 : s.argNsamp.toNat = 0
      · rw [if_pos h0] at h
        exact .inr (.inr (.inl ⟨hp, h0, by simpa using h.symm⟩))
      · rw [if_neg h0, processBlock] at h
        refine .inr (.inr (.inr ⟨hp, by omega, by omega, ?_⟩))
        split_ifs at h with h1 h2 h3
        refine ⟨by simpa using h1, by simpa using h2, by simpa using h3, ?_⟩
        cases hr : runBlock cfg s.argNsamp.toNat (pullTargets s).1 (pullTargets s).2 with
        | error r => rw [hr] at h; cases h
        | ok u => rw [hr] at h; simpa using h
  · rw [if_pos (by simp [hp])] at h
    exact .inl ⟨hp, by simpa using h.symm⟩

/-- A PROCESS that runs a block: every field it may change, and the values of those its first steps and
its last give (R215). -/
theorem processBlock_frame {cfg : Config} {count : Nat} {s t : State}
    (h : runBlock cfg count (pullTargets s).1 (pullTargets s).2 = .ok t) :
    ∃ p l f b r, t = { s with
      param := p, landing := l
      sm := smoothParams cfg s.draws s.sm (pullTargets s).1
      cf := (smoothAndConfigure cfg s.draws (pullTargets s).1 s).cf
      fh := f, buf := b, ring := r
      writePos := BitVec.ofNat 32 ((s.writePos.toNat + count) % s.capacity.toNat)
      cause := .none
      draws := s.draws + blockDraws (channelsOf s.cfgNch.toNat).length count } := by
  obtain ⟨p, l, hq⟩ := pullTargets_frame s
  rw [hq] at h
  obtain ⟨f, b, r, rfl⟩ := runBlock_frame h
  exact ⟨p, l, f, b, r, rfl⟩

/-- It keeps both memories in canonical form. -/
theorem processBlock_wf {cfg : Config} {count : Nat} {s t : State}
    (h : runBlock cfg count (pullTargets s).1 (pullTargets s).2 = .ok t)
    (hb : Memory.wf s.buf) (hr : Memory.wf s.ring) : Memory.wf t.buf ∧ Memory.wf t.ring := by
  obtain ⟨p, l, hq⟩ := pullTargets_frame s
  rw [hq] at h
  exact runBlock_wf h hb hr

/-- It ends when every channel has a delay length within the capacity. -/
theorem processBlock_exists {cfg : Config} {count : Nat} {s : State}
    (h : ∀ c n, ∃ d, mapDelay cfg n c (smoothParams cfg s.draws s.sm (pullTargets s).1).delayTime
      s.cfgMaxMs s.cfgFs = some d ∧ d ≤ s.capacity.toNat) :
    ∃ t, runBlock cfg count (pullTargets s).1 (pullTargets s).2 = .ok t := by
  obtain ⟨p, l, hq⟩ := pullTargets_frame s
  rw [hq]
  exact runBlock_exists h

end Sys2Proof.Machine
end

