-- ==== Sys2Proof/Tests/Slice0.lean ====
section
/-! SUPPORT. The author's own tests. Expected values come from `spec/` (mostly `95_test_vectors.md`, by
its section), never from the model. The second part gives a witness for the hypotheses of every
statement of `Certificates/Slice0/Obligations.lean` that has some. -/

namespace Sys2Proof.Tests

open Sys2Proof Sys2Proof.Machine

set_option Elab.async false

/-! ## Helpers -/

/-- The state an outcome ends in, if it is a next state. -/
def stateOf : Host.Outcome State Fault Refusal → Option State
  | .next t => some t
  | .fault _ => none
  | .refused _ => none

/-- The refusal an outcome ends in. -/
def refusalOf : Host.Outcome State Fault Refusal → Option Refusal
  | .next _ => none
  | .fault _ => none
  | .refused r => some r

/-- Reset with these operands of PREPARE. -/
def withArgs (fs nch ms : Word) : State :=
  { State.reset with argFs := fs, argNch := nch, argMaxMs := ms }

/-- The state after `prepare(8000.0, 2, 1.0)`: a ring of eight words a channel (program P3). -/
def small : State := prepareWith hardware (withArgs 0x45FA0000#32 2 0x3F800000#32)

/-- `small` with `ARG_NSAMP = n`. -/
def smallBlock (n : Word) : State := { small with argNsamp := n }

/-- `small` with one channel. -/
def smallMono : State := prepareWith hardware (withArgs 0x45FA0000#32 1 0x3F800000#32)

/-- `smallMono` with `ARG_NSAMP = n`. -/
def monoBlock (n : Word) : State := { smallMono with argNsamp := n }

/-- The status word after a command word is written to `CMD`. -/
def statusAfter (s : State) (w : Word) : Option Word :=
  (stateOf (step (withCommand s w))).map statusWord

/-- A next state with a property that can be computed. -/
theorem next_of_check {o : Host.Outcome State Fault Refusal} (p : State → Bool)
    (h : (stateOf o).map p = some true) : ∃ t, o = .next t ∧ p t = true := by
  cases o with
  | next u => exact ⟨u, rfl, by simpa [stateOf] using h⟩
  | fault f => exact absurd h (by simp [stateOf])
  | refused r => exact absurd h (by simp [stateOf])

/-! ## Well-formedness refuses ill-formed terms (R62, R90, R91, R119, R64) -/

theorem test_wf_zero_field_set : Cmd32.wf ⟨3#8, 1#24⟩ = false := by decide
theorem test_wf_opcode_zero : Cmd32.wf ⟨0#8, 0#24⟩ = false := by decide
theorem test_wf_opcode_four : Cmd32.wf ⟨4#8, 0#24⟩ = false := by decide
theorem test_wf_opcode_three : Cmd32.wf ⟨3#8, 0#24⟩ = true := by decide
theorem test_wf_access_byte : HostMove.wf (.write 0x00 1 0) = false := by decide
theorem test_wf_access_misaligned : HostMove.wf (.read 0x8002 4) = false := by decide
theorem test_wf_access_outside : HostMove.wf (.read 0x10000 4) = false := by decide
theorem test_wf_access_last_word : HostMove.wf (.write 0xFFFC 4 0) = true := by decide
theorem test_wf_config_default : Config.wf hardware = true := by decide
theorem test_wf_config_ring_too_deep :
    Config.wf { hardware with ringDepth := 2 ^ 31 } = false := by decide
theorem test_wf_config_block_too_long :
    Config.wf { hardware with blockMax := 4097 } = false := by decide

/-! ## Decoding: the words of 30_encoding.md and 2.10, written out bit by bit -/

theorem test_decode_prepare :
    decodeWord 0b00000000000000000000000000000001#32 = .ok .prepare := by decide
theorem test_decode_release :
    decodeWord 0b00000000000000000000000000000010#32 = .ok .release := by decide
theorem test_decode_process :
    decodeWord 0b00000000000000000000000000000011#32 = .ok .process := by decide
theorem test_decode_zero_field :
    decodeWord 0b00000000000000000000000100000011#32 = .error .zeroFieldNotZero := by decide
theorem test_decode_top_bit :
    decodeWord 0b10000000000000000000000000000001#32 = .error .zeroFieldNotZero := by decide
theorem test_decode_unknown :
    decodeWord 0b00000000000000000000000000000100#32 = .error .unknownOpcode := by decide
theorem test_decode_bytes_low_first :
    decode [3#8, 0#8, 0#8, 0#8, 7#8] = .ok (.process, [7#8]) := by decide
theorem test_decode_bytes_high_first :
    decode [0#8, 0#8, 0#8, 3#8] = .error .zeroFieldNotZero := by decide
theorem test_decode_short : decode [3#8, 0#8, 0#8] = .error .tooShort := by decide
theorem test_decode_table :
    decodeTableWord 32 1 = some .prepare ∧ decodeTableWord 32 2 = some .release ∧
    decodeTableWord 32 3 = some .process ∧ decodeTableWord 32 4 = none := by decide

/-! ## Numerics (R110 to R118) -/

/-- 2.6, 2.7, 2.1: exact and rounded products and quotients, and the overflow of a sum. -/
theorem test_arithmetic :
    F32.fmul hardware 0 0x420C0000#32 0x472C4400#32 = 0x49BC6A60#32 ∧
    F32.fdiv hardware 0 0x49BC6A60#32 F32.thousand = 0x44C0F000#32 ∧
    F32.fmul hardware 0 0x3EFAE148#32 0x472C4400#32 = 0x46A8D200#32 ∧
    F32.fadd hardware 0 0x7F61B1E6#32 0x7F61B1E6#32 = 0x7F800000#32 ∧
    F32.fmul hardware 0 0x3B96DD23#32 0x00000001#32 = 0x00000000#32 ∧
    F32.fmul hardware 0 0x3B96DD23#32 0x00800000#32 = 0x000096DD#32 := by decide +kernel

/-- R115: the signs of a zero sum and of a zero difference. -/
theorem test_signed_zeros :
    F32.fadd hardware 0 0x80000000#32 0x00000000#32 = 0x00000000#32 ∧
    F32.fadd hardware 0 0x80000000#32 0x80000000#32 = 0x80000000#32 ∧
    F32.fsub hardware 0 0x3F800000#32 0x3F800000#32 = 0x00000000#32 ∧
    F32.fmul hardware 0 0xBF800000#32 0x00000000#32 = 0x80000000#32 := by decide +kernel

/-- R114, U10: with flush-to-zero a subnormal result becomes a zero. -/
theorem test_flush_to_zero :
    F32.fmul { hardware with subnormals := false } 0 0x3B96DD23#32 0x00800000#32 = 0x00000000#32 := by
  decide +kernel

/-- R118: floor_u32 at the ends of its domain, and on a value between two integers. -/
theorem test_floor :
    F32.floorU32 0x44C0F000#32 = some 1543 ∧ F32.floorU32 0x80000000#32 = some 0 ∧
    F32.floorU32 0x4F7FFFFF#32 = some 4294967040 ∧ F32.floorU32 0x4F800000#32 = none ∧
    F32.floorU32 0xBF800000#32 = none ∧ F32.floorU32 0x7FC00000#32 = none := by decide +kernel

/-! ## The operations (2.1 to 2.9) -/

/-- 2.1. -/
theorem test_smooth :
    smooth hardware 0 0x00000000#32 0x3F800000#32 = 0x3C23D70A#32 ∧
    smooth hardware 0 0x00000000#32 0xC10C0000#32 = 0xBDB33333#32 ∧
    smooth hardware 0 0x80000000#32 0x80000000#32 = 0x00000000#32 ∧
    smooth hardware 0 0x41A00000#32 0x469C4000#32 = 0x435BCCCD#32 ∧
    smooth hardware 0 0x469C4000#32 0x41A00000#32 = 0x469AB066#32 ∧
    smooth hardware 0 0x418BFFCE#32 0x418C0000#32 = 0x418BFFCE#32 ∧
    smooth hardware 0 0xFF61B1E6#32 0x7F61B1E6#32 = 0x7F800000#32 := by decide +kernel

/-- 2.2: every row. -/
theorem test_clamp :
    clampFc hardware 0 0x469C4000#32 0x472C4400#32 = 0x469C4000#32 ∧
    clampFc hardware 0 0x469C4000#32 0x46FA0000#32 = 0x46750000#32 ∧
    clampFc hardware 0 0x469C4000#32 0x45FA0000#32 = 0x45750000#32 ∧
    clampFc hardware 0 0x46AC4400#32 0x472C4400#32 = 0x46A8D200#32 ∧
    clampFc hardware 0 0x40A00000#32 0x472C4400#32 = 0x41A00000#32 ∧
    clampFc hardware 0 0x41A00000#32 0x41F00000#32 = 0x416B3334#32 ∧
    clampFc hardware 0 0x7FC00000#32 0x472C4400#32 = 0x41A00000#32 := by decide +kernel

/-- 2.3, rows 1 and 2. -/
theorem test_coef_1000_44100 :
    Coef.cookbook .lowPass 0x447A0000#32 0x3F3504F3#32 0x472C4400#32 =
      ⟨0x3B96DD23#32, 0x3C16DD23#32, 0x3B96DD23#32, 0xBFE648CB#32, 0x3F51487E#32⟩ ∧
    Coef.cookbook .highPass 0x447A0000#32 0x3F3504F3#32 0x472C4400#32 =
      ⟨0x3F677685#32, 0xBFE77685#32, 0x3F677685#32, 0xBFE648CB#32, 0x3F51487E#32⟩ := by
  decide +kernel

/-- 2.3, rows 3, 4 and 8. -/
theorem test_coef_ends :
    Coef.cookbook .lowPass 0x469C4000#32 0x3F3504F3#32 0x472C4400#32 =
      ⟨0x3F5030C1#32, 0x3FD030C1#32, 0x3F5030C1#32, 0x3FCBAFBC#32, 0x3F29638C#32⟩ ∧
    Coef.cookbook .highPass 0x41A00000#32 0x3F3504F3#32 0x472C4400#32 =
      ⟨0x3F7F7C15#32, 0xBFFF7C15#32, 0x3F7F7C15#32, 0xBFFF7BF3#32, 0x3F7EF86F#32⟩ ∧
    Coef.cookbook .lowPass 0x45750000#32 0x3F3504F3#32 0x45FA0000#32 =
      ⟨0x3F74E004#32, 0x3FF4E004#32, 0x3F74E004#32, 0x3FF4A21B#32, 0x3F6A3BDB#32⟩ := by
  decide +kernel

/-- R122, R155, R156 by hand: with `Q = 0.25` and `sn = 1/2` (one and five twelfths of a turn) `al` is 1,
so `a2` is exactly 0, which is `+0.0`; at the quarter turn `a1` is. -/
theorem test_coef_exact_zeros :
    (Coef.cookbook .highPass 0x457A0000#32 0x3E800000#32 0x473B8000#32).a2 = 0x00000000#32 ∧
    (Coef.cookbook .lowPass 0x469C4000#32 0x3E800000#32 0x473B8000#32).a2 = 0x00000000#32 ∧
    (Coef.cookbook .lowPass 0x463B8000#32 0x3E800000#32 0x473B8000#32).a1 = 0x00000000#32 := by
  decide +kernel

/-- The LowPass 1000 @ 44100 coefficients of 2.3. -/
def lp1000 : Coefs := ⟨0x3B96DD23#32, 0x3C16DD23#32, 0x3B96DD23#32, 0xBFE648CB#32, 0x3F51487E#32⟩

/-- A block buffer with these samples of the left channel. -/
def bufOf (xs : List Word) : Memory :=
  (xs.zipIdx).foldl (fun m x => Memory.setWord m (bufAddr hardware .left x.2) x.1) []

/-- A left ring with these words. -/
def ringOf (xs : List Word) : Memory :=
  (xs.zipIdx).foldl (fun m x => Memory.setWord m (ringAddr hardware .left x.2) x.1) []

/-- The first `n` samples of the left channel. -/
def samples (m : Memory) (n : Nat) : List Word :=
  (List.range n).map fun i => Memory.getWord m 0 (bufAddr hardware .left i)

/-- The first `n` words of the left ring. -/
def ringWords (m : Memory) (n : Nat) : List Word :=
  (List.range n).map fun i => Memory.getWord m 0 (ringAddr hardware .left i)

/-- 2.4, the last row: six samples, and the history they leave. -/
theorem test_filter :
    (let r := filterLoop hardware lp1000 .left 6 0 0
        (bufOf [0x3F800000#32, 0x3F000000#32, 0xBE800000#32, 0x3F400000#32, 0x00000000#32,
          0x3F800000#32]) History.cleared;
      (samples r.1 6, r.2)) =
    ([0x3B96DD23#32, 0x3CA22500#32, 0x3D237110#32, 0x3D71E9C8#32, 0x3DA2974F#32, 0x3DD2225A#32],
      ⟨0x3F800000#32, 0x00000000#32, 0x3DD2225A#32, 0x3DA2974F#32⟩) := by decide +kernel

/-- 2.4: an infinity in the input is infinite twice. -/
theorem test_filter_infinity :
    samples (filterLoop hardware lp1000 .left 2 0 0
        (bufOf [0x7F800000#32, 0x00000000#32]) History.cleared).1 2 =
      [0x7F800000#32, 0x7F800000#32] := by decide +kernel

/-- 2.6: the source's own delays, the polarity, the stalled smoother. -/
theorem test_map_delay :
    mapDelay hardware 0 .left 0xC10C0000#32 0x420C0000#32 0x472C4400#32 = some 771 ∧
    mapDelay hardware 0 .right 0xC10C0000#32 0x420C0000#32 0x472C4400#32 = some 0 ∧
    mapDelay hardware 0 .left 0x80000000#32 0x420C0000#32 0x472C4400#32 = some 0 ∧
    mapDelay hardware 0 .right 0x418C0000#32 0x420C0000#32 0x472C4400#32 = some 1543 ∧
    mapDelay hardware 0 .right 0x418BF464#32 0x420C0000#32 0x472C4400#32 = some 1543 ∧
    mapDelay hardware 0 .right 0x418BF463#32 0x420C0000#32 0x472C4400#32 = some 1542 ∧
    mapDelay hardware 0 .right 0x418BFFCE#32 0x420C0000#32 0x473B8000#32 = some 1679 ∧
    mapDelay hardware 0 .right 0x400B851F#32 0x3F800000#32 0x45FA0000#32 = some 0 := by
  decide +kernel

/-- 2.7: capacities and the first failing check. -/
theorem test_validate :
    validate hardware 0 0x472C4400#32 2 0x420C0000#32 = .ok 1543 ∧
    validate hardware 0 0x472C4400#32 2 0x3CF5C28F#32 = .ok 1 ∧
    validate hardware 0 0x472C4400#32 2 0x44B9C000#32 = .ok 65532 ∧
    validate hardware 0 0x472C4400#32 2 0x44B9C333#32 = .error .cfgMaxDelay ∧
    validate hardware 0 0x472C4400#32 2 0x7F61B1E6#32 = .error .cfgMaxDelay ∧
    validate hardware 0 0x472C4400#32 0xFFFFFFFF#32 0x420C0000#32 = .error .cfgNch ∧
    validate hardware 0 0x472C4400#32 0 0xBF800000#32 = .error .cfgNch ∧
    validate hardware 0 0x80000000#32 0 0xBF800000#32 = .error .cfgFs := by decide +kernel

/-- R212: with `CAP_GUARD = 1` the first example gives 1544. -/
theorem test_validate_guard :
    validate { hardware with capGuard := 1 } 0 0x472C4400#32 2 0x420C0000#32 = .ok 1544 := by
  decide +kernel

/-- 2.8. -/
theorem test_mix :
    mix hardware 0 0x3F000000#32 0x3E800000#32 0x3F000000#32 = 0x3EC00000#32 ∧
    mix hardware 0 0x3F800000#32 0x00000000#32 0x3E99999A#32 = 0x3F333333#32 ∧
    mix hardware 0 0xBF4FF1A3#32 0xBF4FF1A3#32 0x3E99999A#32 = 0xBF4FF1A4#32 ∧
    mix hardware 0 0x80000000#32 0x00000000#32 0x00000000#32 = 0x00000000#32 := by decide +kernel

/-- 2.9, V1: `C = 8`, `W = 6`, `d = 3`, pure wet. -/
theorem test_delay_v1 :
    (let r := delayLoop hardware .left 8 6 3 0x3F800000#32 5 0 0
        (bufOf [0x3F800000#32, 0x40000000#32, 0x40400000#32, 0x40800000#32, 0x40A00000#32])
        (ringOf [0, 0, 0, 0, 0, 0, 0, 0]);
      (samples r.1 5, ringWords r.2 8)) =
    ([0, 0, 0, 0x3F800000#32, 0x40000000#32],
      [0x40400000#32, 0x40800000#32, 0x40A00000#32, 0, 0, 0, 0x3F800000#32, 0x40000000#32]) := by
  decide +kernel

/-- 2.9, V3: the bypass, and the ring it writes all the same; V7: `d = C` is MIX with itself. -/
theorem test_delay_v3_v7 :
    (let r := delayLoop hardware .left 4 0 0 0x3F800000#32 3 0 0
        (bufOf [0x3F800000#32, 0x40000000#32, 0x40400000#32])
        (ringOf [0x41100000#32, 0x41100000#32, 0x41100000#32, 0x41100000#32]);
      (samples r.1 3, ringWords r.2 4)) =
    ([0x3F800000#32, 0x40000000#32, 0x40400000#32],
      [0x3F800000#32, 0x40000000#32, 0x40400000#32, 0x41100000#32]) ∧
    (let r := delayLoop hardware .left 4 0 4 0x3E99999A#32 2 0 0
        (bufOf [0xBF4FF1A3#32, 0x3F800000#32]) (ringOf [0, 0, 0, 0]);
      (samples r.1 2, ringWords r.2 4)) =
    ([0xBF4FF1A4#32, 0x3F800000#32], [0xBF4FF1A3#32, 0x3F800000#32, 0, 0]) := by decide +kernel

/-- U12: with `RING_WRITE_ON_BYPASS = false` V3's ring stays as it was. -/
theorem test_delay_no_write_on_bypass :
    ringWords (delayLoop { hardware with ringWriteOnBypass := false } .left 2 0 0 0x3F800000#32 1 0 0
      (bufOf [0x3F800000#32]) (ringOf [0x41100000#32, 0x41100000#32])).2 2 =
    [0x41100000#32, 0x41100000#32] := by decide +kernel

/-! ## One step each (2.10, P1, P2, P3) -/

/-- 2.10: `prepare(44100.0, 2, 35.0)` from reset, and with the sticky bit set. -/
theorem test_step_prepare :
    (stateOf (step ((withArgs 0x472C4400#32 2 0x420C0000#32).withFetchWord 32 1))).map
      (fun t => (statusWord t, t.capacity, t.writePos, t.cfgMaxMs)) =
      some (0x00000001#32, 1543#32, 0#32, 0x420C0000#32) ∧
    statusAfter { withArgs 0x472C4400#32 2 0x420C0000#32 with esticky := true } 1 =
      some 0x00000101#32 := by decide +kernel

/-- 2.10: the three causes of PREPARE, from Prepared. -/
theorem test_step_prepare_fails :
    statusAfter { small with argFs := 0 } 1 = some 0x00000110#32 ∧
    statusAfter { small with argNch := 3 } 1 = some 0x00000120#32 ∧
    statusAfter { small with argMaxMs := 0 } 1 = some 0x00000130#32 := by decide +kernel

/-- 2.10: RELEASE from Prepared with the sticky bit set, and from Unprepared. -/
theorem test_step_release :
    statusAfter { small with esticky := true } 2 = some 0x00000100#32 ∧
    statusAfter State.reset 2 = some 0x00000000#32 := by decide +kernel

/-- 2.10: the causes of PROCESS, its empty block, and the illegal words. -/
theorem test_step_status :
    statusAfter State.reset 3 = some 0x00000140#32 ∧
    statusAfter (smallBlock 4097) 3 = some 0x00000151#32 ∧
    statusAfter (smallBlock 0) 3 = some 0x00000001#32 ∧
    statusAfter small 0 = some 0x00000161#32 ∧ statusAfter small 0x103 = some 0x00000161#32 := by
  decide +kernel

/-- P3 with one sample a channel: the filtered sample on both channels, and the write position. -/
theorem test_step_process :
    (stateOf (step (withCommand
        { smallBlock 1 with
          buf := Memory.setWord (Memory.setWord [] 0x8000 0x3F800000#32) 0xC000 0x3F000000#32 } 3))).map
      (fun t => (Memory.getWord t.buf 0 0x8000, Memory.getWord t.buf 0 0xC000, t.writePos,
        statusWord t, t.sm)) =
      some (0x3F722B94#32, 0x3EF22B94#32, 1#32, 0x00000001#32, smResetDefault) := by
  decide +kernel

/-- R33, U14: the reset event loads the `SM_RESET` of the configuration into `SM` and `PARAM`. -/
theorem test_reset_takes_sm_reset_from_the_configuration :
    let cfg := { hardware with smReset := ⟨1#32, 2#32, 3#32, 4#32⟩ }
    (State.hardwareReset cfg small).sm = ⟨1#32, 2#32, 3#32, 4#32⟩ ∧
    (State.hardwareReset cfg small).param = ⟨1#32, 2#32, 3#32, 4#32⟩ := by decide +kernel

/-! ## Witnesses: for each statement with hypotheses, a concrete case that meets them all. A statement of
several clauses has one for each, at the ends of the clause's range. -/

/-- A Prepared state whose next move is this. -/
def moving (m : HostMove) : State := { small with host := [m] }

/-- `small` with a block of `n` samples on the left channel, all of them written. -/
def ready (n : Word) : State :=
  { smallBlock n with
    buf := Memory.setWord (Memory.setWord [] 0x8000 0x3F800000#32) 0xC000 0x3F000000#32 }

theorem witness_StepRunsTheDecodedCommand :
    (moving (.write 0x00 4 3#32)).host = .write 0x00 4 3#32 :: [] ∧ decodeWord 3#32 = .ok .process := by
  decide +kernel

theorem witness_IllegalWordOnlyReports :
    (moving (.write 0x00 4 0x103#32)).host = .write 0x00 4 0x103#32 :: [] ∧
    ∀ i : Instr, (0x103#32 : Word) ≠ encode i :=
  ⟨rfl, fun i => by cases i <;> decide +kernel⟩

theorem witness_NothingHappensWithoutAHostMove : State.reset.host = [] := rfl

theorem witness_OnlyAlignedWordAccessesAreDefined :
    (moving (.write 0x00 2 0)).host = .write 0x00 2 0 :: [] ∧ (2 : Nat) ≠ 4 ∧
    (moving (.read 0xFFFE 4)).host = .read 0xFFFE 4 :: [] ∧ 0xFFFE % 4 ≠ 0 ∧
    (moving (.read 0x10000 4)).host = .read 0x10000 4 :: [] ∧ 0x10000 % 4 = 0 := by decide +kernel

theorem witness_HostReadsHaveNoSideEffect :
    (moving (.read 0xFFFC 4)).host = .read 0xFFFC 4 :: [] ∧ 0xFFFC % 4 = 0 ∧ 0xFFFC < 0x10000 := by
  decide +kernel

theorem witness_HostWritesReadBackAndTouchOneWord :
    ∀ addr ∈ [0x08, 0x0C, 0x10, 0x14, 0x20, 0x24, 0x28, 0x2C, 0x8000, 0xFFFC],
      (moving (.write addr 4 7)).host = .write addr 4 7 :: [] ∧ addr % 4 = 0 ∧ addr < 0x10000 ∧
      (0x08 ≤ addr ∧ addr ≤ 0x14 ∨ 0x20 ≤ addr ∧ addr ≤ 0x2C ∨ 0x8000 ≤ addr) ∧
      (0x40 % 4 = 0 ∧ 0x40 < 0x10000 ∧ 0x40 ≠ addr) := by decide +kernel

theorem witness_ReadOnlyAndReservedWords :
    (∀ addr ∈ [0x04, 0x18, 0x1C, 0x30, 0x7FFC],
      (moving (.write addr 4 7)).host = .write addr 4 7 :: [] ∧ addr % 4 = 0 ∧
      (addr = 0x04 ∨ addr = 0x18 ∨ addr = 0x1C ∨ 0x30 ≤ addr ∧ addr < 0x8000)) ∧
    (∀ addr ∈ [0x00, 0x18, 0x1C, 0x44, 0x7FFC], addr % 4 = 0 ∧
      (addr = 0x00 ∨ addr = 0x18 ∨ addr = 0x1C ∨ 0x44 ≤ addr ∧ addr < 0x8000)) ∧
    4095 < 4096 := by decide +kernel

theorem witness_TargetsCanBeTornAcrossParameters :
    small.landing = [] ∧
    ({ small with landing := [⟨.delayTime, 1, .afterReads⟩, ⟨.dryWetMix, 2, .beforeRead .dryWetMix⟩] }
      : State).landing =
      [⟨.delayTime, 1, .afterReads⟩, ⟨.dryWetMix, 2, .beforeRead .dryWetMix⟩] := by decide +kernel

theorem witness_ResetEventRestoresTheSpecifiedValues :
    (moving .reset).host = .reset :: [] := rfl

/-- The smallest and the largest capacity of 2.7 that is legal. -/
theorem witness_PrepareLatchesAndClears :
    ∀ x ∈ [((0x3CF5C28F#32 : Word), 1), (0x44B9C000#32, 65532)],
      F32.isFinite 0x472C4400#32 = true ∧ F32.fgt hardware 0x472C4400#32 F32.zero = true ∧
      ((2 : Word) = 1 ∨ (2 : Word) = 2) ∧ F32.isFinite x.1 = true ∧
      F32.flt hardware x.1 F32.zero = false ∧
      capacityOf hardware 0 x.1 0x472C4400#32 = some x.2 ∧ 1 ≤ x.2 ∧ x.2 ≤ 65536 := by decide +kernel

/-- One operand set for each clause, in order (2.7). -/
theorem witness_PrepareRejectsInOrder :
    let fsOk (fs : Word) := F32.isFinite fs = true ∧ F32.fgt hardware fs F32.zero = true
    let nchOk (n : Word) := n ≠ 0 ∧ n.toNat ≤ 2
    let msOk (ms : Word) := F32.isFinite ms = true ∧ F32.flt hardware ms F32.zero = false
    let v (fs ms : Word) := F32.fdiv hardware 1 (F32.fmul hardware 0 ms fs) F32.thousand
    let capBad (v : Word) :=
      F32.isInf v = true ∨ F32.units v / 2 ^ 149 < 1 ∨ 65536 < F32.units v / 2 ^ 149
    ¬ fsOk 0x00000000#32 ∧ (fsOk 0x472C4400#32 ∧ ¬ nchOk 3) ∧
    (fsOk 0x472C4400#32 ∧ nchOk 2 ∧ ¬ msOk 0xBF800000#32) ∧
    (fsOk 0x472C4400#32 ∧ nchOk 2 ∧ msOk 0x3CA3D70A#32 ∧ capBad (v 0x472C4400#32 0x3CA3D70A#32)) ∧
    (fsOk 0x472C4400#32 ∧ nchOk 2 ∧ msOk 0x44B9C333#32 ∧ capBad (v 0x472C4400#32 0x44B9C333#32)) ∧
    (fsOk 0x472C4400#32 ∧ nchOk 2 ∧ msOk 0x7F61B1E6#32 ∧ capBad (v 0x472C4400#32 0x7F61B1E6#32)) ∧
    (fsOk 0x472C4400#32 ∧ nchOk 1 ∧ msOk 0x44B9C000#32 ∧ ¬ capBad (v 0x472C4400#32 0x44B9C000#32)) := by
  decide +kernel

theorem witness_PrepareEstablishesTheConfiguration :
    ∃ t, exec .prepare (withArgs 0x45FA0000#32 2 0x3F800000#32) = .next t ∧ t.engState = .prepared :=
  ⟨small, rfl, by decide +kernel⟩

theorem witness_PrepareExampleOfTheSource :
    (withArgs 0x472C4400#32 2 0x420C0000#32).argFs = 0x472C4400#32 ∧
    (withArgs 0x472C4400#32 2 0x420C0000#32).argNch = 2#32 ∧
    (withArgs 0x472C4400#32 2 0x420C0000#32).argMaxMs = 0x420C0000#32 := by decide +kernel

theorem witness_ReleaseIsSafeToRepeat : State.reset.engState = .unprepared := by decide +kernel

theorem witness_ProcessWhileNotPreparedOnlyReports : State.reset.engState ≠ .prepared := by decide +kernel

theorem witness_OverlongBlockOnlyReports :
    (smallBlock 4097).engState = .prepared ∧ 4096 < (smallBlock 4097).argNsamp.toNat := by decide +kernel

theorem witness_EmptyBlockChangesNothing :
    (smallBlock 0).engState = .prepared ∧ (smallBlock 0).argNsamp = 0 := by decide +kernel

/-- The hypotheses of `ProcessRunsTheSixSteps`. -/
abbrev blockReady (s : State) : Prop :=
  s.engState = .prepared ∧ State.ConfigInv hardware s ∧ State.SmoothedLegal s ∧
  1 ≤ s.argNsamp.toNat ∧ s.argNsamp.toNat ≤ 4096 ∧ legalParams (pullTargets s).1 = true

/-- The shortest and the longest block, with two channels and with one. -/
theorem witness_ProcessRunsTheSixSteps :
    (blockReady (smallBlock 1) ∧ blockReady (smallBlock 4096) ∧ small.cfgNch = 2) ∧
    (blockReady (monoBlock 1) ∧ blockReady (monoBlock 4096) ∧ smallMono.cfgNch = 1) :=
  ⟨by decide +kernel, by decide +kernel⟩

/-- With one channel, so that the right history is one that no block touches; the addresses before the
block and at its end lie outside it. -/
theorem witness_ProcessTouchesOnlyItsBlock :
    ∃ t, exec .process { smallMono with argNsamp := 1 } = .next t ∧
      (t.cause = .none ∧ smallMono.landing = [] ∧ smallMono.cfgNch.toNat ≤ Channel.index .right) := by
  refine next_of_check (fun t => decide (t.cause = .none ∧ smallMono.landing = [] ∧
    smallMono.cfgNch.toNat ≤ Channel.index .right)) (by decide +kernel) |>.imp fun t h => ⟨h.1, ?_⟩
  simpa using h.2

theorem witness_ProcessTouchesOnlyItsBlock_addresses :
    (¬ inBlock hardware 1 1 0x7FFF) ∧ (¬ inBlock hardware 1 1 0x8004) ∧ (¬ inRing hardware 1 8 32) := by
  refine ⟨?_, ?_, ?_⟩ <;>
  · rintro ⟨c, h1, h2, h3⟩
    cases c <;> simp [bufAddr, ringAddr, Channel.index, hardware] at h1 h2 h3

/-- `delayTime` just above 17.5. -/
def overTarget : State :=
  { smallBlock 1 with param := { smResetDefault with delayTime := 0x418C0001#32 } }

theorem witness_IllegalTargetIsRefused :
    overTarget.engState = .prepared ∧ 1 ≤ overTarget.argNsamp.toNat ∧
    overTarget.argNsamp.toNat ≤ 4096 ∧
    legalParam .delayTime (Params.get (pullTargets overTarget).1 .delayTime) = false ∧
    refusalOf (exec .process overTarget) = some .targetOutOfRange := by
  decide +kernel

theorem witness_OldCoefficientsAreNeverRead :
    1 ≤ (smallBlock 1).argNsamp.toNat ∧ (smallBlock 1).argNsamp.toNat ≤ 4096 ∧
    (smallBlock 1).engState = .prepared := by decide +kernel

theorem witness_ProcessIgnoresWhatItDoesNotRead :
    ∃ t, exec .process (ready 1) = .next t ∧ t.cause = .none := by
  refine next_of_check (fun t => decide (t.cause = .none)) (by decide +kernel) |>.imp
    fun t h => ⟨h.1, by simpa using h.2⟩

theorem witness_OnlyPrepareReleaseAndResetChangeTheState :
    ∃ t, step (withCommand small 2) = .next t ∧ t.engState ≠ small.engState := by
  refine next_of_check (fun t => decide (t.engState ≠ small.engState)) (by decide +kernel) |>.imp
    fun t h => ⟨h.1, by simpa using h.2⟩

/-- Both clauses: the reset event clears the bit, an overlong block leaves a new cause. -/
theorem witness_StickyBitIsClearedByResetOnly :
    (∃ t, step { small with esticky := true, host := [.reset] } = .next t ∧ t.esticky = false) ∧
    (∃ t, step (withCommand (smallBlock 4097) 3) = .next t ∧
      (t.cause ≠ (smallBlock 4097).cause ∧ t.cause ≠ .none)) := by
  constructor
  · exact next_of_check (fun t => !t.esticky) (by decide +kernel) |>.imp
      fun t h => ⟨h.1, by simpa using h.2⟩
  · exact next_of_check (fun t => decide (t.cause ≠ (smallBlock 4097).cause ∧ t.cause ≠ .none))
      (by decide +kernel) |>.imp fun t h => ⟨h.1, by simpa using h.2⟩

theorem witness_SmoothersMoveOnlyInANonEmptyBlock :
    ∃ t, step (withCommand { ready 1 with
        param := { smResetDefault with dryWetMix := 0x3F800000#32 } } 3) = .next t ∧
      t.sm ≠ small.sm := by
  refine next_of_check (fun t => decide (t.sm ≠ small.sm)) (by decide +kernel) |>.imp
    fun t h => ⟨h.1, by simpa using h.2⟩

/-- For the statements that a step keeps something: a state with a block to run that has it all, and the
step ends. -/
theorem witness_StepKeepsTheInvariants :
    State.ConfigInv hardware (withCommand (ready 1) 3) ∧ State.SmoothedLegal (withCommand (ready 1) 3) ∧
    State.NotReleasing (withCommand (ready 1) 3) ∧ State.MemoryInv (withCommand (ready 1) 3) ∧
    (stateOf (step (withCommand (ready 1) 3))).isSome = true := by
  decide +kernel

theorem witness_DutifulHostNeverStopsTheMachine :
    State.Inv { ready 1 with host := [.write 0 4 (encode .process)] } ∧
    State.HostKeepsDuty { ready 1 with host := [.write 0 4 (encode .process)] } := by
  refine ⟨by decide +kernel, by decide +kernel, fun _ => by decide +kernel⟩

/-- `2^24 + 1` is a tie: the two neighbours are `2^24` and `2^24 + 2`. -/
theorem witness_AdditionRoundsToNearestEven :
    F32.isFinite 0x4B800000#32 = true ∧ F32.isFinite 0x3F800000#32 = true ∧
    F32.isFinite (F32.fadd hardware 0 0x4B800000#32 0x3F800000#32) = true ∧
    F32.isFinite 0x4B800001#32 = true ∧
    (let r := F32.fadd hardware 0 0x4B800000#32 0x3F800000#32
     let x := F32.val 0x4B800000#32 + F32.val 0x3F800000#32
     |F32.val r - x| = |F32.val 0x4B800001#32 - x| ∧ F32.val 0x4B800001#32 ≠ F32.val r) := by
  decide +kernel

/-- For the other clauses of `AdditionRoundsToNearestEven`: a sum that overflows, an exact zero, an infinity
and what it may be added to, a zero and a value that is none. -/
theorem witness_AdditionRoundsToNearestEven_ends :
    (F32.isFinite 0x7F7FFFFF#32 = true ∧
      2 ^ 277 - 2 ^ 252 ≤ |F32.val 0x7F7FFFFF#32 + F32.val 0x7F7FFFFF#32|) ∧
    (F32.isFinite 0x80000000#32 = true ∧ F32.val 0x80000000#32 + F32.val 0x80000000#32 = 0) ∧
    (F32.isInf 0xFF800000#32 = true ∧ F32.isNaN 0xFF800000#32 = false ∧ F32.isNaN 0x00000001#32 = false ∧
      F32.isInf 0x00000001#32 = false) ∧
    (F32.isFinite 0x80000001#32 = true ∧ F32.isZero 0x80000001#32 = false ∧
      F32.isZero 0x80000000#32 = true) := by decide +kernel

/-- For the other clauses of the two statements that follow: a product and a quotient that overflow, a zero
factor and a zero dividend, an infinite factor, a zero divisor, an infinite dividend and divisor. -/
theorem witness_MultiplicationAndDivision_ends :
    (F32.isFinite 0x7F7FFFFF#32 = true ∧ F32.isFinite 0x40000000#32 = true ∧
      (2 ^ 277 - 2 ^ 252) * 2 ^ 149 ≤ |F32.val 0x7F7FFFFF#32 * F32.val 0x40000000#32|) ∧
    (F32.isFinite 0xBF000000#32 = true ∧ F32.isZero 0xBF000000#32 = false ∧
      (2 ^ 277 - 2 ^ 252) * |F32.val 0xBF000000#32| ≤ |F32.val 0x7F7FFFFF#32| * 2 ^ 149) ∧
    (F32.isFinite 0x80000000#32 = true ∧ F32.isZero 0x80000000#32 = true) ∧
    (F32.isInf 0xFF800000#32 = true ∧ F32.isNaN 0xFF800000#32 = false ∧
      F32.isZero 0xFF800000#32 = false ∧ F32.isNaN 0xBF000000#32 = false) := by decide +kernel

/-- Half of the least subnormal is a tie between it and zero. -/
theorem witness_MultiplicationRoundsToNearestEven :
    F32.isFinite 0x00000001#32 = true ∧ F32.isFinite 0x3F000000#32 = true ∧
    F32.isFinite (F32.fmul hardware 0 0x00000001#32 0x3F000000#32) = true ∧
    (let r := F32.fmul hardware 0 0x00000001#32 0x3F000000#32
     let x := F32.val 0x00000001#32 * F32.val 0x3F000000#32
     |F32.val r * 2 ^ 149 - x| = |F32.val 0x00000001#32 * 2 ^ 149 - x| ∧
       F32.val 0x00000001#32 ≠ F32.val r) := by decide +kernel

theorem witness_DivisionRoundsToNearestEven :
    F32.isFinite 0x00000003#32 = true ∧ F32.isFinite 0x40000000#32 = true ∧
    F32.isZero 0x40000000#32 = false ∧
    F32.isFinite (F32.fdiv hardware 0 0x00000003#32 0x40000000#32) = true ∧
    F32.isFinite 0x00000001#32 = true ∧
    (let r := F32.fdiv hardware 0 0x00000003#32 0x40000000#32
     let x := F32.val 0x00000003#32 * 2 ^ 149
     |F32.val r * F32.val 0x40000000#32 - x| =
       |F32.val 0x00000001#32 * F32.val 0x40000000#32 - x| ∧ F32.val 0x00000001#32 ≠ F32.val r) := by
  decide +kernel

theorem witness_NaNOperandsAndInvalidOperationsGiveNaN :
    F32.isNaN 0x7F800001#32 = true ∧ F32.isInf 0x7F800000#32 = true ∧ F32.isInf 0xFF800000#32 = true ∧
    F32.neg 0x7F800000#32 ≠ F32.neg 0xFF800000#32 ∧ F32.isZero 0x80000000#32 = true := by decide +kernel

theorem witness_ComparisonsAreThoseOfTheValues :
    F32.isNaN 0x7FC00000#32 = true ∧ F32.isFinite 0x7F7FFFFF#32 = true ∧
    F32.isFinite 0x80000001#32 = true := by decide +kernel

theorem witness_SmoothHasItsTargetAsFixedPoint :
    F32.isFinite 0x80000000#32 = true ∧ F32.isFinite 0x7F7FFFFF#32 = true := by decide +kernel

theorem witness_SmoothStaysBetweenItsOperands :
    F32.isFinite 0xC18C0000#32 = true ∧ F32.isFinite 0x418C0000#32 = true ∧
    F32.isFinite (F32.fsub hardware 0 0x418C0000#32 0xC18C0000#32) = true := by decide +kernel

/-- The four cases of R153, each at an end: 20.0 itself, a cutoff above `hi`, a NaN below a `hi` of 20.0 or
more, one below a lower `hi`. -/
theorem witness_ClampedCutoffIsBelowNyquist_cases :
    let hi (fs : Word) := F32.fmul hardware 0 0x3EFAE148#32 fs
    let lo := 0x41A00000#32
    (F32.fle hardware lo 0x41A00000#32 = true ∧ F32.fle hardware 0x41A00000#32 (hi 0x472C4400#32) = true) ∧
    (F32.fle hardware lo 0x46AC4400#32 = true ∧ F32.fle hardware 0x46AC4400#32 (hi 0x472C4400#32) = false) ∧
    (F32.isNaN 0x7FC00000#32 = true ∧ F32.fle hardware lo 0x7FC00000#32 = false ∧
      F32.fle hardware lo (hi 0x472C4400#32) = true) ∧
    (F32.fle hardware lo 0x419FFFFF#32 = false ∧ F32.fle hardware lo (hi 0x41F00000#32) = false) := by
  decide +kernel

/-- The least normal rate and the greatest finite one. -/
theorem witness_ClampedCutoffIsBelowNyquist :
    (F32.isFinite 0x00800000#32 = true ∧ F32.isSubnormal 0x00800000#32 = false ∧
      F32.fgt hardware 0x00800000#32 F32.zero = true) ∧
    (F32.isFinite 0x7F7FFFFF#32 = true ∧ F32.isSubnormal 0x7F7FFFFF#32 = false ∧
      F32.fgt hardware 0x7F7FFFFF#32 F32.zero = true) := by decide +kernel

/-- An ordinary set, the quarter turn `fc = fs / 4`, and a twelfth of a turn with `Q = 0.25`. -/
theorem witness_CookbookIsCorrectlyRounded :
    Coef.inDomain 0x447A0000#32 0x3F3504F3#32 0x472C4400#32 = true ∧
    Coef.inDomain 0x447A0000#32 0x3F3504F3#32 0x457A0000#32 = true ∧
    Coef.inDomain 0x457A0000#32 0x3E800000#32 0x473B8000#32 = true ∧ 0 < 1 := by decide +kernel

theorem witness_ConfigureWritesOneCoefficientSet : Stage.highPass ≠ Stage.lowPass := by decide +kernel

theorem witness_SilenceStaysSilence :
    F32.isFinite lp1000.b0 = true ∧ F32.isFinite lp1000.b1 = true ∧ F32.isFinite lp1000.b2 = true ∧
    F32.isFinite lp1000.a1 = true ∧ F32.isFinite lp1000.a2 = true ∧ F32.isZero 0x80000000#32 = true ∧
    F32.isZero 0x00000000#32 = true := by decide +kernel

theorem witness_ChannelsAreFilteredIndependently :
    4096 ≤ hardware.blockMax ∧ 4095 < 4096 ∧
    (Stage.highPass ≠ Stage.lowPass ∨ Channel.left ≠ Channel.left) := by decide +kernel

theorem witness_NaNNeverLeavesAFilterHistory :
    F32.isNaN (History.mk 0 0 0x7FC00000#32 0).y1 = true ∧ 0 ≤ 3 ∧ 3 < 0 + 4 := by decide +kernel

theorem witness_DelayFollowsPolarity :
    F32.isZero 0x80000000#32 = true ∧ F32.isNaN 0xFFC00000#32 = true := by decide +kernel

theorem witness_FullScaleDelayIsTheMaximum :
    F32.mag 0xC18C0000#32 = F32.mag 0x418C0000#32 ∧ F32.isFinite 0x420C0000#32 = true ∧
    F32.flt hardware 0x420C0000#32 F32.zero = false ∧ F32.isFinite 0x472C4400#32 = true ∧
    F32.fgt hardware 0x472C4400#32 F32.zero = true := by decide +kernel

theorem witness_DelayLengthIsMonotone :
    F32.mag 0x410C0000#32 ≤ F32.mag 0xC18C0000#32 ∧ F32.isFinite 0xC18C0000#32 = true ∧
    F32.isFinite 0x420C0000#32 = true ∧ F32.flt hardware 0x420C0000#32 F32.zero = false ∧
    F32.isFinite 0x472C4400#32 = true ∧ F32.fgt hardware 0x472C4400#32 F32.zero = true ∧
    delayLen hardware 0 0xC18C0000#32 0x420C0000#32 0x472C4400#32 = some 1543 := by decide +kernel

theorem witness_DelayNeverExceedsTheCapacity :
    legalParam .delayTime 0xC18C0000#32 = true ∧ F32.isFinite 0x420C0000#32 = true ∧
    F32.flt hardware 0x420C0000#32 F32.zero = false ∧ F32.isFinite 0x472C4400#32 = true ∧
    F32.fgt hardware 0x472C4400#32 F32.zero = true ∧
    capacityOf hardware 0 0x420C0000#32 0x472C4400#32 = some 1543 := by decide +kernel

/-- Both ends of `0 ≤ d ≤ C`, and of `1 ≤ C`. -/
theorem witness_PositionsStayInsideTheRing :
    (1 ≤ 1 ∧ 0 ≤ 1) ∧ (1 ≤ 1 ∧ 1 ≤ 1) ∧ (1 ≤ 8 ∧ 8 ≤ 8) := by decide +kernel

/-- The smallest ring with a delay line, and both branches of the wet sample. -/
theorem witness_DelayLineIsAShift :
    (0 < 1 ∧ 1 < 2 ∧ 0 < 10 ∧ ¬ 1 ≤ 0) ∧ (0 < 1 ∧ 1 < 2 ∧ 9 < 10 ∧ 1 ≤ 9) := by decide +kernel

theorem witness_FullCapacityDelayIsNoDelay : 0 < 1 ∧ 9 < 10 := by decide +kernel

/-- The bypass; both ends of `0 ≤ d ≤ C`, with the first of the last `C` samples; a position no sample of a
block of 3 from `W = 6` of 8 is written at, and the first that is after the wrap. -/
theorem witness_ZeroDelayIsABypassThatStillRecords :
    (0 < 1 ∧ 9 < 10 ∧ 10 ≤ 9 + 1 ∧ 0 ≤ 1 ∧ 1 ≤ 1) ∧
    (∀ i, i < 3 → 1 ≠ writeIndex 8 6 i) ∧ writeIndex 8 6 2 = 0 := by decide +kernel

theorem witness_PureDryAndPureWetInValue :
    F32.isFinite 0xFF7FFFFF#32 = true ∧ F32.isFinite 0x80000000#32 = true := by decide +kernel

theorem witness_DelayMixStaysInItsMemories :
    0 < 8 ∧ 0x7FFF < bufAddr hardware .left 0 ∧ bufAddr hardware .left 4 ≤ 0x8010 ∧
    0x3FFFF < ringAddr hardware .right 0 ∧ ringAddr hardware .right 8 ≤ 0x40020 := by decide +kernel

end Sys2Proof.Tests
end

section
/-! What the three commands and one step can end in, said once for the rules of the whole machine (R21,
R24, R30, R37). -/

namespace Sys2Proof.Machine

/-! The three commands -/

/-- PREPARE ends Unprepared with a cause, or latches operands that VALIDATE accepts (R211, R213). -/
theorem execPrepare_next {s t : State} (h : exec .prepare s = .next t) :
    (∃ c, t = State.raise (State.setEngState s .unprepared) c) ∨
    ∃ cap, validate hardware s.draws s.argFs s.argNch s.argMaxMs = .ok cap ∧
      t = prepareValid hardware cap s := by
  have ht : prepareWith hardware s = t := by simpa [exec, execPrepare] using h
  rw [prepareWith] at ht
  cases hv : validate hardware s.draws s.argFs s.argNch s.argMaxMs with
  | error c => rw [hv] at ht; exact .inl ⟨c, ht.symm⟩
  | ok cap => rw [hv] at ht; exact .inr ⟨cap, rfl, ht.symm⟩

/-- RELEASE leaves Prepared for Unprepared, clears the cause and changes nothing else (R214). -/
theorem releaseState_frame (s : State) :
    releaseState s = { s with
      engState := if s.engState = .prepared then .unprepared else s.engState
      cause := .none } := by
  by_cases hp : s.engState = .prepared <;> simp [releaseState, hp, State.setEngState, State.succeed]

theorem execRelease_next {s t : State} (h : exec .release s = .next t) :
    t = { s with
      engState := if s.engState = .prepared then .unprepared else s.engState
      cause := .none } := by
  rw [← releaseState_frame]
  simpa [exec, execRelease] using h.symm

/-- PROCESS reports an error, has an empty block, or runs a block of a Prepared engine (R215, R216, R217,
R221). -/
theorem execProcess_next {s t : State} (h : exec .process s = .next t) :
    (∃ c, t = State.raise s c) ∨ t = State.succeed s ∨
    (s.engState = .prepared ∧ 1 ≤ s.argNsamp.toNat ∧
      runBlock hardware s.argNsamp.toNat (pullTargets s).1 (pullTargets s).2 = .ok t) := by
  rcases processWith_next h with ⟨-, ht⟩ | ⟨-, -, ht⟩ | ⟨-, -, ht⟩ | ⟨hp, hn, -, -, -, -, hb⟩
  · exact .inl ⟨_, ht⟩
  · exact .inl ⟨_, ht⟩
  · exact .inr (.inl ht)
  · exact .inr (.inr ⟨hp, hn, hb⟩)

/-- PROCESS never changes `ENG_STATE` (R210). -/
theorem execProcess_engState {s t : State} (h : exec .process s = .next t) :
    t.engState = s.engState := by
  rcases execProcess_next h with ⟨c, rfl⟩ | rfl | ⟨-, -, hb⟩
  · rfl
  · rfl
  · obtain ⟨p, l, f, b, r, rfl⟩ := processBlock_frame hb
    rfl

/-! One step -/

/-- `s` with the host's side of `u`: the moves and writes to come, what was read, the operands, the
targets and the block buffer. No register of the engine is among them. -/
def State.withHostSide (s u : State) : State :=
  { s with
    host := u.host, landing := u.landing, rdata := u.rdata, draws := u.draws
    argFs := u.argFs, argNch := u.argNch, argMaxMs := u.argMaxMs, argNsamp := u.argNsamp
    param := u.param, buf := u.buf }

@[simp] theorem State.withHostSide_engState (s u : State) :
    (State.withHostSide s u).engState = s.engState := rfl
@[simp] theorem State.withHostSide_sm (s u : State) : (State.withHostSide s u).sm = s.sm := rfl
@[simp] theorem State.withHostSide_cause (s u : State) :
    (State.withHostSide s u).cause = s.cause := rfl
@[simp] theorem State.withHostSide_esticky (s u : State) :
    (State.withHostSide s u).esticky = s.esticky := rfl

theorem hostWrite_hostSide (s : State) (rest : List HostMove) (addr : Nat) (v : Word) :
    hostWrite hardware { s with host := rest } addr v =
      State.withHostSide s (hostWrite hardware { s with host := rest } addr v) := by
  rw [hostWrite]; cases hostLoc hardware addr <;> rfl

/-- What a step that ends does to the engine: nothing, the reset event, a command, the report of an illegal
command word. -/
theorem step_engine_cases {s t : State} (h : step s = .next t) :
    (∃ u, t = State.withHostSide s u) ∨
    (∃ rest, s.host = .reset :: rest ∧ t = State.hardwareReset hardware { s with host := rest }) ∨
    (∃ i rest u, s.host = .write 0 4 (encode i) :: rest ∧ exec i { s with host := rest } = .next u ∧
      t = State.landAll u) ∨
    ∃ rest, t = State.landAll (State.illegalCommand { s with host := rest }) := by
  rcases step_cases h with ⟨-, rfl⟩ | ⟨m, rest, hm, hcase⟩
  · exact .inl ⟨t, rfl⟩
  rcases hcase with ⟨addr, v, -, -, -, -, rfl⟩ | ⟨addr, -, -, -, rfl⟩ | ⟨w, -, rfl⟩ | ⟨rfl, rfl⟩ |
    ⟨i, u, rfl, hu, rfl⟩ | ⟨w, -, -, rfl⟩
  · exact .inl ⟨_, hostWrite_hostSide s rest addr v⟩
  · exact .inl ⟨{ s with
      host := rest, rdata := hostReadValue hardware { s with host := rest } addr,
      draws := s.draws + 1 }, rfl⟩
  · exact .inl ⟨{ s with host := rest, landing := s.landing ++ [w] }, rfl⟩
  · exact .inr (.inl ⟨rest, hm, rfl⟩)
  · exact .inr (.inr (.inl ⟨i, rest, u, hm, hu, rfl⟩))
  · exact .inr (.inr (.inr ⟨rest, rfl⟩))

end Sys2Proof.Machine
end

section
/-! The invariant of R37: PREPARE establishes it and every step keeps it. -/

namespace Sys2Proof.Machine

/-- Operands that VALIDATE accepts, once latched, meet R37. -/
theorem prepareValid_configInv {s : State} {cap : Nat}
    (h : validate hardware s.draws s.argFs s.argNch s.argMaxMs = .ok cap) :
    State.ConfigInv hardware (prepareValid hardware cap s) := by
  obtain ⟨hfs, hfsPos, hnch, hms, hmsNonneg, hcap, hcap1, hcapMax⟩ := (validate_ok_iff _ _ _ _ _).1 h
  have hc : (BitVec.ofNat 32 cap).toNat = cap := toNat_capacity hcapMax
  rw [prepareValid_frame]
  intro _
  refine ⟨hc.symm ▸ hcap1, hc.symm ▸ hcapMax, hc.symm ▸ hcap1, hnch, hfs, hfsPos, hms, hmsNonneg, ?_⟩
  show capacityOf hardware 0 s.argMaxMs s.argFs = some (BitVec.ofNat 32 cap).toNat
  rw [hc, capacityOf_draw 0 s.draws hms hmsNonneg hfs hfsPos, hcap]

theorem execPrepare_configInv {s t : State} (h : exec .prepare s = .next t) :
    State.ConfigInv hardware t := by
  rcases execPrepare_next h with ⟨c, rfl⟩ | ⟨cap, hv, rfl⟩
  · exact nofun
  · exact prepareValid_configInv hv

/-- After RELEASE the engine is not Prepared, so R37 asks nothing. -/
theorem execRelease_configInv {s t : State} (h : exec .release s = .next t) :
    State.ConfigInv hardware t := by
  intro hp
  rw [execRelease_next h] at hp
  by_cases hs : s.engState = .prepared <;> simp [hs] at hp

/-- A write position reduced modulo a capacity that is not 0 lies below it (R23). -/
theorem toNat_ofNat_mod_lt (n : Nat) {cap : Word} (h : 1 ≤ cap.toNat) :
    (BitVec.ofNat 32 (n % cap.toNat)).toNat < cap.toNat := by
  have hlt : n % cap.toNat < cap.toNat := Nat.mod_lt _ h
  rw [BitVec.toNat_ofNat, Nat.mod_eq_of_lt (hlt.trans cap.isLt)]
  exact hlt

theorem execProcess_configInv {s t : State} (hs : State.ConfigInv hardware s)
    (h : exec .process s = .next t) : State.ConfigInv hardware t := by
  rcases execProcess_next h with ⟨c, rfl⟩ | rfl | ⟨hp, -, hb⟩
  · exact hs
  · exact hs
  · obtain ⟨p, l, f, b, r, rfl⟩ := processBlock_frame hb
    obtain ⟨hcap1, hcapMax, -, hrest⟩ := hs hp
    exact fun _ => ⟨hcap1, hcapMax, toNat_ofNat_mod_lt _ hcap1, hrest⟩

theorem exec_configInv {i : Instr} {s t : State} (hs : State.ConfigInv hardware s)
    (h : exec i s = .next t) : State.ConfigInv hardware t := by
  cases i with
  | prepare => exact execPrepare_configInv h
  | release => exact execRelease_configInv h
  | process => exact execProcess_configInv hs h

/-- Settles O32: only PREPARE latches a configuration and only PROCESS moves `W`. -/
theorem stepKeepsTheConfiguration : Obligations.StepKeepsTheConfiguration := by
  intro s t hs h
  rcases step_engine_cases h with ⟨u, rfl⟩ | ⟨rest, -, rfl⟩ | ⟨i, rest, u, -, hu, rfl⟩ | ⟨rest, rfl⟩
  · exact hs
  · exact nofun
  · exact exec_configInv (s := { s with host := rest }) (t := u) hs hu
  · exact hs

/-- Settles O17: only operands that VALIDATE accepts lead to Prepared. -/
theorem prepareEstablishesTheConfiguration : Obligations.PrepareEstablishesTheConfiguration :=
  fun _ _ h _ => execPrepare_configInv h

end Sys2Proof.Machine
end

section
/-! Which moves change `ENG_STATE`, `ESTICKY` and the smoothers, and the state after reset (R21, R24, R30,
R36). -/

namespace Sys2Proof.Machine

/-- Settles O28: the host's other moves keep the engine's registers, and PROCESS keeps `ENG_STATE`. -/
theorem onlyPrepareReleaseAndResetChangeTheState :
    Obligations.OnlyPrepareReleaseAndResetChangeTheState := by
  intro s t h hne
  rcases step_engine_cases h with ⟨u, rfl⟩ | ⟨rest, hm, -⟩ | ⟨i, rest, u, hm, hu, rfl⟩ | ⟨rest, rfl⟩
  · exact absurd (State.withHostSide_engState s u) hne
  · exact ⟨rest, .inr (.inr hm)⟩
  · cases i with
    | prepare => exact ⟨rest, .inl hm⟩
    | release => exact ⟨rest, .inr (.inl hm)⟩
    | process => exact absurd (execProcess_engState hu) hne
  · exact absurd rfl hne

theorem exec_notReleasing {i : Instr} {s t : State} (hs : State.NotReleasing s)
    (h : exec i s = .next t) : State.NotReleasing t := by
  cases i with
  | prepare =>
    rcases execPrepare_next h with ⟨c, rfl⟩ | ⟨cap, -, rfl⟩
    · exact nofun
    · rw [prepareValid_frame]; exact nofun
  | release =>
    rw [execRelease_next h]
    by_cases hp : s.engState = .prepared
    · simp [State.NotReleasing, hp]
    · simpa [State.NotReleasing, hp] using hs
  | process => rw [State.NotReleasing, execProcess_engState h]; exact hs

/-- Settles O31: RELEASE passes through Releasing within its own step. -/
theorem releasingIsNeverSeen : Obligations.ReleasingIsNeverSeen := by
  intro s t hs h
  rcases step_engine_cases h with ⟨u, rfl⟩ | ⟨rest, -, rfl⟩ | ⟨i, rest, u, -, hu, rfl⟩ | ⟨rest, rfl⟩
  · exact hs
  · exact nofun
  · exact exec_notReleasing (s := { s with host := rest }) (t := u) hs hu
  · exact hs

/-- A command ends without a cause and with the sticky bit it had, or with the bit set (R30, R242). -/
theorem exec_sticky {i : Instr} {s t : State} (h : exec i s = .next t) :
    t.cause = .none ∧ t.esticky = s.esticky ∨ t.esticky = true := by
  cases i with
  | prepare =>
    rcases execPrepare_next h with ⟨c, rfl⟩ | ⟨cap, -, rfl⟩
    · exact .inr rfl
    · rw [prepareValid_frame]; exact .inl ⟨rfl, rfl⟩
  | release => rw [execRelease_next h]; exact .inl ⟨rfl, rfl⟩
  | process =>
    rcases execProcess_next h with ⟨c, rfl⟩ | rfl | ⟨-, -, hb⟩
    · exact .inr rfl
    · exact .inl ⟨rfl, rfl⟩
    · obtain ⟨p, l, f, b, r, rfl⟩ := processBlock_frame hb
      exact .inl ⟨rfl, rfl⟩

/-- Settles O29: a command clears `CAUSE` and keeps the bit, or sets both. -/
theorem stickyBitIsClearedByResetOnly : Obligations.StickyBitIsClearedByResetOnly := by
  intro s t h
  rcases step_engine_cases h with ⟨u, rfl⟩ | ⟨rest, hm, rfl⟩ | ⟨i, rest, u, -, hu, rfl⟩ | ⟨rest, rfl⟩
  · exact ⟨fun hset hclr => absurd hset (by simpa using hclr),
      fun hne _ => absurd (State.withHostSide_cause s u) hne⟩
  · exact ⟨fun _ _ => ⟨rest, hm⟩, fun _ hc => absurd rfl hc⟩
  · rcases exec_sticky hu with ⟨hc, he⟩ | he
    · exact ⟨fun hset hclr => absurd hset (by simpa [he] using hclr), fun _ hne => absurd hc hne⟩
    · exact ⟨fun _ hclr => absurd he (by simpa using hclr), fun _ _ => he⟩
  · exact ⟨nofun, fun _ _ => rfl⟩

/-- Only a block of a Prepared engine moves the smoothers (R142, R216). -/
theorem exec_sm {i : Instr} {s t : State} (h : exec i s = .next t) (hne : t.sm ≠ s.sm) :
    i = .process ∧ s.engState = .prepared ∧ 1 ≤ s.argNsamp.toNat := by
  cases i with
  | prepare =>
    rcases execPrepare_next h with ⟨c, rfl⟩ | ⟨cap, -, rfl⟩
    · exact absurd rfl hne
    · rw [prepareValid_frame] at hne; exact absurd rfl hne
  | release => rw [execRelease_next h] at hne; exact absurd rfl hne
  | process =>
    rcases execProcess_next h with ⟨c, rfl⟩ | rfl | ⟨hp, hn, -⟩
    · exact absurd rfl hne
    · exact absurd rfl hne
    · exact ⟨rfl, hp, hn⟩

/-- Settles O30: of the three commands only a block of PROCESS writes `SM`. -/
theorem smoothersMoveOnlyInANonEmptyBlock : Obligations.SmoothersMoveOnlyInANonEmptyBlock := by
  intro s t h hne
  rcases step_engine_cases h with ⟨u, rfl⟩ | ⟨rest, hm, -⟩ | ⟨i, rest, u, hm, hu, rfl⟩ | ⟨rest, rfl⟩
  · exact absurd (State.withHostSide_sm s u) hne
  · exact ⟨rest, .inl hm⟩
  · obtain ⟨rfl, hp, hn⟩ := exec_sm hu hne
    exact ⟨rest, .inr ⟨hm, hp, hn⟩⟩
  · exact absurd rfl hne

/-- Settles O12: the column "after hardware reset" of R36. -/
theorem resetLeavesTheSpecifiedValues : Obligations.ResetLeavesTheSpecifiedValues :=
  ⟨rfl, rfl, rfl, rfl, rfl, rfl, rfl, rfl, rfl, rfl, rfl, rfl, rfl⟩

/-- The default `SM_RESET` lies in the ranges of R31. -/
theorem smResetDefault_legal : legalParams smResetDefault = true := by decide

/-- Settles O14: after reset the engine is Unprepared and both memories list nothing. -/
theorem resetMeetsTheInvariant : Obligations.ResetMeetsTheInvariant :=
  ⟨nofun, smResetDefault_legal, ⟨.nil, .nil⟩, nofun⟩

end Sys2Proof.Machine
end

section
/-! The coefficient file before CONFIGURE is never read (R25). -/

namespace Sys2Proof.Machine

/-- CONFIGURE of both stages replaces the whole coefficient file (R151, R215 step 3). -/
theorem smoothAndConfigure_cf (cfg : Config) (n : Nat) (p : Params) (s : State) (k : PerStage Coefs) :
    smoothAndConfigure cfg n p { s with cf := k } = smoothAndConfigure cfg n p s := by
  rw [smoothAndConfigure_eq, smoothAndConfigure_eq]

theorem runBlock_cf (cfg : Config) (count : Nat) (p : Params) (s : State) (k : PerStage Coefs) :
    runBlock cfg count p { s with cf := k } = runBlock cfg count p s := by
  rw [runBlock, runBlock, smoothAndConfigure_cf]

/-- Step 1 reads `PARAM` and the writes in flight only (R67). -/
theorem pullTargets_cf_update (s : State) (k : PerStage Coefs) :
    pullTargets { s with cf := k } = ((pullTargets s).1, { (pullTargets s).2 with cf := k }) := rfl

theorem processBlock_cf (cfg : Config) (s : State) (k : PerStage Coefs) :
    processBlock cfg { s with cf := k } = processBlock cfg s := by
  rw [processBlock, processBlock, pullTargets_cf_update, runBlock_cf]
  rfl

/-- From a Prepared state a PROCESS of 1 to `BLOCK_MAX` samples is its block (R215). -/
theorem processWith_eq_processBlock {cfg : Config} {s : State} (hp : s.engState = .prepared)
    (h1 : 1 ≤ s.argNsamp.toNat) (h2 : s.argNsamp.toNat ≤ cfg.blockMax) :
    processWith cfg s = processBlock cfg s := by
  rw [processWith, if_neg (not_not.2 hp), if_neg (by omega), if_neg (by omega)]

/-- Settles O26: CONFIGURE writes both stages before CHAIN reads them. -/
theorem oldCoefficientsAreNeverRead : Obligations.OldCoefficientsAreNeverRead := by
  intro s k h1 h2 hp
  show processWith hardware { s with cf := k } = processWith hardware s
  rw [processWith_eq_processBlock (s := { s with cf := k }) hp h1 h2,
    processWith_eq_processBlock hp h1 h2, processBlock_cf]

end Sys2Proof.Machine
end

section
/-! The host's address map (R29, R30, R64): what a word reads as, and what a write changes. -/

namespace Sys2Proof.Machine

/-! `STATUS` -/

theorem EngState.code_lt (e : EngState) : EngState.code e < 4 := by cases e <;> decide

theorem Cause.code_lt (c : Cause) : Cause.code c < 16 := by cases c <;> decide

/-- The fields of `STATUS` do not overlap, so the word is their sum (R30). -/
theorem statusWord_toNat (s : State) :
    (statusWord s).toNat =
      EngState.code s.engState + 16 * Cause.code s.cause + (if s.esticky then 256 else 0) := by
  have he := EngState.code_lt s.engState
  have hc := Cause.code_lt s.cause
  rw [statusWord, BitVec.toNat_ofNat]
  split <;> omega

/-- Settles O10: each field of `STATUS` is a digit of the sum, its bounds keep it in its bits. -/
theorem statusFieldsReadTheirState : Obligations.StatusFieldsReadTheirState := by
  refine ⟨fun s => ⟨rfl, ?_⟩, rfl, rfl, rfl, rfl, rfl, rfl, rfl, rfl, rfl, rfl⟩
  have hw := statusWord_toNat s
  have he := EngState.code_lt s.engState
  have hc := Cause.code_lt s.cause
  simp only [← BitVec.toNat_inj, BitVec.extractLsb'_toNat, Nat.shiftRight_eq_div_pow, hw]
  cases s.esticky <;> simp <;> omega

/-! Reads and writes -/

/-- A location that is neither buffer nor reserved is one of the registers below 0x44 (R29). -/
theorem hostLoc_register_lt {a : Nat} (hb : hostLoc hardware a ≠ .buf)
    (hr : hostLoc hardware a ≠ .reserved) : a < 0x44 := by
  by_contra h44
  rcases Nat.lt_or_ge a 0x8000 with h | h
  · exact hr (hostLoc_high_reserved (not_lt.1 h44) h)
  rcases Nat.lt_or_ge a 0x10000 with h' | h'
  · exact hb (hostLoc_upper h h')
  · exact hr (hostLoc_beyond h')

/-- The offset of a register in the map of R29; a buffer word and a reserved word have no single one. -/
def HostLoc.offset : HostLoc → Nat
  | .cmd => 0x00
  | .status => 0x04
  | .argFs => 0x08
  | .argNch => 0x0C
  | .argMaxMs => 0x10
  | .argNsamp => 0x14
  | .param k => paramAddr k
  | .cfgFs => 0x30
  | .cfgNch => 0x34
  | .cfgMaxMs => 0x38
  | .capacity => 0x3C
  | .writePos => 0x40
  | .buf => 0
  | .reserved => 0

theorem hostLoc_offset {a : Nat} (hb : hostLoc hardware a ≠ .buf)
    (hr : hostLoc hardware a ≠ .reserved) : HostLoc.offset (hostLoc hardware a) = a := by
  have low : ∀ a < 0x44, hostLoc hardware a ≠ .reserved → HostLoc.offset (hostLoc hardware a) = a := by
    decide
  exact low a (hostLoc_register_lt hb hr) hr

/-- No register stands at two addresses (R29). -/
theorem hostLoc_inj {a b : Nat} (hb : hostLoc hardware a ≠ .buf) (hr : hostLoc hardware a ≠ .reserved)
    (h : hostLoc hardware b = hostLoc hardware a) : b = a := by
  have hb' : hostLoc hardware b ≠ .buf := h ▸ hb
  have hr' : hostLoc hardware b ≠ .reserved := h ▸ hr
  rw [← hostLoc_offset hb' hr', h, hostLoc_offset hb hr]

/-- The word `BUF[c][i]` stands in the upper half of the space (R64). -/
theorem bufAddr_range (c : Channel) {i : Nat} (h : i < 4096) :
    0x8000 ≤ bufAddr hardware c i ∧ bufAddr hardware c i < 0x10000 := by
  cases c <;> simp only [bufAddr, Channel.index, hardware] <;> omega

theorem hostReadValue_upper (s : State) {addr : Nat} (h1 : 0x8000 ≤ addr) (h2 : addr < 0x10000) :
    hostReadValue hardware s addr = Memory.getWord s.buf s.draws addr := by
  rw [hostReadValue, hostLoc_upper h1 h2]

theorem hostWrite_upper (s : State) {addr : Nat} (v : Word) (h1 : 0x8000 ≤ addr) (h2 : addr < 0x10000) :
    hostWrite hardware s addr v = { s with buf := Memory.setWord s.buf addr v } := by
  rw [hostWrite, hostLoc_upper h1 h2]

/-! One field after a write: only the write of its own word changes it. -/

theorem hostWrite_argFs (s : State) (addr : Nat) (v : Word) :
    (hostWrite hardware s addr v).argFs = if hostLoc hardware addr = .argFs then v else s.argFs := by
  rw [hostWrite]; cases hostLoc hardware addr <;> rfl

theorem hostWrite_argNch (s : State) (addr : Nat) (v : Word) :
    (hostWrite hardware s addr v).argNch = if hostLoc hardware addr = .argNch then v else s.argNch := by
  rw [hostWrite]; cases hostLoc hardware addr <;> rfl

theorem hostWrite_argMaxMs (s : State) (addr : Nat) (v : Word) :
    (hostWrite hardware s addr v).argMaxMs =
      if hostLoc hardware addr = .argMaxMs then v else s.argMaxMs := by
  rw [hostWrite]; cases hostLoc hardware addr <;> rfl

theorem hostWrite_argNsamp (s : State) (addr : Nat) (v : Word) :
    (hostWrite hardware s addr v).argNsamp =
      if hostLoc hardware addr = .argNsamp then v else s.argNsamp := by
  rw [hostWrite]; cases hostLoc hardware addr <;> rfl

theorem Params.get_set (p : Params) (j k : ParamIx) (v : Word) :
    Params.get (Params.set p j v) k = if j = k then v else Params.get p k := by
  cases j <;> cases k <;> rfl

theorem hostWrite_param (s : State) (addr : Nat) (v : Word) (k : ParamIx) :
    Params.get (hostWrite hardware s addr v).param k =
      if hostLoc hardware addr = .param k then v else Params.get s.param k := by
  rw [hostWrite]
  cases hostLoc hardware addr with
  | param j => simp [Params.get_set]
  | _ => rfl

theorem hostWrite_buf (s : State) (addr : Nat) (v : Word) :
    (hostWrite hardware s addr v).buf =
      if hostLoc hardware addr = .buf then Memory.setWord s.buf addr v else s.buf := by
  rw [hostWrite]; cases hostLoc hardware addr <;> rfl

/-! The fields no write changes -/

@[simp] theorem hostWrite_engState (s : State) (addr : Nat) (v : Word) :
    (hostWrite hardware s addr v).engState = s.engState := by rw [hostWrite_frame]
@[simp] theorem hostWrite_sm (s : State) (addr : Nat) (v : Word) :
    (hostWrite hardware s addr v).sm = s.sm := by rw [hostWrite_frame]
@[simp] theorem hostWrite_cf (s : State) (addr : Nat) (v : Word) :
    (hostWrite hardware s addr v).cf = s.cf := by rw [hostWrite_frame]
@[simp] theorem hostWrite_fh (s : State) (addr : Nat) (v : Word) :
    (hostWrite hardware s addr v).fh = s.fh := by rw [hostWrite_frame]
@[simp] theorem hostWrite_ring (s : State) (addr : Nat) (v : Word) :
    (hostWrite hardware s addr v).ring = s.ring := by rw [hostWrite_frame]
@[simp] theorem hostWrite_cause (s : State) (addr : Nat) (v : Word) :
    (hostWrite hardware s addr v).cause = s.cause := by rw [hostWrite_frame]
@[simp] theorem hostWrite_esticky (s : State) (addr : Nat) (v : Word) :
    (hostWrite hardware s addr v).esticky = s.esticky := by rw [hostWrite_frame]
@[simp] theorem hostWrite_host (s : State) (addr : Nat) (v : Word) :
    (hostWrite hardware s addr v).host = s.host := by rw [hostWrite_frame]
@[simp] theorem hostWrite_landing (s : State) (addr : Nat) (v : Word) :
    (hostWrite hardware s addr v).landing = s.landing := by rw [hostWrite_frame]
@[simp] theorem hostWrite_draws (s : State) (addr : Nat) (v : Word) :
    (hostWrite hardware s addr v).draws = s.draws := by rw [hostWrite_frame]

/-- A write of one word changes no other word of the map. -/
theorem hostReadValue_hostWrite_other (s : State) {addr a : Nat} (v : Word) (haddr : addr % 4 = 0)
    (ha : a % 4 = 0) (hne : a ≠ addr) :
    hostReadValue hardware (hostWrite hardware s addr v) a = hostReadValue hardware s a := by
  have hreg : ∀ l, hostLoc hardware a = l → l ≠ .buf → l ≠ .reserved → hostLoc hardware addr ≠ l := by
    rintro _ rfl hb hr h
    exact hne (hostLoc_inj hb hr h).symm
  rw [hostReadValue, hostReadValue]
  cases hl : hostLoc hardware a with
  | argFs => simp only [hostWrite_argFs, if_neg (hreg _ hl nofun nofun)]
  | argNch => simp only [hostWrite_argNch, if_neg (hreg _ hl nofun nofun)]
  | argMaxMs => simp only [hostWrite_argMaxMs, if_neg (hreg _ hl nofun nofun)]
  | argNsamp => simp only [hostWrite_argNsamp, if_neg (hreg _ hl nofun nofun)]
  | param k => simp only [hostWrite_param, if_neg (hreg _ hl nofun nofun)]
  | buf =>
    simp only [hostWrite_buf, hostWrite_draws]
    split
    · exact Memory.getWord_setWord_other _ _ _ (by omega)
    · rfl
  | status => simp only [statusWord, hostWrite_engState, hostWrite_cause, hostWrite_esticky]
  | _ => rw [hostWrite_frame]

/-! The ranges of R29 and R64 -/

/-- The words of R29 that a write sets, below the block buffer. -/
def operandAddrs : List Nat := [0x08, 0x0C, 0x10, 0x14, 0x20, 0x24, 0x28, 0x2C]

theorem mem_operandAddrs {addr : Nat} (ha : addr % 4 = 0)
    (h : 0x08 ≤ addr ∧ addr ≤ 0x14 ∨ 0x20 ≤ addr ∧ addr ≤ 0x2C) : addr ∈ operandAddrs := by
  simp only [operandAddrs, List.mem_cons, List.not_mem_nil]; omega

/-- A read-write word reads as what was written to it (R63). -/
theorem hostReadValue_hostWrite_self (s : State) {addr : Nat} (v : Word)
    (h : addr ∈ operandAddrs ∨ 0x8000 ≤ addr ∧ addr < 0x10000) :
    hostReadValue hardware (hostWrite hardware s addr v) addr = v := by
  rcases h with h | ⟨h1, h2⟩
  · fin_cases h <;> rfl
  · rw [hostReadValue_upper _ h1 h2, hostWrite_upper _ _ h1 h2, Memory.getWord_setWord_self]

/-- Settles O8: read-back and frame come from the map having one address for each register. -/
theorem hostWritesReadBackAndTouchOneWord : Obligations.HostWritesReadBackAndTouchOneWord := by
  refine ⟨fun s rest addr v hh ha hs hrw => ?_, fun i => ?_⟩
  · have hself : addr ∈ operandAddrs ∨ 0x8000 ≤ addr ∧ addr < 0x10000 := by
      rcases hrw with h | h | h
      · exact .inl (mem_operandAddrs ha (.inl h))
      · exact .inl (mem_operandAddrs ha (.inr h))
      · exact .inr ⟨h, hs⟩
    refine ⟨_, step_write hh ha hs (by omega), hostReadValue_hostWrite_self _ v hself,
      fun a ha' _ hne => hostReadValue_hostWrite_other { s with host := rest } v ha ha' hne,
      hostWrite_engState _ _ _, hostWrite_sm _ _ _, hostWrite_cf _ _ _, hostWrite_fh _ _ _,
      hostWrite_ring _ _ _, hostWrite_esticky _ _ _, hostWrite_landing _ _ _, hostWrite_host _ _ _,
      ?_, ?_, ?_, ?_, ?_, ?_, ?_, ?_, fun h => hostWrite_upper _ v h hs⟩
    all_goals rintro rfl; rfl
  · exact ⟨by simp [bufAddr, Channel.index], by simp [bufAddr, Channel.index, hardware]⟩

/-- Outside `CMD`, the operands and the block buffer a write is ignored (R29, R64). -/
theorem hostWrite_ignored (s : State) {addr : Nat} (v : Word) (ha : addr % 4 = 0)
    (h : addr = 0x04 ∨ addr = 0x18 ∨ addr = 0x1C ∨ 0x30 ≤ addr ∧ addr < 0x8000) :
    hostWrite hardware s addr v = s := by
  rcases Nat.lt_or_ge addr 0x44 with hlow | hhigh
  · have hmem : addr ∈ [0x04, 0x18, 0x1C, 0x30, 0x34, 0x38, 0x3C, 0x40] := by
      simp only [List.mem_cons, List.not_mem_nil]; omega
    fin_cases hmem <;> rfl
  · rw [hostWrite, hostLoc_high_reserved hhigh (by omega)]

/-- `CMD` and the reserved words read 0 (R29, U17). -/
theorem hostReadValue_zero (s : State) {addr : Nat}
    (h : addr = 0x00 ∨ addr = 0x18 ∨ addr = 0x1C ∨ 0x44 ≤ addr ∧ addr < 0x8000) :
    hostReadValue hardware s addr = 0 := by
  rcases h with rfl | rfl | rfl | ⟨h1, h2⟩
  · rfl
  · rfl
  · rfl
  · rw [hostReadValue, hostLoc_high_reserved h1 h2]

theorem hostReadValue_bufAddr (s : State) (c : Channel) {i : Nat} (h : i < 4096) :
    hostReadValue hardware s (bufAddr hardware c i) =
      Memory.getWord s.buf s.draws (bufAddr hardware c i) :=
  hostReadValue_upper s (bufAddr_range c h).1 (bufAddr_range c h).2

/-- Settles O9, range by range of the map. -/
theorem readOnlyAndReservedWords : Obligations.ReadOnlyAndReservedWords := by
  refine ⟨fun s rest addr v hh ha hr => ?_, fun s addr _ h => hostReadValue_zero s h, fun s =>
    ⟨rfl, rfl, rfl, rfl, rfl, rfl, rfl, rfl, rfl, rfl, rfl, rfl, rfl, rfl,
      fun c i hi => hostReadValue_bufAddr s c hi⟩⟩
  rw [step_write hh ha (by omega) (by omega), hostWrite_ignored _ v ha hr]

end Sys2Proof.Machine
end

section
/-! Both memories stay lists with strictly rising addresses (R60, R74). -/

namespace Sys2Proof.Machine

/-- A command that ends keeps both memories in canonical form: PREPARE clears rings (R211), a block of
PROCESS writes samples and rings (R215), RELEASE writes neither. -/
theorem exec_memoryInv {i : Instr} {s t : State} (hs : State.MemoryInv s) (h : exec i s = .next t) :
    State.MemoryInv t := by
  obtain ⟨hring, hbuf⟩ := hs
  cases i with
  | prepare =>
    rcases execPrepare_next h with ⟨c, rfl⟩ | ⟨cap, -, rfl⟩
    · exact ⟨hring, hbuf⟩
    · rw [prepareValid_frame]
      exact ⟨clearRings_wf hardware cap _ hring, hbuf⟩
  | release => rw [execRelease_next h]; exact ⟨hring, hbuf⟩
  | process =>
    rcases execProcess_next h with ⟨c, rfl⟩ | rfl | ⟨-, -, hb⟩
    · exact ⟨hring, hbuf⟩
    · exact ⟨hring, hbuf⟩
    · exact (processBlock_wf hb hbuf hring).symm

/-- A write of the host keeps both memories in canonical form: it reaches the block buffer only. -/
theorem hostWrite_memoryInv {s : State} (addr : Nat) (v : Word) (hs : State.MemoryInv s) :
    State.MemoryInv (hostWrite hardware s addr v) := by
  obtain ⟨hring, hbuf⟩ := hs
  exact ⟨by simpa using hring, hostWrite_buf_wf addr v hbuf⟩

/-- Settles O34: of the host's moves a write, the reset event and a command can reach a memory. -/
theorem stepKeepsMemoriesCanonical : Obligations.StepKeepsMemoriesCanonical := by
  intro s t hs h
  rcases step_cases h with ⟨-, rfl⟩ | ⟨m, rest, -, hcase⟩
  · exact hs
  rcases hcase with ⟨addr, v, -, -, -, -, rfl⟩ | ⟨addr, -, -, -, rfl⟩ | ⟨w, -, rfl⟩ | ⟨-, rfl⟩ |
    ⟨i, u, -, hu, rfl⟩ | ⟨w, -, -, rfl⟩
  · exact hostWrite_memoryInv (s := { s with host := rest }) addr v hs
  · exact hs
  · exact hs
  · exact ⟨.nil, .nil⟩
  · exact exec_memoryInv (s := { s with host := rest }) (t := u) hs hu
  · exact hs

end Sys2Proof.Machine
end

section
/-! The host's accesses and its command words (R62, R63, R66, R90). -/

namespace Sys2Proof.Machine

/-! Accesses that R62 does not define -/

theorem accessCheck_width {addr width : Nat} (e : HostEffect) (hw : width ≠ 4) :
    accessCheck addr width e = .refuse .accessWidth := by
  rw [accessCheck, if_pos hw]

theorem accessCheck_misaligned {addr : Nat} (e : HostEffect) (ha : addr % 4 ≠ 0) :
    accessCheck addr 4 e = .refuse .misalignedAccess := by
  rw [accessCheck, if_neg (by decide), if_pos ha]

theorem accessCheck_absent {addr : Nat} (e : HostEffect) (ha : addr % 4 = 0) (hs : 0x10000 ≤ addr) :
    accessCheck addr 4 e = .absent := by
  rw [accessCheck, if_neg (by decide), if_neg (not_not.2 ha), if_pos hs]

/-- Both directions of an access pass through the one check of R62. -/
theorem hostMove_access (cfg : Config) {m : HostMove} {addr width : Nat} {v : Word} (s : State)
    (hm : m = .write addr width v ∨ m = .read addr width) :
    ∃ e, hostMove cfg m s = accessCheck addr width e := by
  rcases hm with rfl | rfl
  · exact ⟨_, rfl⟩
  · exact ⟨_, rfl⟩

/-- Settles O6: the three checks of an access, in their order. -/
theorem onlyAlignedWordAccessesAreDefined : Obligations.OnlyAlignedWordAccessesAreDefined := by
  intro s rest m addr width v hm hh
  obtain ⟨e, he⟩ := hostMove_access hardware { s with host := rest } hm
  rw [step_cons hh, he]
  refine ⟨fun hw => ?_, ?_, ?_⟩
  · rw [accessCheck_width e hw]
  · rintro rfl ha
    rw [accessCheck_misaligned e ha]
  · rintro rfl ha hs
    rw [accessCheck_absent e ha hs]

/-! Reads -/

/-- What a word reads as does not depend on the host's moves to come. -/
theorem hostReadValue_host_update (cfg : Config) (s : State) (rest : List HostMove) (addr : Nat) :
    hostReadValue cfg { s with host := rest } addr = hostReadValue cfg s addr := rfl

/-- Settles O7: a read records the word it returns and counts a draw. -/
theorem hostReadsHaveNoSideEffect : Obligations.HostReadsHaveNoSideEffect := by
  intro s rest addr hh ha hs
  rw [step_read hh ha hs, hostReadValue_host_update]

/-! Command words -/

theorem runCommand_ok {w : Word} {i : Instr} (h : decodeWord w = .ok i) (s : State) :
    runCommand w s = finishCommand (exec i s) := by
  rw [runCommand, h]

/-- A command's own word is the word the opcode table numbers (R91). -/
theorem tableWord_toNat (w : Word) : tableWord 32 w.toNat = w := by
  rw [tableWord, Nat.mod_eq_of_lt w.isLt, BitVec.ofNat_toNat, BitVec.setWidth_eq]

/-- Settles O3: a write to `CMD` is decoded and run in its own step, and `withFetchWord` is such a write. -/
theorem stepRunsTheDecodedCommand : Obligations.StepRunsTheDecodedCommand := by
  refine ⟨fun s rest w i hh hd => ?_, fun s i => ?_, fun _ => rfl, fun _ => rfl, fun _ => rfl⟩
  · rw [step_command hh, runCommand_ok hd]
  · rw [State.withFetchWord, tableWord_toNat,
      step_command (s := withCommand s (encode i)) (w := encode i) (rest := s.host) rfl,
      runCommand_ok ((decodeWord_ok_iff _ i).2 rfl)]
    rfl

end Sys2Proof.Machine
end

section
/-! The targets of PROCESS and the control-thread writes in flight (R67, R215 step 1). -/

namespace Sys2Proof.Machine

/-- The value `PARAM[k]` has once the writes `ws` have landed on `p`: that of the last write of `k`. -/
def latestValue (p : Params) (k : ParamIx) (ws : List ParamWrite) : Word :=
  match (ws.filter fun w => decide (w.index = k)).getLast? with
  | some w => w.value
  | none => Params.get p k

theorem latestValue_concat (p : Params) (k : ParamIx) (ws : List ParamWrite) (w : ParamWrite) :
    latestValue p k (ws ++ [w]) = if w.index = k then w.value else latestValue p k ws := by
  by_cases h : w.index = k <;> simp [latestValue, h]

/-- Writes that land one after another leave the last one of each register (R67). -/
theorem Params.get_foldl_write (ws : List ParamWrite) (p : Params) (k : ParamIx) :
    Params.get (ws.foldl Params.write p) k = latestValue p k ws := by
  induction ws using List.reverseRecOn with
  | nil => rfl
  | append_singleton ws w ih =>
    rw [List.foldl_append, latestValue_concat, ← ih]
    exact Params.get_set _ _ _ _

/-- The writes in flight that land at one point of the command. -/
def landingAt (s : State) (p : LandingPoint) : List ParamWrite :=
  s.landing.filter fun w => decide (w.point = p)

theorem landBefore_param (s : State) (k : ParamIx) :
    (State.landBefore s k).param = (landingAt s (.beforeRead k)).foldl Params.write s.param := rfl

/-- What lands before one read leaves the writes of every other point in flight. -/
theorem landingAt_landBefore (s : State) {k : ParamIx} {p : LandingPoint} (h : p ≠ .beforeRead k) :
    landingAt (State.landBefore s k) p = landingAt s p := by
  simp only [landingAt, State.landBefore, List.filter_filter]
  refine List.filter_congr fun w _ => ?_
  by_cases hw : w.point = p
  · simp [hw, h]
  · simp [hw]

/-- After the four reads the writes still in flight are those that land after the reads. -/
theorem pullTargets_landing (s : State) : (pullTargets s).2.landing = landingAt s .afterReads := by
  simp only [pullTargets, State.landBefore, landingAt, List.filter_filter]
  refine List.filter_congr fun w _ => ?_
  cases w.point with
  | afterReads => rfl
  | beforeRead k => cases k <;> rfl

/-- The writes that land before the reads 0 to `k`, in the order in which they land. -/
def landedBy (s : State) : ParamIx → List ParamWrite
  | .delayTime => landingAt s (.beforeRead .delayTime)
  | .dryWetMix => landingAt s (.beforeRead .delayTime) ++ landingAt s (.beforeRead .dryWetMix)
  | .hpfCutoff => landingAt s (.beforeRead .delayTime) ++ landingAt s (.beforeRead .dryWetMix) ++
      landingAt s (.beforeRead .hpfCutoff)
  | .lpfCutoff => landingAt s (.beforeRead .delayTime) ++ landingAt s (.beforeRead .dryWetMix) ++
      landingAt s (.beforeRead .hpfCutoff) ++ landingAt s (.beforeRead .lpfCutoff)

/-- Target `k` is `PARAM[k]` as the writes that land up to its read leave it. -/
theorem pullTargets_get (s : State) (k : ParamIx) :
    Params.get (pullTargets s).1 k = Params.get ((landedBy s k).foldl Params.write s.param) k := by
  cases k <;>
    simp [pullTargets, Params.get, landedBy, landBefore_param, landingAt_landBefore, List.foldl_append]

/-- The `PARAM` registers after the four reads. -/
theorem pullTargets_param (s : State) :
    (pullTargets s).2.param = (landedBy s .lpfCutoff).foldl Params.write s.param := by
  simp [pullTargets, landedBy, landBefore_param, landingAt_landBefore, List.foldl_append]

theorem landBefore_of_nil {s : State} (h : s.landing = []) (k : ParamIx) :
    State.landBefore s k = s := by
  cases s; cases h; rfl

theorem pullTargets_of_nil {s : State} (h : s.landing = []) : pullTargets s = (s.param, s) := by
  simp only [pullTargets, landBefore_of_nil h]

/-- When the command is over every write has landed, those after the reads last. -/
theorem landAll_pullTargets_param (s : State) :
    (State.landAll (pullTargets s).2).param =
      (landedBy s .lpfCutoff ++ landingAt s .afterReads).foldl Params.write s.param := by
  rw [List.foldl_append, ← pullTargets_param, ← pullTargets_landing]
  rfl

/-- With the `PARAM` registers and the writes in flight put back, the state is the one before the reads. -/
theorem pullTargets_restored (s : State) :
    { (pullTargets s).2 with param := s.param, landing := s.landing } = s := by
  obtain ⟨p, l, hq⟩ := pullTargets_frame s
  rw [hq]

/-- A delay time that lands after the reads and a mix that lands before its own read: the targets hold
the old one and the new one. -/
theorem pullTargets_torn {s : State} {v0 v1 : Word}
    (h : s.landing = [⟨.delayTime, v0, .afterReads⟩, ⟨.dryWetMix, v1, .beforeRead .dryWetMix⟩]) :
    (pullTargets s).1 = { s.param with dryWetMix := v1 } ∧
    (State.landAll (pullTargets s).2).param = { s.param with delayTime := v0, dryWetMix := v1 } := by
  cases s; cases h; exact ⟨rfl, rfl⟩

/-- Settles O11: a target holds exactly the writes that land up to its own read. -/
theorem targetsCanBeTornAcrossParameters : Obligations.TargetsCanBeTornAcrossParameters := by
  refine ⟨fun s k => ⟨?_, ?_, pullTargets_restored s⟩, fun _ => pullTargets_of_nil,
    fun _ _ _ => pullTargets_torn⟩
  · exact (pullTargets_get s k).trans (Params.get_foldl_write (landedBy s k) s.param k)
  · rw [landAll_pullTargets_param]
    exact Params.get_foldl_write _ s.param k

end Sys2Proof.Machine
end

section
/-! Command bytes and command words, decoded and encoded (R61, R90, R91, R94). -/

namespace Sys2Proof

/-- Bytes that decode to a command begin with the four bytes of some word (R90: one length, 32 bits). -/
theorem exists_wordBytes_of_decode_ok {bs : List Byte} {r : Instr × List Byte}
    (h : decode bs = .ok r) : ∃ w tail, bs = wordBytes w ++ tail := by
  match bs, h with
  | b0 :: b1 :: b2 :: b3 :: tail, _ =>
    exact ⟨wordOfBytes b0 b1 b2 b3, tail, by rw [wordBytes_wordOfBytes]; rfl⟩

/-- The bytes after the word are handed back as they are. -/
theorem decode_wordBytes_ok_iff (w : Word) (tail : List Byte) (i : Instr) (rest : List Byte) :
    decode (wordBytes w ++ tail) = .ok (i, rest) ↔ decodeWord w = .ok i ∧ tail = rest := by
  rw [decode_wordBytes]
  cases decodeWord w <;> simp

/-- Settles O1: the first four bytes are those of one word, and only the command's own word decodes to
the command. -/
theorem commandBytesDecodeExactly : Obligations.CommandBytesDecodeExactly := by
  intro bs i rest
  constructor
  · intro h
    obtain ⟨w, tail, rfl⟩ := exists_wordBytes_of_decode_ok h
    obtain ⟨hw, rfl⟩ := (decode_wordBytes_ok_iff w tail i rest).1 h
    rw [encodeBytes, (decodeWord_ok_iff w i).1 hw]
  · rintro rfl
    exact (decode_wordBytes_ok_iff _ rest i rest).2 ⟨(decodeWord_ok_iff _ i).2 rfl, rfl⟩

/-- A word with a non-zero `ZERO` field is illegal, whatever its `OPC` (R94). -/
theorem decodeWord_zeroFieldNotZero {w : Word} (h : w.extractLsb' 8 24 ≠ 0#24) :
    decodeWord w = .error .zeroFieldNotZero := by
  rw [decodeWord, decodeFields, cmdFields, if_pos h]

/-- A word whose `ZERO` field is 0 and that is no command's word has an unknown `OPC` (R94). -/
theorem decodeWord_unknownOpcode {w : Word} (hz : w.extractLsb' 8 24 = 0#24)
    (hw : ∀ i : Instr, w ≠ encode i) : decodeWord w = .error .unknownOpcode := by
  obtain ⟨e, he⟩ := decodeWord_error hw
  rw [he]
  rw [decodeWord, decodeFields, cmdFields, if_neg (not_not.2 hz)] at he
  split_ifs at he
  exact he.symm

/-- Settles O2: the three words of the opcode map, then an unknown `OPC` (0, 4, 0xFF) and a non-zero
`ZERO` field (a low bit, the top bit). -/
theorem tableWordsDecode : Obligations.TableWordsDecode := by
  obtain ⟨-, -, htable, -⟩ := Laws.RoundTrip.process
  exact ⟨(decodeWord_ok_iff _ _).2 rfl, (decodeWord_ok_iff _ _).2 rfl, (decodeWord_ok_iff _ _).2 rfl,
    decodeWord_unknownOpcode (by decide) (by rintro ⟨⟩ <;> decide),
    decodeWord_unknownOpcode (by decide) (by rintro ⟨⟩ <;> decide),
    decodeWord_unknownOpcode (by decide) (by rintro ⟨⟩ <;> decide),
    decodeWord_zeroFieldNotZero (by decide), decodeWord_zeroFieldNotZero (by decide), htable⟩

end Sys2Proof
end

section
/-! What it is for a pattern to be the rounding of an exact result (R111): no value is nearer, ties go to
even, and the infinities begin halfway between the largest finite value and 2^128. -/

namespace Sys2Proof.Machine

/-! Where the infinities begin -/

/-- In steps of its spacing a quotient rounds to at most `2^24`. -/
theorem F32.roundDiv_shift_le (num : Nat) {den : Nat} (hd : 0 < den) :
    F32.roundDiv num (den * 2 ^ F32.shift num den) ≤ 2 ^ 24 := by
  have hP : 0 < den * 2 ^ F32.shift num den := by positivity
  calc F32.roundDiv num (den * 2 ^ F32.shift num den)
      ≤ F32.roundDiv (2 ^ 24 * (den * 2 ^ F32.shift num den)) (den * 2 ^ F32.shift num den) :=
        F32.roundDiv_mono hP hP (Nat.mul_le_mul_right _ (F32.shift_upper num hd).le)
    _ = 2 ^ 24 := F32.roundDiv_exact _ hP

/-- Below `2^277` units the spacing is at most `2^253` units. -/
theorem F32.shift_le_of_lt {num den : Nat} (hd : 0 < den) (h : num < 2 ^ 25 * (2 ^ 252 * den)) :
    F32.shift num den ≤ 253 := by
  by_contra hc
  have hlow := F32.shift_lower (num := num) hd (by omega)
  have hpow : 2 ^ 254 ≤ 2 ^ F32.shift num den := Nat.pow_le_pow_right (by norm_num) (by omega)
  have hmul := Nat.mul_le_mul_left (2 ^ 23) (Nat.mul_le_mul_left den hpow)
  rw [show 254 = 252 + 2 from rfl, pow_add] at hmul
  linarith

/-- Rounding reaches the infinity exactly from `2^24 - 1/2` steps of the widest spacing on, that is from
`2^277 - 2^252` units on (R111). -/
theorem F32.roundMag_eq_infMag_iff {num den : Nat} (hd : 0 < den) :
    F32.roundMag num den = F32.infMag ↔ (2 ^ 25 - 1) * 2 ^ 252 * den ≤ num := by
  constructor
  · intro h
    by_contra hc
    rw [Nat.mul_assoc] at hc
    have hsh : F32.shift num den ≤ 253 := F32.shift_le_of_lt hd (by omega)
    have hk := F32.roundDiv_shift_le num hd
    rw [F32.roundMag_eq, show F32.infMag = 253 * 2 ^ 23 + 2 ^ 24 from rfl] at h
    have h253 : F32.shift num den = 253 := by omega
    rw [h253] at h hk
    obtain ⟨-, hspec, -, -⟩ := F32.roundDiv_spec num (d := den * 2 ^ 253) (by positivity)
    rw [show F32.roundDiv num (den * 2 ^ 253) = 2 ^ 24 by omega, Nat.mul_assoc,
      show den * 2 ^ 253 = 2 * (2 ^ 252 * den) by ring] at hspec
    omega
  · intro h
    refine le_antisymm (F32.roundMag_le_inf num den) ?_
    calc F32.infMag = F32.roundMag ((2 ^ 25 - 1) * 2 ^ 252) 1 := by decide +kernel
      _ ≤ F32.roundMag num den := F32.roundMag_mono one_pos hd (by rwa [mul_one])

/-! Signs of values -/

theorem F32.val_nonneg {w : Word} (h : F32.neg w = false) : 0 ≤ F32.val w := by
  simp [F32.val, h]

theorem F32.val_nonpos {w : Word} (h : F32.neg w = true) : F32.val w ≤ 0 := by
  simp [F32.val, h]

theorem F32.isZero_iff_val (w : Word) : F32.isZero w = true ↔ F32.val w = 0 := by
  rw [← Int.natAbs_eq_zero, F32.natAbs_val, F32.units_def, F32.magUnits_eq_zero, F32.isZero_def,
    decide_eq_true_eq]

theorem F32.isZero_eq_false_iff_val (w : Word) : F32.isZero w = false ↔ F32.val w ≠ 0 := by
  rw [← Bool.not_eq_true, F32.isZero_iff_val]

/-- Two values of one magnitude that differ are opposite. -/
theorem F32.val_eq_neg_of_mag_eq {a b : Word} (hmag : F32.mag a = F32.mag b) (hne : F32.val a ≠ F32.val b) :
    F32.val a = -F32.val b := by
  have h : (F32.val a).natAbs = (F32.val b).natAbs := by
    rw [F32.natAbs_val, F32.natAbs_val, F32.units_def, F32.units_def, hmag]
  omega

/-! The rounding of an exact result -/

/-- `r` is the rounding of `x / den` units of 2^-149 (R111): its magnitude is that of `|x| / den` rounded,
and its sign is that of `x`; either sign will do for a zero. -/
structure F32.IsRounding (x : Int) (den : Nat) (r : Word) : Prop where
  mag_eq : F32.mag r = F32.roundMag x.natAbs den
  nonpos : F32.neg r = true → x ≤ 0
  nonneg : F32.neg r = false → 0 ≤ x

namespace F32.IsRounding

variable {x : Int} {den : Nat} {r : Word}

theorem neg_iff (h : F32.IsRounding x den r) (hx : x ≠ 0) : F32.neg r = true ↔ x < 0 := by
  constructor
  · exact fun hn => lt_of_le_of_ne (h.nonpos hn) hx
  · intro hlt
    by_contra hn
    exact absurd (h.nonneg (Bool.not_eq_true _ ▸ hn)) (not_le.2 hlt)

theorem isNaN_eq_false (h : F32.IsRounding x den r) : F32.isNaN r = false := by
  have := F32.roundMag_le_inf x.natAbs den
  rw [← h.mag_eq] at this
  exact decide_eq_false (not_lt.2 this)

theorem isInf_iff (h : F32.IsRounding x den r) (hd : 0 < den) :
    F32.isInf r = true ↔ (2 ^ 277 - 2 ^ 252) * (den : Int) ≤ |x| := by
  rw [F32.isInf, decide_eq_true_eq, h.mag_eq, F32.roundMag_eq_infMag_iff hd, Int.abs_eq_natAbs,
    show (2 ^ 277 - 2 ^ 252 : Int) = ((2 ^ 25 - 1) * 2 ^ 252 : Nat) by
      rw [show 277 = 25 + 252 from rfl, pow_add]; norm_num]
  exact_mod_cast Iff.rfl

/-- The error of a rounding is that of its magnitude. -/
theorem error_eq (h : F32.IsRounding x den r) :
    |F32.val r * den - x| = |(F32.magUnits (F32.mag r) * den : Int) - x.natAbs| := by
  rw [F32.val, F32.units_def]
  cases hn : F32.neg r with
  | true =>
    have := h.nonpos hn
    rw [if_pos rfl, ← abs_neg, show (x.natAbs : Int) = -x by omega]
    congr 1; ring
  | false =>
    have := h.nonneg hn
    rw [if_neg (by decide), show (x.natAbs : Int) = x by omega]

/-- The error of any value is at least that of its magnitude. -/
theorem error_ge (x : Int) (den : Nat) (w : Word) :
    |(F32.magUnits (F32.mag w) * den : Int) - x.natAbs| ≤ |F32.val w * den - x| := by
  have := abs_abs_sub_abs_le (F32.val w * den) x
  rwa [abs_mul, Int.abs_eq_natAbs (F32.val w), F32.natAbs_val, Nat.abs_cast, Int.abs_eq_natAbs x] at this

/-- No value is nearer to the exact result than its rounding, and only an even rounding has another value as
near (R111). -/
theorem nearest (h : F32.IsRounding x den r) (hd : 0 < den) (hr : F32.isFinite r = true) (w : Word) :
    |F32.val r * den - x| ≤ |F32.val w * den - x| ∧
    (|F32.val r * den - x| = |F32.val w * den - x| → F32.val w ≠ F32.val r → F32.mag r % 2 = 0) := by
  have hfin := F32.mag_of_finite hr
  rw [h.mag_eq] at hfin
  obtain ⟨hnear, htie⟩ := F32.roundMag_nearest hd hfin (F32.mag w)
  rw [← h.mag_eq] at hnear htie
  have hge := error_ge x den w
  have herr := h.error_eq
  refine ⟨herr.trans_le (hnear.trans hge), fun heq hne => ?_⟩
  by_cases hmag : F32.mag w = F32.mag r
  · have hopp : F32.val w = -F32.val r := F32.val_eq_neg_of_mag_eq hmag hne
    rw [hopp, neg_mul, abs_eq_abs] at heq
    have hzero : F32.val r * den = 0 ∨ x = 0 := by omega
    rcases hzero with hzero | hzero
    · have hd0 : (den : Int) ≠ 0 := by exact_mod_cast hd.ne'
      have hval : F32.val r = 0 := (mul_eq_zero.1 hzero).resolve_right hd0
      exact absurd (by rw [hopp, hval, neg_zero]) hne
    · rw [h.mag_eq, hzero, Int.natAbs_zero, F32.roundMag_zero]
  · exact htie (le_antisymm hnear (by rw [← herr, heq]; exact hge)) hmag

/-- A value that is no zero is its own only rounding. -/
theorem eq_of_val {a : Word} (h : F32.IsRounding (F32.val a) 1 r) (ha : F32.isFinite a = true)
    (h0 : F32.isZero a = false) : r = a := by
  have hv := (F32.isZero_eq_false_iff_val a).1 h0
  have hmag : F32.mag r = F32.mag a := by
    rw [h.mag_eq, F32.natAbs_val, F32.units_def]
    simpa using F32.roundMag_exact one_pos (F32.mag_of_finite ha).le
  refine F32.ext ?_ hmag
  cases hn : F32.neg a with
  | true => exact (h.neg_iff hv).2 (lt_of_le_of_ne (F32.val_nonpos hn) hv)
  | false =>
    rw [← Bool.not_eq_true, h.neg_iff hv]
    exact not_lt.2 (F32.val_nonneg hn)

end F32.IsRounding

/-! The operations on finite operands round their exact results -/

theorem F32.isRounding_ofMag {x : Int} {den : Nat} {s : Bool} (h1 : s = true → x ≤ 0)
    (h2 : s = false → 0 ≤ x) :
    F32.IsRounding x den (F32.ofMag s (F32.roundMag x.natAbs den)) where
  mag_eq := F32.mag_ofMag (F32.roundMag_lt _ _)
  nonpos := by rwa [F32.neg_ofMag (F32.roundMag_lt _ _)]
  nonneg := by rwa [F32.neg_ofMag (F32.roundMag_lt _ _)]

/-- An exact zero sum is `+0.0`, or `-0.0` for two negative zeros (R115). -/
theorem F32.add_of_val_eq_zero {n : Nat} {a b : Word} (ha : F32.isFinite a = true)
    (hb : F32.isFinite b = true) (h : F32.val a + F32.val b = 0) :
    F32.add n a b = F32.ofMag (F32.neg a && F32.neg b) 0 := by
  rw [F32.add_of_finite ha hb, if_pos h]

theorem F32.add_isRounding (n : Nat) {a b : Word} (ha : F32.isFinite a = true)
    (hb : F32.isFinite b = true) : F32.IsRounding (F32.val a + F32.val b) 1 (F32.add n a b) := by
  by_cases h : F32.val a + F32.val b = 0
  · rw [F32.add_of_val_eq_zero ha hb h, h]
    simpa using F32.isRounding_ofMag (x := 0) (den := 1) (fun _ => le_rfl) (fun _ => le_rfl)
  · rw [F32.add_of_finite ha hb, if_neg h]
    exact F32.isRounding_ofMag (fun hs => (of_decide_eq_true hs).le)
      (fun hs => not_lt.1 (of_decide_eq_false hs))

/-- Values of one sign have a product that is not negative. -/
theorem F32.val_mul_nonneg {a b : Word} (h : F32.neg a = F32.neg b) : 0 ≤ F32.val a * F32.val b := by
  cases hb : F32.neg b with
  | true => exact mul_nonneg_of_nonpos_of_nonpos (F32.val_nonpos (h.trans hb)) (F32.val_nonpos hb)
  | false => exact mul_nonneg (F32.val_nonneg (h.trans hb)) (F32.val_nonneg hb)

/-- Values of different signs have a product that is not positive. -/
theorem F32.val_mul_nonpos {a b : Word} (h : F32.neg a ≠ F32.neg b) : F32.val a * F32.val b ≤ 0 := by
  have := F32.val_mul_nonneg (a := F32.negate a) (b := b) (by simpa [Bool.eq_not] using h)
  rw [F32.val_negate] at this
  linarith

theorem F32.mul_isRounding (n : Nat) {a b : Word} (ha : F32.isFinite a = true)
    (hb : F32.isFinite b = true) :
    F32.IsRounding (F32.val a * F32.val b) (2 ^ 149) (F32.mul n a b) := by
  rw [F32.mul_of_finite ha hb, ← F32.natAbs_val, ← F32.natAbs_val, ← Int.natAbs_mul]
  exact F32.isRounding_ofMag (fun hs => F32.val_mul_nonpos (by simpa using hs))
    (fun hs => F32.val_mul_nonneg (by simpa using hs))

/-- The dividend of `a / b` with the sign of the quotient, so that `|b|` divides it, in units of 2^-298. -/
def F32.signedDividend (a b : Word) : Int :=
  F32.val (F32.ofMag (F32.neg a != F32.neg b) (F32.mag a)) * 2 ^ 149

theorem F32.natAbs_signedDividend (a b : Word) :
    (F32.signedDividend a b).natAbs = F32.units a * 2 ^ 149 := by
  rw [F32.signedDividend, Int.natAbs_mul, F32.natAbs_val, F32.units_def, F32.mag_ofMag (F32.mag_lt a)]
  rfl

/-- The error of a quotient, multiplied by the divisor or by its magnitude. -/
theorem F32.abs_mul_val_sub (v : Int) (a b : Word) :
    |v * F32.val b - F32.val a * 2 ^ 149| = |v * F32.units b - F32.signedDividend a b| := by
  rw [F32.signedDividend, F32.val_ofMag (F32.mag_lt a), ← F32.units_def, F32.val.eq_def a,
    F32.val.eq_def b]
  cases F32.neg b with
  | true =>
    rw [← abs_neg]
    congr 1
    cases F32.neg a <;> simp <;> ring
  | false => rw [Bool.bne_false]; rfl

theorem F32.div_isRounding (n : Nat) {a b : Word} (ha : F32.isFinite a = true)
    (hb : F32.isFinite b = true) (h0 : F32.isZero b = false) :
    F32.IsRounding (F32.signedDividend a b) (F32.units b) (F32.div n a b) := by
  have hneg := F32.neg_ofMag (s := F32.neg a != F32.neg b) (F32.mag_lt a)
  rw [F32.div_of_finite ha hb h0, ← F32.natAbs_signedDividend a b]
  exact F32.isRounding_ofMag
    (fun hs => mul_nonpos_of_nonpos_of_nonneg (F32.val_nonpos (hneg.trans hs)) (by positivity))
    (fun hs => mul_nonneg (F32.val_nonneg (hneg.trans hs)) (by positivity))

end Sys2Proof.Machine
end

section
/-! Sums, products and quotients of binary32 values (R111, R112, R115). -/

namespace Sys2Proof.Machine

/-! Sums -/

theorem F32.isNaN_of_isInf {w : Word} (h : F32.isInf w = true) : F32.isNaN w = false := by
  rw [F32.isInf, decide_eq_true_eq] at h
  exact decide_eq_false (by omega)

theorem F32.isFinite_of_isZero {w : Word} (h : F32.isZero w = true) : F32.isFinite w = true := by
  rw [F32.isZero_def, decide_eq_true_eq] at h
  rw [F32.isFinite_iff, h]
  decide

/-- Infinities of one sign are one pattern (R110). -/
theorem F32.eq_of_isInf {a b : Word} (ha : F32.isInf a = true) (hb : F32.isInf b = true)
    (h : F32.neg a = F32.neg b) : a = b :=
  F32.ext h ((of_decide_eq_true ha).trans (of_decide_eq_true hb).symm)

/-- An infinity plus anything but a NaN and the opposite infinity is that infinity (R112). -/
theorem F32.add_of_isInf (n : Nat) {a b : Word} (ha : F32.isInf a = true) (hb : F32.isNaN b = false)
    (h : F32.isInf b = true → F32.neg b = F32.neg a) : F32.add n a b = a ∧ F32.add n b a = a := by
  have hna := F32.isNaN_of_isInf ha
  cases hib : F32.isInf b with
  | true =>
    obtain rfl := F32.eq_of_isInf hib ha (h hib)
    simp [F32.add, hna, ha]
  | false => simp [F32.add, hna, hb, ha, hib]

/-- A zero added to a finite value that is no zero gives that value (R115). -/
theorem F32.add_of_isZero (n : Nat) {a b : Word} (ha : F32.isFinite a = true) (h0 : F32.isZero a = false)
    (hb : F32.isZero b = true) : F32.add n a b = a ∧ F32.add n b a = a := by
  have hbf := F32.isFinite_of_isZero hb
  have hvb := (F32.isZero_iff_val b).1 hb
  have h1 := F32.add_isRounding n ha hbf
  have h2 := F32.add_isRounding n hbf ha
  rw [hvb, add_zero] at h1
  rw [hvb, zero_add] at h2
  exact ⟨h1.eq_of_val ha h0, h2.eq_of_val ha h0⟩

/-- `-b` is `b` with bit 31 flipped (R112). -/
theorem F32.negate_eq_xor (b : Word) : F32.negate b = b ^^^ 0x80000000#32 := by
  have hlt := b.isLt
  have hx : (b ^^^ 0x80000000#32).toNat = b.toNat ^^^ 2 ^ 31 := BitVec.toNat_xor ..
  have hdiv : (b.toNat ^^^ 2 ^ 31) / 2 ^ 31 = b.toNat / 2 ^ 31 ^^^ 1 := Nat.xor_div_two_pow
  refine F32.ext ?_ ?_
  · rw [F32.neg_negate, F32.neg, F32.neg, hx]
    obtain h | h : b.toNat / 2 ^ 31 = 0 ∨ b.toNat / 2 ^ 31 = 1 := by omega
    · rw [h, Nat.zero_xor] at hdiv
      rw [decide_eq_false (by omega), decide_eq_true (by omega), Bool.not_false]
    · rw [h, Nat.xor_self] at hdiv
      rw [decide_eq_true (by omega), decide_eq_false (by omega), Bool.not_true]
  · rw [F32.mag_negate, F32.mag, F32.mag, hx, Nat.xor_mod_two_pow, Nat.mod_self, Nat.xor_zero]

/-- Settles O36: a sum of finite values is a rounding of the exact sum. -/
theorem additionRoundsToNearestEven : Obligations.AdditionRoundsToNearestEven := by
  unfold Obligations.AdditionRoundsToNearestEven
  simp only [F32.fsub, F32.fadd_hardware, F32.negate_eq_xor]
  refine ⟨fun n a b w ha hb hr _ => ?_, fun n a b ha hb => ?_, fun n a b => F32.add_of_isInf n,
    fun n a b => F32.add_of_isZero n, fun _ _ _ => trivial⟩
  · simpa using (F32.add_isRounding n ha hb).nearest one_pos hr w
  · have h := F32.add_isRounding n ha hb
    refine ⟨h.isNaN_eq_false, by rw [h.isInf_iff one_pos, Nat.cast_one, mul_one], h.neg_iff, fun hx => ?_⟩
    rw [F32.add_of_val_eq_zero ha hb hx]
    cases F32.neg a <;> cases F32.neg b <;> rfl

/-! Products -/

theorem F32.neg_mul (n : Nat) {a b : Word} (ha : F32.isFinite a = true) (hb : F32.isFinite b = true) :
    F32.neg (F32.mul n a b) = (F32.neg a != F32.neg b) := (F32.mul_bits ha hb).2

/-- A finite value times a zero, in either order, is a zero (R115). -/
theorem F32.isZero_mul (n : Nat) {a b : Word} (ha : F32.isFinite a = true) (hb : F32.isFinite b = true)
    (h : F32.isZero a = true ∨ F32.isZero b = true) : F32.isZero (F32.mul n a b) = true := by
  have hprod : F32.val a * F32.val b = 0 := by
    rw [F32.isZero_iff_val, F32.isZero_iff_val] at h
    exact mul_eq_zero.2 h
  rw [F32.isZero_def, (F32.mul_isRounding n ha hb).mag_eq, hprod]
  simp

/-- A product with an infinite factor and no zero or NaN is an infinity (R112). -/
theorem F32.mul_of_isInf (n : Nat) {a b : Word} (ha : F32.isNaN a = false) (hb : F32.isNaN b = false)
    (h : F32.isInf a = true ∨ F32.isInf b = true) (ha0 : F32.isZero a = false)
    (hb0 : F32.isZero b = false) :
    F32.mul n a b = F32.ofMag (F32.neg a != F32.neg b) F32.infMag := by
  simp [F32.mul, ha, hb, ha0, hb0, h]

theorem F32.isInf_ofMag_infMag (s : Bool) : F32.isInf (F32.ofMag s F32.infMag) = true := by
  cases s <;> decide

theorem F32.neg_ofMag_infMag (s : Bool) : F32.neg (F32.ofMag s F32.infMag) = s :=
  F32.neg_ofMag (by decide)

/-- Settles O37: a product of finite values is a rounding of the exact product. -/
theorem multiplicationRoundsToNearestEven : Obligations.MultiplicationRoundsToNearestEven := by
  unfold Obligations.MultiplicationRoundsToNearestEven
  simp only [F32.fmul_hardware]
  refine ⟨fun n a b w ha hb hr _ => ?_, fun n a b ha hb => ?_, fun n a b ha hb hi ha0 hb0 => ?_⟩
  · exact_mod_cast (F32.mul_isRounding n ha hb).nearest (by positivity) hr w
  · have h := F32.mul_isRounding n ha hb
    exact ⟨h.isNaN_eq_false, by exact_mod_cast h.isInf_iff (by positivity), F32.neg_mul n ha hb,
      F32.isZero_mul n ha hb⟩
  · rw [F32.mul_of_isInf n ha hb hi ha0 hb0]
    exact ⟨F32.isInf_ofMag_infMag _, F32.neg_ofMag_infMag _⟩

/-! Quotients -/

/-- A finite value that is no zero over a zero is an infinity (R112). -/
theorem F32.div_of_isZero (n : Nat) {a b : Word} (ha : F32.isFinite a = true) (ha0 : F32.isZero a = false)
    (hb : F32.isZero b = true) :
    F32.div n a b = F32.ofMag (F32.neg a != F32.neg b) F32.infMag := by
  have hbf := F32.isFinite_of_isZero hb
  simp [F32.div, F32.isNaN_of_finite ha, F32.isNaN_of_finite hbf, F32.isInf_of_finite ha,
    F32.isInf_of_finite hbf, ha0, hb]

/-- An infinity over a finite value is an infinity (R112). -/
theorem F32.div_of_isInf_left (n : Nat) {a b : Word} (ha : F32.isInf a = true)
    (hb : F32.isFinite b = true) :
    F32.div n a b = F32.ofMag (F32.neg a != F32.neg b) F32.infMag := by
  simp [F32.div, F32.isNaN_of_isInf ha, ha, F32.isNaN_of_finite hb, F32.isInf_of_finite hb]

/-- A finite value over an infinity is a zero (R112). -/
theorem F32.div_of_isInf_right (n : Nat) {a b : Word} (ha : F32.isFinite a = true)
    (hb : F32.isInf b = true) : F32.div n a b = F32.ofMag (F32.neg a != F32.neg b) 0 := by
  simp [F32.div, F32.isNaN_of_isInf hb, hb, F32.isNaN_of_finite ha, F32.isInf_of_finite ha]

theorem F32.isZero_div (n : Nat) {a b : Word} (hb : F32.isFinite b = true) (hb0 : F32.isZero b = false)
    (ha : F32.isZero a = true) : F32.isZero (F32.div n a b) = true := by
  have hu : F32.units a = 0 := by rw [← F32.natAbs_val, (F32.isZero_iff_val a).1 ha, Int.natAbs_zero]
  rw [F32.isZero_def, (F32.div_bits (F32.isFinite_of_isZero ha) hb hb0).1, hu]
  simp

theorem F32.units_pos {w : Word} (h : F32.isZero w = false) : 0 < F32.units w := by
  rw [← F32.natAbs_val]
  exact Int.natAbs_pos.2 ((F32.isZero_eq_false_iff_val w).1 h)

/-- Settles O38: a quotient of finite values is a rounding of the exact quotient. -/
theorem divisionRoundsToNearestEven : Obligations.DivisionRoundsToNearestEven := by
  unfold Obligations.DivisionRoundsToNearestEven
  simp only [F32.fdiv_hardware, F32.abs_mul_val_sub]
  refine ⟨fun n a b w ha hb hb0 hr _ => ?_, fun n a b ha hb hb0 => ?_, fun n a b => ⟨?_, ?_, ?_⟩⟩
  · exact (F32.div_isRounding n ha hb hb0).nearest (F32.units_pos hb0) hr w
  · have h := F32.div_isRounding n ha hb hb0
    refine ⟨h.isNaN_eq_false, ?_, (F32.div_bits ha hb hb0).2, F32.isZero_div n hb hb0⟩
    have hinf := h.isInf_iff (F32.units_pos hb0)
    rw [Int.abs_eq_natAbs, F32.natAbs_signedDividend] at hinf
    rw [Int.abs_eq_natAbs, Int.abs_eq_natAbs, F32.natAbs_val, F32.natAbs_val]
    exact_mod_cast hinf
  · intro ha ha0 hb
    rw [F32.div_of_isZero n ha ha0 hb]
    exact ⟨F32.isInf_ofMag_infMag _, F32.neg_ofMag_infMag _⟩
  · intro ha hb
    rw [F32.div_of_isInf_left n ha hb]
    exact ⟨F32.isInf_ofMag_infMag _, F32.neg_ofMag_infMag _⟩
  · intro ha hb
    rw [F32.div_of_isInf_right n ha hb]
    cases F32.neg a <;> cases F32.neg b <;> decide

end Sys2Proof.Machine
end

section
/-! NaN operands and invalid operations (R112, R113), and the comparisons (R116). -/

namespace Sys2Proof.Machine

/-! Quiet NaNs -/

/-- A NaN with bit 22 set (R110). -/
abbrev F32.IsQuietNaN (w : Word) : Prop := F32.isNaN w = true ∧ w.toNat / 2 ^ 22 % 2 = 1

theorem F32.flush_of_not_subnormal (cfg : Config) {w : Word} (h : F32.isSubnormal w = false) :
    F32.flush cfg w = w := by
  simp [F32.flush, h]

theorem F32.flush_of_isNaN (cfg : Config) {w : Word} (h : F32.isNaN w = true) :
    F32.flush cfg w = w := by
  have hm := of_decide_eq_true h
  rw [F32.infMag] at hm
  exact F32.flush_of_not_subnormal cfg (by simp [F32.isSubnormal]; omega)

theorem F32.flush_of_isInf (cfg : Config) {w : Word} (h : F32.isInf w = true) :
    F32.flush cfg w = w := by
  have hm := of_decide_eq_true h
  rw [F32.infMag] at hm
  exact F32.flush_of_not_subnormal cfg (by simp [F32.isSubnormal]; omega)

theorem F32.flush_of_isZero (cfg : Config) {w : Word} (h : F32.isZero w = true) :
    F32.flush cfg w = w := by
  have hm := of_decide_eq_true h
  exact F32.flush_of_not_subnormal cfg (by simp [F32.isSubnormal, hm])

/-- Every NaN result is quiet and stays as it is where subnormals are flushed (R113, R114). -/
theorem F32.isQuietNaN_flush_nan (cfg : Config) (n : Nat) : F32.IsQuietNaN (F32.flush cfg (F32.nan n)) := by
  rw [F32.flush_of_isNaN cfg (F32.isNaN_nan n)]
  refine ⟨F32.isNaN_nan n, ?_⟩
  rw [F32.nan, F32.ofMag, BitVec.toNat_ofNat]
  split_ifs <;> omega

/-! NaN operands -/

section
variable (cfg : Config) (n : Nat) {a b : Word} (h : F32.isNaN a = true ∨ F32.isNaN b = true)
include h

/-- A NaN operand of an addition gives a quiet NaN (R113). -/
theorem F32.isQuietNaN_fadd : F32.IsQuietNaN (F32.fadd cfg n a b) := by
  rw [F32.fadd, F32.add, F32.isNaN_flush, F32.isNaN_flush, if_pos (by simpa using h)]
  exact F32.isQuietNaN_flush_nan cfg n

/-- A NaN operand of a subtraction gives a quiet NaN (R113). -/
theorem F32.isQuietNaN_fsub : F32.IsQuietNaN (F32.fsub cfg n a b) :=
  F32.isQuietNaN_fadd cfg n (by simpa [F32.isNaN] using h)

/-- A NaN operand of a multiplication gives a quiet NaN (R113). -/
theorem F32.isQuietNaN_fmul : F32.IsQuietNaN (F32.fmul cfg n a b) := by
  rw [F32.fmul, F32.mul, F32.isNaN_flush, F32.isNaN_flush, if_pos (by simpa using h)]
  exact F32.isQuietNaN_flush_nan cfg n

/-- A NaN operand of a division gives a quiet NaN (R113). -/
theorem F32.isQuietNaN_fdiv : F32.IsQuietNaN (F32.fdiv cfg n a b) := by
  rw [F32.fdiv, F32.div, F32.isNaN_flush, F32.isNaN_flush, if_pos (by simpa using h)]
  exact F32.isQuietNaN_flush_nan cfg n

end

/-! Invalid operations -/

theorem F32.isInf_of_isZero {w : Word} (h : F32.isZero w = true) : F32.isInf w = false :=
  F32.isInf_of_finite (F32.isFinite_of_isZero h)

/-- The sum of opposite infinities is invalid (R112). -/
theorem F32.isQuietNaN_fadd_opposite_inf (cfg : Config) (n : Nat) {a b : Word} (ha : F32.isInf a = true)
    (hb : F32.isInf b = true) (h : F32.neg a ≠ F32.neg b) : F32.IsQuietNaN (F32.fadd cfg n a b) := by
  have hadd : F32.add n a b = F32.nan n := by
    simp [F32.add, ha, hb, h]
  rw [F32.fadd, F32.flush_of_isInf cfg ha, F32.flush_of_isInf cfg hb, hadd]
  exact F32.isQuietNaN_flush_nan cfg n

/-- An infinity times a zero, in either order, is invalid (R112). -/
theorem F32.isQuietNaN_fmul_inf_zero (cfg : Config) (n : Nat) {a b : Word} (ha : F32.isInf a = true)
    (hb : F32.isZero b = true) :
    F32.IsQuietNaN (F32.fmul cfg n a b) ∧ F32.IsQuietNaN (F32.fmul cfg n b a) := by
  have hmul : F32.mul n a b = F32.nan n ∧ F32.mul n b a = F32.nan n := by
    simp [F32.mul, ha, hb]
  rw [F32.fmul, F32.fmul, F32.flush_of_isInf cfg ha, F32.flush_of_isZero cfg hb, hmul.1, hmul.2]
  exact ⟨F32.isQuietNaN_flush_nan cfg n, F32.isQuietNaN_flush_nan cfg n⟩

/-- Zero over zero is invalid (R112). -/
theorem F32.isQuietNaN_fdiv_zeros (cfg : Config) (n : Nat) {a b : Word} (ha : F32.isZero a = true)
    (hb : F32.isZero b = true) : F32.IsQuietNaN (F32.fdiv cfg n a b) := by
  have hdiv : F32.div n a b = F32.nan n := by
    simp [F32.div, ha, hb, F32.isInf_of_isZero]
  rw [F32.fdiv, F32.flush_of_isZero cfg ha, F32.flush_of_isZero cfg hb, hdiv]
  exact F32.isQuietNaN_flush_nan cfg n

/-- Infinity over infinity is invalid (R112). -/
theorem F32.isQuietNaN_fdiv_infs (cfg : Config) (n : Nat) {a b : Word} (ha : F32.isInf a = true)
    (hb : F32.isInf b = true) : F32.IsQuietNaN (F32.fdiv cfg n a b) := by
  have hdiv : F32.div n a b = F32.nan n := by
    simp [F32.div, ha, hb]
  rw [F32.fdiv, F32.flush_of_isInf cfg ha, F32.flush_of_isInf cfg hb, hdiv]
  exact F32.isQuietNaN_flush_nan cfg n

/-- Settles O39: each such operation is a NaN draw, which is quiet. -/
theorem naNOperandsAndInvalidOperationsGiveNaN : Obligations.NaNOperandsAndInvalidOperationsGiveNaN :=
  fun cfg n _ _ =>
    ⟨fun h => ⟨F32.isQuietNaN_fadd cfg n h, F32.isQuietNaN_fsub cfg n h, F32.isQuietNaN_fmul cfg n h,
        F32.isQuietNaN_fdiv cfg n h⟩,
      F32.isQuietNaN_fadd_opposite_inf cfg n, F32.isQuietNaN_fmul_inf_zero cfg n,
      F32.isQuietNaN_fdiv_zeros cfg n, F32.isQuietNaN_fdiv_infs cfg n⟩

/-! Comparisons -/

theorem F32.ordered_eq_true {a b : Word} (ha : F32.isNaN a = false) (hb : F32.isNaN b = false) :
    F32.ordered a b = true := by
  rw [F32.ordered, ha, hb]; rfl

theorem F32.ordered_eq_false {a b : Word} (h : F32.isNaN a = true ∨ F32.isNaN b = true) :
    F32.ordered a b = false := by
  rcases h with h | h <;> simp [F32.ordered, h]

/-- `≤` on any two patterns that are no NaN, infinities included, is that of the values (R116). -/
theorem F32.le_iff {a b : Word} (ha : F32.isNaN a = false) (hb : F32.isNaN b = false) :
    F32.le a b = true ↔ F32.val a ≤ F32.val b := by
  rw [F32.le, F32.ordered_eq_true ha hb, Bool.true_and, decide_eq_true_eq, F32.key_le_iff]

/-- `<` on any two patterns that are no NaN, infinities included, is that of the values (R116). -/
theorem F32.lt_iff {a b : Word} (ha : F32.isNaN a = false) (hb : F32.isNaN b = false) :
    F32.lt a b = true ↔ F32.val a < F32.val b := by
  rw [F32.lt, F32.ordered_eq_true ha hb, Bool.true_and, decide_eq_true_eq, ← not_le, F32.key_le_iff,
    not_le]

theorem F32.lt_of_isNaN {a b : Word} (h : F32.isNaN a = true ∨ F32.isNaN b = true) :
    F32.lt a b = false := by
  rw [F32.lt, F32.ordered_eq_false h, Bool.false_and]

theorem F32.le_of_isNaN {a b : Word} (h : F32.isNaN a = true ∨ F32.isNaN b = true) :
    F32.le a b = false := by
  rw [F32.le, F32.ordered_eq_false h, Bool.false_and]

/-- An infinity counts as 2^277 units (R116). -/
theorem F32.val_of_isInf {w : Word} (h : F32.isInf w = true) :
    F32.val w = if F32.neg w then -(2 ^ 277 : Int) else 2 ^ 277 := by
  rw [F32.val, F32.units_def, of_decide_eq_true h, F32.magUnits_inf, Nat.cast_pow, Nat.cast_ofNat]

theorem F32.abs_val_lt {w : Word} (h : F32.isFinite w = true) : |F32.val w| < 2 ^ 277 := by
  rw [Int.abs_eq_natAbs, F32.natAbs_val]
  exact_mod_cast F32.units_lt_of_finite h

/-- Settles O40: the order of the patterns is that of the values. -/
theorem comparisonsAreThoseOfTheValues : Obligations.ComparisonsAreThoseOfTheValues := by
  intro a b
  simp only [F32.fgt, F32.fge, F32.feq, F32.flt_hardware, F32.fle_hardware]
  refine ⟨fun h => ?_, fun ha hb => ?_, F32.val_of_isInf, F32.abs_val_lt, by decide, by decide⟩
  · simp [F32.lt_of_isNaN h, F32.le_of_isNaN h, F32.lt_of_isNaN h.symm, F32.le_of_isNaN h.symm]
  · refine ⟨F32.lt_iff ha hb, F32.le_iff ha hb, F32.lt_iff hb ha, F32.le_iff hb ha, ?_⟩
    rw [Bool.and_eq_true, F32.le_iff ha hb, F32.le_iff hb ha, le_antisymm_iff]

end Sys2Proof.Machine
end

section
/-! A NaN in an output history (R113, R158). -/

namespace Sys2Proof.Machine

/-- BIQUAD with a NaN as its last output gives a NaN (R158). -/
theorem isNaN_biquadOut (cfg : Config) (n : Nat) (k : Coefs) {h : History} (x : Word)
    (hy : F32.isNaN h.y1 = true) : F32.isNaN (biquadOut cfg n k h x) = true :=
  (F32.isQuietNaN_fsub cfg _ (.inl (F32.isQuietNaN_fsub cfg _ (.inr
    (F32.isQuietNaN_fmul cfg _ (.inr hy)).1)).1)).1

/-- After FILTER a sample before the block reads as it did. -/
theorem filterLoop_getWord_before (cfg : Config) (k : Coefs) (c : Channel) (count n n' : Nat) {i j : Nat}
    (h : j < i) (buf : Memory) (hist : History) :
    Memory.getWord (filterLoop cfg k c count n i buf hist).1 n' (bufAddr cfg c j) =
      Memory.getWord buf n' (bufAddr cfg c j) := by
  have ei := bufAddr_eq cfg c i
  have ej := bufAddr_eq cfg c j
  exact Memory.getWord_congr _ _ fun _ _ => filterLoop_get_outside _ _ _ (.inl (by omega)) _ _ _

/-- Settles O50, by induction on the number of samples: a NaN output is the next sample's `y1`. -/
theorem naNNeverLeavesAFilterHistory : Obligations.NaNNeverLeavesAFilterHistory := by
  intro cfg k c count n i buf h hy
  induction count generalizing n i buf h with
  | zero => exact ⟨hy, fun j _ h1 h2 => absurd h1 (by omega)⟩
  | succ count ih =>
    have hout := isNaN_biquadOut cfg (n + 1) k (Memory.getWord buf n (bufAddr cfg c i)) hy
    rw [filterLoop_succ]
    generalize biquadOut cfg (n + 1) k h (Memory.getWord buf n (bufAddr cfg c i)) = y at *
    obtain ⟨hhist, hrest⟩ := ih (n + 10) (i + 1) (Memory.setWord buf (bufAddr cfg c i) y)
      (History.push h (Memory.getWord buf n (bufAddr cfg c i)) y) hout
    refine ⟨hhist, fun j n' h1 h2 => ?_⟩
    rcases Nat.eq_or_lt_of_le h1 with rfl | hlt
    · rw [filterLoop_getWord_before _ _ _ _ _ _ (Nat.lt_succ_self i), Memory.getWord_setWord_self]
      exact hout
    · exact hrest j n' hlt (by omega)

end Sys2Proof.Machine
end

section
/-! Positions in the ring (R119, R120, R191). -/

namespace Sys2Proof.Machine

/-- The read position without `mod`: `d` behind, over the end of the ring if need be (R191). -/
theorem readIndex_eq {cap p d : Nat} (hp : p < cap) (hd : d ≤ cap) :
    readIndex cap p d = if d ≤ p then p - d else cap - (d - p) := by
  rw [readIndex]
  split_ifs with h
  · rw [show p + (cap - d) = p - d + cap by omega, Nat.add_mod_right, Nat.mod_eq_of_lt (by omega)]
  · rw [show p + (cap - d) = cap - (d - p) by omega, Nat.mod_eq_of_lt (by omega)]

/-- The position written is `d` after the one read, modulo `C` (R120). -/
theorem readIndex_add_mod {cap p d : Nat} (hp : p < cap) (hd : d ≤ cap) :
    (readIndex cap p d + d) % cap = p := by
  rw [readIndex, Nat.mod_add_mod, show p + (cap - d) + d = p + cap by omega, Nat.add_mod_right,
    Nat.mod_eq_of_lt hp]

/-- Settles O55: the write position lies in the ring, and the read position is `d` behind it there. -/
theorem positionsStayInsideTheRing : Obligations.PositionsStayInsideTheRing := by
  intro cap w i d hcap hd
  have hp : writeIndex cap w i < cap := Nat.mod_lt _ hcap
  refine ⟨rfl, hp, Nat.mod_lt _ hcap, readIndex_eq hp hd, readIndex_add_mod hp hd, fun h => ?_⟩
  rw [readIndex_eq hp hd]
  split_ifs <;> omega

end Sys2Proof.Machine
end

section
/-! The coefficients are correctly rounded (R122, R155, R156). -/

namespace Sys2Proof.Machine

/-! `rnd32` of a fraction -/

theorem F32.isFinite_of_not_isInf {w : Word} (h1 : F32.isNaN w = false) (h2 : ¬ F32.isInf w = true) :
    F32.isFinite w = true := by
  simp only [F32.isNaN, F32.isInf, decide_eq_false_iff_not, decide_eq_true_eq] at h1 h2
  exact (F32.isFinite_iff w).2 (by omega)

theorem F32.rnd32_isRounding (num : Int) (den : Nat) :
    F32.IsRounding (num * 2 ^ 149) den (F32.rnd32 num den) := by
  have habs : (num * 2 ^ 149).natAbs = num.natAbs * 2 ^ 149 := by rw [Int.natAbs_mul]; rfl
  rw [F32.rnd32, ← habs]
  exact F32.isRounding_ofMag
    (fun hs => mul_nonpos_of_nonpos_of_nonneg (of_decide_eq_true hs).le (by positivity))
    (fun hs => mul_nonneg (not_lt.1 (of_decide_eq_false hs)) (by positivity))

theorem F32.neg_rnd32 (num : Int) (den : Nat) : F32.neg (F32.rnd32 num den) = decide (num < 0) :=
  F32.neg_ofMag (F32.roundMag_lt _ _)

/-- The distance of a value from a fraction, over the common denominator. -/
theorem F32.abs_val_sub_fraction (v num : Int) {den : Nat} (hd : 0 < den) :
    |(v : ℝ) / 2 ^ 149 - (num : ℝ) / den| =
      ((|v * den - num * 2 ^ 149| : Int) : ℝ) / (2 ^ 149 * den) := by
  have hdr : (0 : ℝ) < den := by exact_mod_cast hd
  have hpos : (0 : ℝ) < 2 ^ 149 * den := by positivity
  rw [div_sub_div _ _ (by positivity) hdr.ne', abs_div, abs_of_pos hpos]
  simp only [Int.cast_abs, Int.cast_sub, Int.cast_mul, Int.cast_pow, Int.cast_natCast, Int.cast_ofNat,
    mul_comm (2 ^ 149 : ℝ)]

/-- From `2^128 - 2^103` on, in units of 2^-149 (R111). -/
theorem F32.overflow_fraction_iff (num : Int) {den : Nat} (hd : 0 < den) :
    (2 ^ 128 - 2 ^ 103 : ℝ) ≤ |(num : ℝ) / den| ↔
      (2 ^ 277 - 2 ^ 252) * (den : Int) ≤ |num * 2 ^ 149| := by
  have hdr : (0 : ℝ) < den := by exact_mod_cast hd
  rw [abs_div, abs_of_pos hdr, le_div_iff₀ hdr, abs_mul, abs_of_pos (by positivity : (0 : Int) < 2 ^ 149),
    show (2 ^ 277 - 2 ^ 252 : Int) = (2 ^ 128 - 2 ^ 103) * 2 ^ 149 by
      rw [show 277 = 128 + 149 from rfl, pow_add]; norm_num,
    mul_right_comm, mul_le_mul_iff_left₀ (by positivity)]
  exact_mod_cast Iff.rfl

/-- The model's rounding of a fraction is `rnd32` of it (R122). -/
theorem F32.isRnd32_rnd32 (num : Int) {den : Nat} (hd : 0 < den) :
    F32.IsRnd32 ((num : ℝ) / den) (F32.rnd32 num den) := by
  have h := F32.rnd32_isRounding num den
  have hdr : (0 : ℝ) < den := by exact_mod_cast hd
  have hpos : (0 : ℝ) < 2 ^ 149 * den := by positivity
  refine ⟨?_, ?_⟩
  · rw [F32.neg_rnd32, decide_eq_true_eq, div_lt_iff₀ hdr, zero_mul, Int.cast_lt_zero]
  have hinf := h.isInf_iff hd
  rw [← F32.overflow_fraction_iff num hd] at hinf
  split_ifs with hover
  · exact hinf.2 hover
  · have hfin := F32.isFinite_of_not_isInf h.isNaN_eq_false (mt hinf.1 hover)
    refine ⟨hfin, fun w _ => ?_⟩
    obtain ⟨hnear, htie⟩ := h.nearest hd hfin w
    simp only [F32.abs_val_sub_fraction _ num hd, div_le_div_iff_of_pos_right hpos, div_left_inj' hpos.ne',
      Int.cast_le, Int.cast_inj]
    exact ⟨hnear, htie⟩

/-! A number between two that round alike -/

/-- The further up a number is, the nearer the upper of two points is to it, compared with the lower. -/
theorem abs_sub_sub_abs_sub_le {u v a b : ℝ} (huv : u ≤ v) (hab : a ≤ b) :
    |v - b| - |u - b| ≤ |v - a| - |u - a| := by
  rcases le_total b v with h | h
  · have htri := abs_sub_le u b a
    rw [abs_of_nonneg (sub_nonneg.2 hab)] at htri
    rw [abs_of_nonneg (sub_nonneg.2 h), abs_of_nonneg (sub_nonneg.2 (hab.trans h))]
    linarith
  · have htri := abs_sub_le u v a
    rw [abs_of_nonpos (sub_nonpos.2 huv)] at htri
    rw [abs_of_nonpos (sub_nonpos.2 h), abs_of_nonpos (sub_nonpos.2 (huv.trans h))]
    linarith

namespace F32.IsRnd32

variable {lo hi r : ℝ} {w : Word}

theorem isInf_iff (h : F32.IsRnd32 r w) : F32.isInf w = true ↔ (2 ^ 128 - 2 ^ 103 : ℝ) ≤ |r| := by
  obtain ⟨-, hmag⟩ := h
  split_ifs at hmag with hover
  · exact iff_of_true hmag hover
  · rw [F32.isInf_of_finite hmag.1]
    exact iff_of_false (by decide) hover

theorem nearest (h : F32.IsRnd32 r w) (hfin : F32.isFinite w = true) {w' : Word}
    (hw' : F32.isFinite w' = true) :
    |(F32.val w : ℝ) / 2 ^ 149 - r| ≤ |(F32.val w' : ℝ) / 2 ^ 149 - r| ∧
    (|(F32.val w : ℝ) / 2 ^ 149 - r| = |(F32.val w' : ℝ) / 2 ^ 149 - r| →
      F32.val w' ≠ F32.val w → F32.mag w % 2 = 0) := by
  have hover : ¬ (2 ^ 128 - 2 ^ 103 : ℝ) ≤ |r| := by
    rw [← h.isInf_iff, F32.isInf_of_finite hfin]
    decide
  obtain ⟨-, hmag⟩ := h
  rw [if_neg hover] at hmag
  exact hmag.2 w' hw'

theorem isNaN_eq_false (h : F32.IsRnd32 r w) : F32.isNaN w = false := by
  obtain ⟨-, hmag⟩ := h
  split_ifs at hmag
  · exact F32.isNaN_of_isInf hmag
  · exact F32.isNaN_of_finite hmag.1

/-- A number between two that round to one pattern rounds to it too: the numbers that a value is nearest to
have no gap (R122). -/
theorem of_between (hlo : F32.IsRnd32 lo w) (hhi : F32.IsRnd32 hi w) (h1 : lo ≤ r) (h2 : r ≤ hi) :
    F32.IsRnd32 r w := by
  refine ⟨⟨fun h => h2.trans_lt (hhi.1.1 h), fun h => hlo.1.2 (h1.trans_lt h)⟩, ?_⟩
  split_ifs with hover
  · rcases le_max_iff.1 (hover.trans (abs_le_max_abs_abs h1 h2)) with h | h
    · exact hlo.isInf_iff.2 h
    · exact hhi.isInf_iff.2 h
  · have hinf : ¬ F32.isInf w = true := by
      intro h
      cases hn : F32.neg w with
      | true =>
        have hneg := hhi.1.1 hn
        have := hhi.isInf_iff.1 h
        rw [abs_of_neg hneg] at this
        rw [abs_of_neg (h2.trans_lt hneg)] at hover
        linarith
      | false =>
        have hpos : 0 ≤ lo := not_lt.1 fun hlt => by simp [hlo.1.2 hlt] at hn
        have := hlo.isInf_iff.1 h
        rw [abs_of_nonneg hpos] at this
        rw [abs_of_nonneg (hpos.trans h1)] at hover
        linarith
    have hfin := F32.isFinite_of_not_isInf hlo.isNaN_eq_false hinf
    refine ⟨hfin, fun w' hw' => ?_⟩
    obtain ⟨nlo, tlo⟩ := hlo.nearest hfin hw'
    obtain ⟨nhi, thi⟩ := hhi.nearest hfin hw'
    rcases le_total ((F32.val w : ℝ) / 2 ^ 149) ((F32.val w' : ℝ) / 2 ^ 149) with h | h
    · have hcmp := abs_sub_sub_abs_sub_le h h2
      exact ⟨by linarith, fun he => thi (by linarith)⟩
    · have hcmp := abs_sub_sub_abs_sub_le h h1
      exact ⟨by linarith, fun he => tlo (by linarith)⟩

end F32.IsRnd32

/-! The coefficients -/

/-- A larger denominator brings a negative fraction up. -/
theorem div_le_div_of_nonpos_left {c x y : ℝ} (hc : c ≤ 0) (hx : 0 < x) (hxy : x ≤ y) :
    c / x ≤ c / y := by
  rw [div_le_div_iff₀ hx (hx.trans_le hxy)]
  exact mul_le_mul_of_nonpos_left hxy hc

section
variable {n : Int} {a b : Nat} {N D : ℝ} (h0 : 0 < a) (h1 : (a : ℝ) ≤ D) (h2 : D ≤ b)
include h0 h1 h2

/-- A lower end over the greatest denominator, or a negative one over the least, is below the quotient. -/
theorem Coef.lower_end_le (hn : (n : ℝ) ≤ N) :
    (n : ℝ) / ((if 0 ≤ n then b else a : Nat) : ℝ) ≤ N / D := by
  have h0r : (0 : ℝ) < a := by exact_mod_cast h0
  have hD := h0r.trans_le h1
  refine le_trans ?_ (div_le_div_of_nonneg_right hn hD.le)
  split_ifs with hs
  · exact div_le_div_of_nonneg_left (by exact_mod_cast hs) hD h2
  · exact div_le_div_of_nonpos_left (by exact_mod_cast (not_le.1 hs).le) h0r h1

/-- An upper end over the least denominator, or a negative one over the greatest, is above the quotient. -/
theorem Coef.le_upper_end (hn : N ≤ n) : N / D ≤ (n : ℝ) / ((if 0 ≤ n then a else b : Nat) : ℝ) := by
  have h0r : (0 : ℝ) < a := by exact_mod_cast h0
  have hD := h0r.trans_le h1
  refine le_trans (div_le_div_of_nonneg_right hn hD.le) ?_
  split_ifs with hs
  · exact div_le_div_of_nonneg_left (by exact_mod_cast hs) h0r h1
  · exact div_le_div_of_nonpos_left (by exact_mod_cast (not_le.1 hs).le) hD h2

end

/-- Where both ends of an enclosure round alike, that pattern is `rnd32` of the quotient (R122). -/
theorem Coef.isRnd32_of_roundQuotient {n d : Coef.Interval} {N D : ℝ} {w : Word} (h0 : 0 < d.lo)
    (hn : (n.lo : ℝ) ≤ N ∧ N ≤ n.hi) (hd : (d.lo : ℝ) ≤ D ∧ D ≤ d.hi)
    (h : Coef.roundQuotient n d = some w) : F32.IsRnd32 (N / D) w := by
  have hlohi : d.lo ≤ d.hi := by exact_mod_cast hd.1.trans hd.2
  have clo : ((d.lo.toNat : ℕ) : ℝ) = d.lo := by exact_mod_cast Int.toNat_of_nonneg h0.le
  have chi : ((d.hi.toNat : ℕ) : ℝ) = d.hi := by exact_mod_cast Int.toNat_of_nonneg (h0.le.trans hlohi)
  rw [← clo, ← chi] at hd
  rw [Coef.roundQuotient, Option.ite_none_right_eq_some] at h
  obtain ⟨heq, hw⟩ := h
  cases hw
  have hlow := F32.isRnd32_rnd32 n.lo (den := if 0 ≤ n.lo then d.hi.toNat else d.lo.toNat)
    (by split_ifs <;> omega)
  have hupp := F32.isRnd32_rnd32 n.hi (den := if 0 ≤ n.hi then d.lo.toNat else d.hi.toNat)
    (by split_ifs <;> omega)
  rw [← heq] at hupp
  exact hlow.of_between hupp (Coef.lower_end_le (by omega) hd.1 hd.2 hn.1)
    (Coef.le_upper_end (by omega) hd.1 hd.2 hn.2)

/-- Every coefficient of the domain is `rnd32` of its formula (R155, R156). -/
theorem Coef.value_isRnd32 {fc q fs : Word} (h : Coef.inDomain fc q fs = true) (f : Coef.Formula) :
    F32.IsRnd32 (Coef.exact fc q fs f) (Coef.value fc q fs f) := by
  obtain ⟨p, hp, hround⟩ := Coef.value_decided h f
  obtain ⟨hn, hd, hK, -⟩ := Coef.parts_encloses h hp f
  obtain ⟨-, -, -, -, -, -, -, hq, -⟩ := (Coef.inDomain_iff fc q fs).1 h
  have hqr : (0 : ℝ) < F32.units q := by exact_mod_cast hq
  have hscale := Coef.scale_pos p
  have hKpos : 0 < 2 * (F32.units q : ℝ) * Coef.scale p := by positivity
  have hdlo : 0 < (Coef.parts fc q fs p).den.lo := by exact_mod_cast hKpos.trans_le hK
  have hres := Coef.isRnd32_of_roundQuotient hdlo hn hd hround
  rwa [mul_div_mul_right _ _ hKpos.ne', ← Coef.exact] at hres

/-- Settles O45: each coefficient is one of the six formulas. -/
theorem cookbookIsCorrectlyRounded : Obligations.CookbookIsCorrectlyRounded := by
  refine ⟨fun fc q fs h => ?_, fun num den hd => F32.isRnd32_rnd32 num hd⟩
  have hval := Coef.value_isRnd32 h
  exact ⟨hval .hpB0, hval .hpB1, hval .hpB0, hval .lpB0, hval .lpB1, hval .lpB0, hval .a1, hval .a1,
    hval .a2, hval .a2⟩

end Sys2Proof.Machine
end

section
/-! SMOOTH (R140 to R144): a step of about a hundredth of the way, its fixed point, and the closed ranges of
R31, which it never leaves. -/

namespace Sys2Proof.Machine

/-! How far a rounding reaches -/

/-- A rounding keeps the side of zero and at most doubles, since zero itself is a binary32 value. -/
theorem F32.IsRounding.mem_uIcc {x : Int} {den : Nat} {r : Word} (h : F32.IsRounding x den r)
    (hd : 0 < den) (hr : F32.isFinite r = true) : F32.val r * den ∈ Set.uIcc 0 (2 * x) := by
  have hnear := (h.nearest hd hr F32.zero).1
  rw [show F32.val F32.zero = 0 by decide, zero_mul, zero_sub, abs_neg] at hnear
  rw [Set.mem_uIcc]
  rcases le_total 0 x with hx | hx
  · rw [abs_of_nonneg hx, abs_le] at hnear
    exact .inl ⟨by omega, by omega⟩
  · rw [abs_of_nonpos hx, abs_le] at hnear
    exact .inr ⟨by omega, by omega⟩

/-! The difference -/

theorem F32.fsub_isRounding (n : Nat) {a b : Word} (ha : F32.isFinite a = true)
    (hb : F32.isFinite b = true) :
    F32.IsRounding (F32.val a - F32.val b) 1 (F32.fsub hardware n a b) := by
  rw [F32.fsub_hardware, sub_eq_add_neg, ← F32.val_negate]
  exact F32.add_isRounding n ha (by rwa [F32.isFinite_negate])

/-- A difference below `2^277 - 2^252` units does not overflow (R111). -/
theorem F32.isFinite_fsub (n : Nat) {a b : Word} (ha : F32.isFinite a = true)
    (hb : F32.isFinite b = true) (h : |F32.val a - F32.val b| < 2 ^ 277 - 2 ^ 252) :
    F32.isFinite (F32.fsub hardware n a b) = true := by
  have hround := F32.fsub_isRounding n ha hb
  refine F32.isFinite_of_not_isInf hround.isNaN_eq_false fun hinf => ?_
  rw [hround.isInf_iff one_pos, Nat.cast_one, mul_one] at hinf
  exact absurd h (not_lt.2 hinf)

/-- A finite value minus itself is `+0.0` (R115). -/
theorem F32.fsub_self (n : Nat) {p : Word} (hp : F32.isFinite p = true) :
    F32.fsub hardware n p p = F32.zero := by
  rw [F32.fsub_hardware, F32.add_of_val_eq_zero hp (by rwa [F32.isFinite_negate]) (by simp),
    F32.neg_negate, Bool.and_not_self]
  rfl

/-! The step -/

/-- `K_SMOOTH` in units of 2^-149 (R141). -/
theorem val_kSmooth : F32.val hardware.kSmooth = 10737418 * 2 ^ 119 := by decide

theorem isFinite_kSmooth : F32.isFinite hardware.kSmooth = true := by decide

/-- `K_SMOOTH` times a finite value does not overflow, because `K_SMOOTH` is below 1. -/
theorem isFinite_mul_kSmooth (n : Nat) {s : Word} (hs : F32.isFinite s = true) :
    F32.isFinite (F32.mul n hardware.kSmooth s) = true := by
  have hprod : (F32.val hardware.kSmooth * F32.val s).natAbs ≤ F32.magUnits (F32.mag s) * 2 ^ 149 := by
    rw [← F32.units_def, ← F32.natAbs_val, val_kSmooth]
    omega
  rw [F32.isFinite_iff, (F32.mul_isRounding n isFinite_kSmooth hs).mag_eq]
  exact (F32.roundMag_le (by positivity) (F32.mag_of_finite hs).le hprod).trans_lt (F32.mag_of_finite hs)

/-- The step is at most half the difference `s`, and on its side of zero. -/
theorem val_mul_kSmooth_mem (n : Nat) {s : Word} (hs : F32.isFinite s = true) :
    2 * F32.val (F32.mul n hardware.kSmooth s) ∈ Set.uIcc 0 (F32.val s) := by
  have hm := (F32.mul_isRounding n isFinite_kSmooth hs).mem_uIcc (by positivity) (isFinite_mul_kSmooth n hs)
  rw [val_kSmooth, Set.mem_uIcc] at hm
  rw [Set.mem_uIcc]
  push_cast at hm
  omega

/-! SMOOTH -/

theorem smooth_hardware (n : Nat) (p t : Word) :
    smooth hardware n p t =
      F32.add (n + 2) p (F32.mul (n + 1) hardware.kSmooth (F32.fsub hardware n t p)) := by
  rw [smooth, F32.fadd_hardware, F32.fmul_hardware]

/-- The exact sum that SMOOTH rounds lies between its operands: the rounded difference is at most twice
the exact one, and the step at most half the rounded one. -/
theorem smooth_exactSum_mem (n : Nat) {p t : Word} (hp : F32.isFinite p = true) (ht : F32.isFinite t = true)
    (hs : F32.isFinite (F32.fsub hardware n t p) = true) :
    F32.val p + F32.val (F32.mul (n + 1) hardware.kSmooth (F32.fsub hardware n t p)) ∈
      Set.uIcc (F32.val p) (F32.val t) := by
  have hdiff := (F32.fsub_isRounding n ht hp).mem_uIcc one_pos hs
  have hstep := val_mul_kSmooth_mem (n + 1) hs
  rw [Nat.cast_one, mul_one] at hdiff
  rw [Set.mem_uIcc] at hdiff hstep ⊢
  omega

/-- SMOOTH of finite operands whose difference does not overflow is finite and between them (R144). -/
theorem smooth_between (n : Nat) {p t : Word} (hp : F32.isFinite p = true) (ht : F32.isFinite t = true)
    (hs : F32.isFinite (F32.fsub hardware n t p) = true) :
    F32.isFinite (smooth hardware n p t) = true ∧
      F32.val (smooth hardware n p t) ∈ Set.uIcc (F32.val p) (F32.val t) := by
  have hm := isFinite_mul_kSmooth (n + 1) hs
  have hsum := smooth_exactSum_mem n hp ht hs
  rw [smooth_hardware, Set.mem_uIcc]
  rw [Set.mem_uIcc] at hsum
  rcases hsum with ⟨hlo, hhi⟩ | ⟨hlo, hhi⟩
  · exact (F32.add_between hp hm hp ht hlo hhi).imp_right .inl
  · exact (F32.add_between hp hm ht hp hlo hhi).imp_right .inr

/-- Settles O42: the result is the rounding of a sum between the operands, which are binary32 values. -/
theorem smoothStaysBetweenItsOperands : Obligations.SmoothStaysBetweenItsOperands :=
  ⟨fun _ _ _ => rfl, fun n _ _ hp ht hs => smooth_between n hp ht hs⟩

/-! The fixed point -/

/-- No difference, no step: the product is `+0.0` (R115). -/
theorem mul_kSmooth_zero (n : Nat) : F32.mul n hardware.kSmooth F32.zero = F32.zero := by
  have hz : F32.isZero (F32.mul n hardware.kSmooth F32.zero) = true :=
    F32.isZero_mul n isFinite_kSmooth (by decide) (.inr (by decide))
  refine F32.ext ?_ (of_decide_eq_true hz)
  rw [F32.neg_mul n isFinite_kSmooth (by decide)]
  decide

/-- The two zeros are the patterns 0 and 0x80000000 (R110). -/
theorem F32.eq_of_isZero {w : Word} (h : F32.isZero w = true) : w = F32.zero ∨ w = 0x80000000#32 := by
  have hmag : F32.mag w = 0 := of_decide_eq_true h
  rw [← F32.ofMag_neg_mag w, hmag]
  cases F32.neg w with
  | false => exact .inl rfl
  | true => exact .inr rfl

/-- `p + (+0.0)` is `p`, except that `-0.0` becomes `+0.0` (R115). -/
theorem F32.add_posZero (n : Nat) {p : Word} (hp : F32.isFinite p = true) :
    F32.add n p F32.zero = if p = 0x80000000#32 then F32.zero else p := by
  cases h0 : F32.isZero p with
  | false =>
    rw [if_neg (by rintro rfl; exact absurd h0 (by decide))]
    exact (F32.add_of_isZero n hp h0 (by decide)).1
  | true => rcases F32.eq_of_isZero h0 with rfl | rfl <;> rfl

/-- Where the difference is a NaN, so is the result of SMOOTH (R113). -/
theorem isNaN_smooth {n : Nat} {p t : Word} (h : F32.isNaN (F32.fsub hardware n t p) = true) :
    F32.isNaN (smooth hardware n p t) = true :=
  (F32.isQuietNaN_fadd hardware (n + 2) (.inr (F32.isQuietNaN_fmul hardware (n + 1) (.inr h)).1)).1

/-- Infinity minus itself is invalid (R112). -/
theorem F32.isNaN_fsub_self_of_isInf (n : Nat) {p : Word} (hp : F32.isInf p = true) :
    F32.isNaN (F32.fsub hardware n p p) = true :=
  (F32.isQuietNaN_fadd_opposite_inf hardware n hp (by simpa [F32.isInf] using hp) (by simp)).1

/-- Settles O41: the difference and the step are `+0.0`, or a NaN for an infinity. -/
theorem smoothHasItsTargetAsFixedPoint : Obligations.SmoothHasItsTargetAsFixedPoint := by
  intro n p
  refine ⟨fun hp => ?_, fun hp => ?_⟩
  · have hs := F32.fsub_self n hp
    have hm := mul_kSmooth_zero (n + 1)
    refine ⟨hs, ?_, ?_⟩
    · rw [hs, F32.fmul_hardware]; exact hm
    · rw [smooth_hardware, hs, hm]; exact F32.add_posZero (n + 2) hp
  · have hs := F32.isNaN_fsub_self_of_isInf n hp
    exact ⟨hs, isNaN_smooth hs⟩

/-! The closed ranges of R31 -/

/-- A value in a closed range with finite ends is finite and between them. -/
theorem inClosedRange_iff {lo hi : Word} (hlo : F32.isFinite lo = true) (hhi : F32.isFinite hi = true)
    (t : Word) : inClosedRange lo hi t = true ↔
      F32.isFinite t = true ∧ F32.val lo ≤ F32.val t ∧ F32.val t ≤ F32.val hi := by
  rw [inClosedRange, Bool.and_eq_true]
  constructor
  · rintro ⟨hl, hh⟩
    have hnan : F32.isNaN t = false := by
      rw [← Bool.not_eq_true]
      exact fun hn => absurd hl (by simp [F32.le_of_isNaN (.inr hn)])
    rw [F32.le_iff (F32.isNaN_of_finite hlo) hnan] at hl
    rw [F32.le_iff hnan (F32.isNaN_of_finite hhi)] at hh
    refine ⟨F32.isFinite_of_not_isInf hnan fun hinf => ?_, hl, hh⟩
    have hval := F32.val_of_isInf hinf
    have hbl := (abs_lt.1 (F32.abs_val_lt hlo)).1
    have hbh := (abs_lt.1 (F32.abs_val_lt hhi)).2
    split_ifs at hval <;> omega
  · rintro ⟨ht, hl, hh⟩
    exact ⟨(F32.le_iff_of_finite hlo ht).2 hl, (F32.le_iff_of_finite ht hhi).2 hh⟩

/-- SMOOTH of two values of a closed range stays in it; the bound on the width keeps the difference
from overflowing. -/
theorem smooth_inClosedRange (n : Nat) {lo hi p t : Word} (hlo : F32.isFinite lo = true)
    (hhi : F32.isFinite hi = true) (hwidth : F32.val hi - F32.val lo ≤ 2 ^ 256)
    (hp : inClosedRange lo hi p = true) (ht : inClosedRange lo hi t = true) :
    inClosedRange lo hi (smooth hardware n p t) = true := by
  rw [inClosedRange_iff hlo hhi] at hp ht ⊢
  obtain ⟨hpf, hpl, hph⟩ := hp
  obtain ⟨htf, htl, hth⟩ := ht
  have hdiff : |F32.val t - F32.val p| < 2 ^ 277 - 2 ^ 252 :=
    ((abs_sub_le_of_le_of_le htl hth hpl hph).trans hwidth).trans_lt
      (by rw [show 277 = 21 + 256 from rfl, pow_add]; norm_num)
  obtain ⟨hfin, hmem⟩ := smooth_between n hpf htf (F32.isFinite_fsub n htf hpf hdiff)
  rw [Set.mem_uIcc] at hmem
  exact ⟨hfin, by omega, by omega⟩

/-- The ranges of R31 are closed ranges that SMOOTH does not leave. -/
theorem smooth_legalParam (n : Nat) {k : ParamIx} {p t : Word} (hp : legalParam k p = true)
    (ht : legalParam k t = true) : legalParam k (smooth hardware n p t) = true := by
  cases k <;> exact smooth_inClosedRange n (by decide) (by decide) (by decide) hp ht

theorem legalParams_iff (p : Params) : legalParams p = true ↔
    legalParam .delayTime p.delayTime = true ∧ legalParam .dryWetMix p.dryWetMix = true ∧
    legalParam .hpfCutoff p.hpfCutoff = true ∧ legalParam .lpfCutoff p.lpfCutoff = true := by
  simp only [legalParams, Bool.and_eq_true, and_assoc]

/-- Step 2 of R215 keeps all four smoothed values legal (R144). -/
theorem smoothParams_legal (n : Nat) {sm t : Params} (hsm : legalParams sm = true)
    (ht : legalParams t = true) : legalParams (smoothParams hardware n sm t) = true := by
  rw [legalParams_iff] at hsm ht ⊢
  obtain ⟨hs0, hs1, hs2, hs3⟩ := hsm
  obtain ⟨ht0, ht1, ht2, ht3⟩ := ht
  exact ⟨smooth_legalParam n hs0 ht0, smooth_legalParam (n + 3) hs1 ht1,
    smooth_legalParam (n + 6) hs2 ht2, smooth_legalParam (n + 9) hs3 ht3⟩

/-! Every step -/

/-- PROCESS smooths only toward targets that R219 allows. -/
theorem execProcess_smoothedLegal {s t : State} (hs : State.SmoothedLegal s)
    (h : exec .process s = .next t) : State.SmoothedLegal t := by
  rcases processWith_next h with ⟨-, rfl⟩ | ⟨-, -, rfl⟩ | ⟨-, -, rfl⟩ | ⟨-, -, -, htargets, -, -, hb⟩
  · exact hs
  · exact hs
  · exact hs
  · obtain ⟨p, l, f, b, r, rfl⟩ := processBlock_frame hb
    exact smoothParams_legal s.draws hs htargets

/-- PREPARE and RELEASE do not touch the smoothers (R24, R142). -/
theorem exec_smoothedLegal {i : Instr} {s t : State} (hs : State.SmoothedLegal s)
    (h : exec i s = .next t) : State.SmoothedLegal t := by
  by_cases hsm : t.sm = s.sm
  · rw [State.SmoothedLegal, hsm]; exact hs
  · obtain ⟨rfl, -, -⟩ := exec_sm h hsm
    exact execProcess_smoothedLegal hs h

/-- Settles O33: a block smooths toward legal targets, and the reset values are legal. -/
theorem stepKeepsSmoothedValuesLegal : Obligations.StepKeepsSmoothedValuesLegal := by
  intro s t hs h
  rcases step_engine_cases h with ⟨u, rfl⟩ | ⟨rest, -, rfl⟩ | ⟨i, rest, u, -, hu, rfl⟩ | ⟨rest, rfl⟩
  · exact hs
  · exact smResetDefault_legal
  · exact exec_smoothedLegal (s := { s with host := rest }) (t := u) hs hu
  · exact hs

end Sys2Proof.Machine
end

section
/-! CLAMPFC (R153): its branches, and why a clamped cutoff lies below half the sample rate. -/

namespace Sys2Proof.Machine

/-! Normal numbers -/

/-- A number of at most 24 bits times a power of two is the value of a pattern (R110). -/
theorem F32.exists_magUnits_eq (e : Nat) {j : Nat} (hj : j ≤ 2 ^ 24) :
    ∃ m, F32.magUnits m = j * 2 ^ e := by
  induction e generalizing j with
  | zero => exact ⟨0 * 2 ^ 23 + j, F32.magUnits_grid 0 j hj (fun h => absurd h (lt_irrefl 0))⟩
  | succ e ih =>
    by_cases h : 2 ^ 23 ≤ j
    · exact ⟨(e + 1) * 2 ^ 23 + j, F32.magUnits_grid (e + 1) j hj fun _ => h⟩
    · obtain ⟨m, hm⟩ := ih (j := j * 2) (by omega)
      exact ⟨m, by rw [hm, pow_succ']; ring⟩

/-- A normal number is a significand of 24 bits times a power of two (R110). -/
theorem F32.units_of_normal {w : Word} (h : 2 ^ 23 ≤ F32.mag w) :
    ∃ f e, 2 ^ 23 ≤ f ∧ f ≤ 2 ^ 24 ∧ F32.units w = f * 2 ^ e := by
  refine ⟨2 ^ 23 + F32.mag w % 2 ^ 23, F32.mag w / 2 ^ 23 - 1, by omega, by omega, ?_⟩
  rw [F32.units_def, F32.magUnits, if_neg (by omega)]

theorem F32.val_of_neg_false {w : Word} (h : F32.neg w = false) : F32.val w = F32.units w := by
  rw [F32.val, h, if_neg Bool.false_ne_true]

/-- A positive value that is not subnormal has a positive sign and an exponent above 0. -/
theorem F32.normal_of_pos {w : Word} (hsub : F32.isSubnormal w = false)
    (hpos : F32.fgt hardware w F32.zero = true) (hfin : F32.isFinite w = true) :
    F32.neg w = false ∧ 2 ^ 23 ≤ F32.mag w := by
  rw [F32.fgt, F32.flt_hardware, F32.lt_iff_of_finite (by decide) hfin] at hpos
  have hval : 0 < F32.val w := hpos
  have hneg : F32.neg w = false := by
    rw [← Bool.not_eq_true]
    exact fun hn => absurd (F32.val_nonpos hn) (not_le.2 hval)
  have hmag : F32.mag w ≠ 0 := by
    rw [F32.val_of_neg_false hneg] at hval
    intro h0
    rw [F32.units_def, h0] at hval
    exact absurd hval (by decide)
  refine ⟨hneg, ?_⟩
  rw [F32.isSubnormal, Bool.and_eq_false_iff, decide_eq_false_iff_not, decide_eq_false_iff_not] at hsub
  omega

/-! The upper bound `hi` -/

/-- `FC_HI_RATIO` in units of 2^-149 (R153). -/
theorem units_fcHiRatio : F32.units hardware.fcHiRatio = 16441672 * 2 ^ 124 := by decide

/-- Between 0.49 times a normal rate and half of it there is a binary32 value. -/
theorem exists_between_fcHiRatio_and_half {fs : Word} (h : 2 ^ 23 ≤ F32.mag fs) :
    ∃ m, F32.units hardware.fcHiRatio * F32.units fs ≤ F32.magUnits m * 2 ^ 149 ∧
      2 * F32.magUnits m < F32.units fs := by
  obtain ⟨f, e, hlo, hhi, hunits⟩ := F32.units_of_normal h
  obtain ⟨m, hm⟩ := F32.exists_magUnits_eq e (j := (f - 1) / 2) (by omega)
  have hpow : 0 < 2 ^ e := by positivity
  refine ⟨m, ?_, ?_⟩
  · rw [units_fcHiRatio, hunits, hm]
    calc 16441672 * 2 ^ 124 * (f * 2 ^ e) = 16441672 * f * (2 ^ 124 * 2 ^ e) := by ring
      _ ≤ (f - 1) / 2 * 2 ^ 25 * (2 ^ 124 * 2 ^ e) := Nat.mul_le_mul_right _ (by omega)
      _ = (f - 1) / 2 * 2 ^ e * 2 ^ 149 := by ring
  · rw [hunits, hm, ← Nat.mul_assoc]
    exact Nat.mul_lt_mul_of_pos_right (by omega) hpow

/-- For a normal rate above 0 the upper bound `hi` is finite, above 0 and below half the rate (R153). -/
theorem upperCutoff_between (n : Nat) {fs : Word} (hfin : F32.isFinite fs = true)
    (hneg : F32.neg fs = false) (hnormal : 2 ^ 23 ≤ F32.mag fs) :
    F32.isFinite (F32.fmul hardware n hardware.fcHiRatio fs) = true ∧
    0 < F32.val (F32.fmul hardware n hardware.fcHiRatio fs) ∧
    2 * F32.val (F32.fmul hardware n hardware.fcHiRatio fs) < F32.val fs := by
  obtain ⟨hmag, hsign⟩ := F32.mul_bits (n := n) (a := hardware.fcHiRatio) (by decide) hfin
  obtain ⟨m, hbelow, habove⟩ := exists_between_fcHiRatio_and_half hnormal
  have hm : m < F32.infMag := by
    have := F32.units_lt_of_finite hfin
    rw [← F32.magUnits_lt_iff, F32.magUnits_inf]
    omega
  have hle : F32.mag (F32.mul n hardware.fcHiRatio fs) ≤ m :=
    hmag.trans_le (F32.roundMag_le (by positivity) hm.le hbelow)
  have hge : 1 ≤ F32.mag (F32.mul n hardware.fcHiRatio fs) := by
    have hfs : F32.magUnits (2 ^ 23) ≤ F32.units fs := F32.magUnits_le_iff.2 hnormal
    rw [hmag]
    refine F32.le_roundMag (by positivity) (by decide) ?_
    rw [units_fcHiRatio]
    exact (by decide : F32.magUnits 1 * 2 ^ 149 ≤ 16441672 * 2 ^ 124 * F32.magUnits (2 ^ 23)).trans
      (Nat.mul_le_mul_left _ hfs)
  have hunits_le := F32.magUnits_le_iff.2 hle
  have hunits_pos := F32.magUnits_lt_of_lt hge
  rw [← F32.units_def] at hunits_le hunits_pos
  rw [hneg, show F32.neg hardware.fcHiRatio = false by decide] at hsign
  rw [F32.fmul_hardware, F32.isFinite_iff, F32.val_of_neg_false hsign, F32.val_of_neg_false hneg]
  rw [F32.magUnits_zero] at hunits_pos
  exact ⟨hle.trans_lt hm, by omega, by omega⟩

/-! CLAMPFC -/

theorem clampFc_of_le {cfg : Config} {n : Nat} {fc fs : Word} (hlo : F32.fle cfg cfg.fcLo fc = true) :
    clampFc cfg n fc fs = if F32.fle cfg fc (F32.fmul cfg n cfg.fcHiRatio fs) then fc
      else F32.fmul cfg n cfg.fcHiRatio fs := by
  simp [clampFc, F32.fge, hlo]

theorem clampFc_of_not_le {cfg : Config} {n : Nat} {fc fs : Word}
    (hlo : F32.fle cfg cfg.fcLo fc = false) :
    clampFc cfg n fc fs =
      if F32.fle cfg cfg.fcLo (F32.fmul cfg n cfg.fcHiRatio fs) then cfg.fcLo
      else F32.fmul cfg n cfg.fcHiRatio fs := by
  simp [clampFc, F32.fge, hlo]

/-- CLAMPFC gives `hi` or a value from 20.0 to `hi` (R153). -/
theorem clampFc_eq_upper_or_inRange (n : Nat) (fc fs : Word) :
    clampFc hardware n fc fs = F32.fmul hardware n hardware.fcHiRatio fs ∨
    inClosedRange hardware.fcLo (F32.fmul hardware n hardware.fcHiRatio fs)
      (clampFc hardware n fc fs) = true := by
  simp only [inClosedRange, Bool.and_eq_true, ← F32.fle_hardware]
  cases hlo : F32.fle hardware hardware.fcLo fc with
  | true =>
    rw [clampFc_of_le hlo]
    split_ifs with hhi
    · exact .inr ⟨hlo, hhi⟩
    · exact .inl rfl
  | false =>
    rw [clampFc_of_not_le hlo]
    split_ifs with hhi
    · exact .inr ⟨by decide, hhi⟩
    · exact .inl rfl

/-- Settles O43: the result is at most `hi`, and a binary32 value stands between `hi` and half the rate. -/
theorem clampedCutoffIsBelowNyquist : Obligations.ClampedCutoffIsBelowNyquist := by
  refine ⟨fun n fc fs => ⟨fun hlo hhi => ?_, fun hlo hhi => ?_, fun hlo hhi => ?_, fun hlo hhi => ?_,
    fun hnan => ?_⟩, fun n fc fs hfin hsub hpos => ?_⟩
  · exact (clampFc_of_le hlo).trans (if_pos hhi)
  · exact (clampFc_of_le hlo).trans (if_neg (ne_true_of_eq_false hhi))
  · exact (clampFc_of_not_le hlo).trans (if_pos hhi)
  · exact (clampFc_of_not_le hlo).trans (if_neg (ne_true_of_eq_false hhi))
  · rw [F32.fle_hardware]
    exact F32.le_of_isNaN (.inr hnan)
  · obtain ⟨hneg, hnormal⟩ := F32.normal_of_pos hsub hpos hfin
    obtain ⟨hhi, hhi0, hhalf⟩ := upperCutoff_between n hfin hneg hnormal
    rcases clampFc_eq_upper_or_inRange n fc fs with heq | hmem
    · rw [heq]
      exact ⟨hhi, hhi0, hhalf⟩
    · obtain ⟨hfc, hlow, hhigh⟩ := (inClosedRange_iff (by decide) hhi _).1 hmem
      have hlo0 : 0 < F32.val hardware.fcLo := by decide
      exact ⟨hfc, by omega, by omega⟩

end Sys2Proof.Machine
end

section
/-! COEF and CONFIGURE (R151, R155, R156, R162). -/

namespace Sys2Proof.Machine

/-- Settles O44: each pair is one formula (R155, R156). -/
theorem coefficientSymmetries : Obligations.CoefficientSymmetries := by
  intro st fc q fs
  refine ⟨?_, rfl, rfl⟩
  cases st with
  | highPass => rfl
  | lowPass => rfl

@[simp] theorem PerStage.get_set_self {α : Type} (f : PerStage α) (st : Stage) (v : α) :
    PerStage.get (PerStage.set f st v) st = v := by
  cases st <;> rfl

theorem PerStage.get_set_other {α : Type} (f : PerStage α) {st st' : Stage} (v : α) (h : st' ≠ st) :
    PerStage.get (PerStage.set f st v) st' = PerStage.get f st' := by
  match st, st', h with
  | .highPass, .lowPass, _ => rfl
  | .lowPass, .highPass, _ => rfl

/-- Settles O46: CONFIGURE is one write of the register file `CF`. -/
theorem configureWritesOneCoefficientSet : Obligations.ConfigureWritesOneCoefficientSet := by
  intro cfg n st fc s
  exact ⟨PerStage.get_set_self s.cf st _, fun st' h => PerStage.get_set_other s.cf _ h, rfl⟩

end Sys2Proof.Machine
end

section
/-! BIQUAD, FILTER and CHAIN (R158 to R160). -/

namespace Sys2Proof.Machine

/-! Silence -/

/-- Two zeros add to a zero (R115). -/
theorem F32.isZero_fadd (n : Nat) {a b : Word} (ha : F32.isZero a = true) (hb : F32.isZero b = true) :
    F32.isZero (F32.fadd hardware n a b) = true := by
  have hsum : F32.val a + F32.val b = 0 := by
    rw [(F32.isZero_iff_val a).1 ha, (F32.isZero_iff_val b).1 hb, add_zero]
  rw [F32.fadd_hardware,
    F32.add_of_val_eq_zero (F32.isFinite_of_isZero ha) (F32.isFinite_of_isZero hb) hsum, F32.isZero_def,
    F32.mag_ofMag (by norm_num)]
  rfl

/-- A zero minus a zero is a zero (R115). -/
theorem F32.isZero_fsub (n : Nat) {a b : Word} (ha : F32.isZero a = true) (hb : F32.isZero b = true) :
    F32.isZero (F32.fsub hardware n a b) = true :=
  F32.isZero_fadd n ha (by rwa [F32.isZero_def, F32.mag_negate])

/-- A finite value times a zero is a zero (R115). -/
theorem F32.isZero_fmul (n : Nat) {a b : Word} (ha : F32.isFinite a = true) (hb : F32.isZero b = true) :
    F32.isZero (F32.fmul hardware n a b) = true := by
  rw [F32.fmul_hardware]
  exact F32.isZero_mul n ha (F32.isFinite_of_isZero hb) (.inr hb)

/-- Settles O47: the five products are zeros, and so are their sums and differences. -/
theorem silenceStaysSilence : Obligations.SilenceStaysSilence := by
  intro n k h x hb0 hb1 hb2 ha1 ha2 hx1 hx2 hy1 hy2 hx
  have t0 := F32.isZero_fmul n hb0 hx
  have t1 := F32.isZero_fmul (n + 1) hb1 hx1
  have t2 := F32.isZero_fmul (n + 2) hb2 hx2
  have t3 := F32.isZero_fmul (n + 3) ha1 hy1
  have t4 := F32.isZero_fmul (n + 4) ha2 hy2
  have hforward := F32.isZero_fadd (n + 6) (F32.isZero_fadd (n + 5) t0 t1) t2
  exact F32.isZero_fsub (n + 8) (F32.isZero_fsub (n + 7) hforward t3) t4

/-! FILTER over a block cut in two -/

/-- FILTER over `n1 + n2` samples is FILTER over `n1` and then over `n2` (R159). -/
theorem filterLoop_add (cfg : Config) (k : Coefs) (c : Channel) (n1 n2 n i : Nat) (buf : Memory)
    (h : History) :
    filterLoop cfg k c (n1 + n2) n i buf h =
      filterLoop cfg k c n2 (n + 10 * n1) (i + n1)
        (filterLoop cfg k c n1 n i buf h).1 (filterLoop cfg k c n1 n i buf h).2 := by
  induction n1 generalizing n i buf h with
  | zero => rw [Nat.zero_add]; rfl
  | succ n1 ih =>
    rw [Nat.succ_add, filterLoop_succ, filterLoop_succ, ih,
      show n + 10 + 10 * n1 = n + 10 * (n1 + 1) by ring, show i + 1 + n1 = i + (n1 + 1) by ring]

/-- Settles O48, by induction on the number of samples before the cut. -/
theorem filterMayBeSplitAtAnySample : Obligations.FilterMayBeSplitAtAnySample :=
  ⟨fun _ _ _ _ _ _ _ => rfl, filterLoop_zero, filterLoop_add⟩

/-! Channels -/

/-- Two states that a channel's filters cannot tell apart: the same coefficients, the same histories of
the channel, the same bytes in its block of `count` samples (R159). -/
structure State.SameChannel (cfg : Config) (c : Channel) (count : Nat) (s s' : State) : Prop where
  cf : s.cf = s'.cf
  history : ∀ st, State.history s st c = State.history s' st c
  buf : ∀ a, bufAddr cfg c 0 ≤ a → a < bufAddr cfg c count → Memory.get s.buf a = Memory.get s'.buf a

/-- The samples of the block read the same. -/
theorem State.SameChannel.getWord_eq {cfg : Config} {c : Channel} {count : Nat} {s s' : State}
    (h : State.SameChannel cfg c count s s') (n : Nat) {i : Nat} (hi : i < count) :
    Memory.getWord s.buf n (bufAddr cfg c i) = Memory.getWord s'.buf n (bufAddr cfg c i) := by
  have ei := bufAddr_eq cfg c i
  have ec := bufAddr_eq cfg c count
  exact Memory.getWord_congr _ _ fun k hk => h.buf _ (by omega) (by omega)

theorem State.SameChannel.trans {cfg : Config} {c : Channel} {count : Nat} {s s' s'' : State}
    (h : State.SameChannel cfg c count s s') (h' : State.SameChannel cfg c count s' s'') :
    State.SameChannel cfg c count s s'' where
  cf := h.cf.trans h'.cf
  history st := (h.history st).trans (h'.history st)
  buf a h1 h2 := (h.buf a h1 h2).trans (h'.buf a h1 h2)

/-- FILTER on a channel gives the same on states which are the same to that channel. -/
theorem State.SameChannel.filterStage {cfg : Config} {c : Channel} {count : Nat} {s s' : State}
    (h : State.SameChannel cfg c count s s') (n : Nat) (st : Stage) :
    State.SameChannel cfg c count (filterStage cfg n st c count s) (filterStage cfg n st c count s') := by
  have hloop := filterLoop_congr cfg (PerStage.get s.cf st) c (i := 0) n (State.history s st c)
    (by simpa only [Nat.zero_add] using h.buf)
  rw [Nat.zero_add] at hloop
  obtain ⟨hhist, hbuf⟩ := hloop
  refine ⟨h.cf, fun st' => ?_, fun a h1 h2 => ?_⟩
  · by_cases hst : st' = st
    · rw [hst, filterStage_history_self, filterStage_history_self, ← h.cf, ← h.history, hhist]
    · rw [filterStage_history_other _ _ _ _ _ _ _ _ (.inr hst),
        filterStage_history_other _ _ _ _ _ _ _ _ (.inr hst), h.history]
  · rw [filterStage_buf, filterStage_buf, ← h.cf, ← h.history]
    exact hbuf a h1 h2

/-- The blocks of two channels of at most `BLOCK_MAX` samples do not overlap (R64). -/
theorem bufAddr_disjoint (cfg : Config) {c c' : Channel} (hc : c ≠ c') {count : Nat}
    (hcount : count ≤ cfg.blockMax) :
    bufAddr cfg c count ≤ bufAddr cfg c' 0 ∨ bufAddr cfg c' count ≤ bufAddr cfg c 0 :=
  match c, c', hc with
  | .left, .right, _ => .inl (bufAddr_left_le_right cfg hcount 0)
  | .right, .left, _ => .inr (bufAddr_left_le_right cfg hcount 0)

/-- FILTER on another channel leaves the state the same to a channel (R160). -/
theorem filterStage_sameChannel (cfg : Config) (n : Nat) (st : Stage) {c c' : Channel} (hc : c ≠ c')
    {count : Nat} (hcount : count ≤ cfg.blockMax) (s : State) :
    State.SameChannel cfg c count (filterStage cfg n st c' count s) s where
  cf := rfl
  history st' := filterStage_history_other _ _ _ _ _ _ _ _ (.inl hc)
  buf a h1 h2 := by
    have hdisjoint := bufAddr_disjoint cfg hc hcount
    have hend := bufAddr_eq cfg c' count
    exact filterStage_get_outside _ _ _ _ _ (by omega)

/-- CHAIN of one channel: the high-pass stage over the block, then the low-pass stage (R160). -/
def chainOne (cfg : Config) (count : Nat) (c : Channel) (n : Nat) (s : State) : State :=
  filterStage cfg (n + 10 * count) .lowPass c count (filterStage cfg n .highPass c count s)

theorem chainLoop_both (cfg : Config) (count n : Nat) (s : State) :
    chainLoop cfg count [.left, .right] n s =
      chainOne cfg count .right (n + 20 * count) (chainOne cfg count .left n s) := rfl

theorem State.SameChannel.chainOne {cfg : Config} {c : Channel} {count : Nat} {s s' : State}
    (h : State.SameChannel cfg c count s s') (n : Nat) :
    State.SameChannel cfg c count (chainOne cfg count c n s) (chainOne cfg count c n s') :=
  (h.filterStage n .highPass).filterStage (n + 10 * count) .lowPass

theorem chainOne_sameChannel (cfg : Config) {c c' : Channel} (hc : c ≠ c') {count : Nat}
    (hcount : count ≤ cfg.blockMax) (n : Nat) (s : State) :
    State.SameChannel cfg c count (chainOne cfg count c' n s) s :=
  (filterStage_sameChannel cfg _ .lowPass hc hcount _).trans
    (filterStage_sameChannel cfg _ .highPass hc hcount s)

/-- CHAIN of both channels is to each channel what CHAIN of that channel alone is (R160). -/
theorem chainLoop_both_sameChannel (cfg : Config) {count : Nat} (hcount : count ≤ cfg.blockMax) (n : Nat)
    (s : State) :
    State.SameChannel cfg .left count (chainLoop cfg count [.left, .right] n s)
      (chainOne cfg count .left n s) ∧
    State.SameChannel cfg .right count (chainLoop cfg count [.left, .right] n s)
      (chainOne cfg count .right (n + 20 * count) s) := by
  rw [chainLoop_both]
  exact ⟨chainOne_sameChannel cfg (by decide) hcount _ _,
    (chainOne_sameChannel cfg (by decide) hcount n s).chainOne (n + 20 * count)⟩

/-- Settles O49: FILTER writes one history and its own block, so that CHAIN of both channels is to each
channel what CHAIN of that channel alone is. -/
theorem channelsAreFilteredIndependently : Obligations.ChannelsAreFilteredIndependently := by
  refine ⟨fun cfg n st c count s => ?_, fun cfg count n s hcount => ?_⟩
  · refine ⟨by cases st <;> rfl, ?_, fun st' c' h => filterStage_history_other _ _ _ _ _ _ _ _ h.symm, rfl⟩
    rw [filterStage_history_self]
    cases st <;> rfl
  · obtain ⟨hleft, hright⟩ := chainLoop_both_sameChannel cfg hcount n s
    exact ⟨fun i n' hi => ⟨hleft.getWord_eq n' hi, hright.getWord_eq n' hi⟩,
      fun st => ⟨hleft.history st, hright.history st⟩⟩

end Sys2Proof.Machine
end

section
/-! MAPDELAY (R180 to R185, R196). -/

namespace Sys2Proof.Machine

/-! Polarity (R182) -/

/-- At most one of `a < b` and `b < a` holds. -/
theorem F32.lt_asymm {a b : Word} (h : F32.lt a b = true) : F32.lt b a = false := by
  simp only [F32.lt, Bool.and_eq_true, Bool.and_eq_false_iff, decide_eq_true_eq,
    decide_eq_false_iff_not] at h ⊢
  exact .inr (by omega)

/-- A zero of either sign and a NaN are neither below nor above zero. -/
theorem delaySelected_eq_false (c : Channel) {dt : Word} (h : F32.isZero dt = true ∨ F32.isNaN dt = true) :
    delaySelected hardware c dt = false := by
  have hboth : F32.lt dt F32.zero = false ∧ F32.lt F32.zero dt = false := by
    rcases h with hz | hn
    · have hdt : F32.isNaN dt = false := F32.isNaN_of_finite (F32.isFinite_of_isZero hz)
      have hval : F32.val dt = F32.val F32.zero := (F32.isZero_iff_val dt).1 hz
      constructor
      · rw [← Bool.not_eq_true, F32.lt_iff hdt (by decide), hval]; exact lt_irrefl _
      · rw [← Bool.not_eq_true, F32.lt_iff (by decide) hdt, hval]; exact lt_irrefl _
    · exact ⟨F32.lt_of_isNaN (.inl hn), F32.lt_of_isNaN (.inr hn)⟩
  cases c with
  | left => rw [delaySelected, F32.flt_hardware]; exact hboth.1
  | right => rw [delaySelected, F32.fgt, F32.flt_hardware]; exact hboth.2

/-- The polarity selects at most one channel (R183). -/
theorem delaySelected_right_of_left {dt : Word} (h : delaySelected hardware .left dt = true) :
    delaySelected hardware .right dt = false := by
  rw [delaySelected, F32.flt_hardware] at h
  rw [delaySelected, F32.fgt, F32.flt_hardware]
  exact F32.lt_asymm h

theorem mapDelay_of_selected {cfg : Config} {c : Channel} {dt : Word} (h : delaySelected cfg c dt = true)
    (n : Nat) (ms fs : Word) : mapDelay cfg n c dt ms fs = delayLen cfg n dt ms fs :=
  if_pos h

theorem mapDelay_of_not_selected {cfg : Config} {c : Channel} {dt : Word}
    (h : delaySelected cfg c dt = false) (n : Nat) (ms fs : Word) :
    mapDelay cfg n c dt ms fs = some 0 :=
  if_neg (by rw [h]; decide)

/-- Settles O51: MAPDELAY is its polarity test, which no zero and no NaN passes, and which passes one
channel at most. -/
theorem delayFollowsPolarity : Obligations.DelayFollowsPolarity := by
  intro n m dt maxMs fs
  refine ⟨rfl, rfl, fun h => ?_, ?_⟩
  · exact ⟨mapDelay_of_not_selected (delaySelected_eq_false .left h) n maxMs fs,
      mapDelay_of_not_selected (delaySelected_eq_false .right h) n maxMs fs⟩
  · cases hleft : delaySelected hardware .left dt with
    | false => exact .inl (mapDelay_of_not_selected hleft n maxMs fs)
    | true => exact .inr (mapDelay_of_not_selected (delaySelected_right_of_left hleft) m maxMs fs)

/-! The primitives of R117 and R118 -/

/-- `fabs` clears bit 31 (R117). -/
theorem F32.fabs_eq_and (w : Word) : F32.fabs w = w &&& 0x7FFFFFFF#32 := by
  apply BitVec.eq_of_toNat_eq
  have hmod : w.toNat &&& (2 ^ 31 - 1) = w.toNat % 2 ^ 31 := Nat.and_two_pow_sub_one_eq_mod _ _
  rw [BitVec.toNat_and, BitVec.toNat_ofNat, show 0x7FFFFFFF % 2 ^ 32 = 2 ^ 31 - 1 from rfl, hmod, F32.fabs,
    F32.ofMag, BitVec.toNat_ofNat, F32.mag, if_neg (by decide)]
  omega

/-- `floor_u32` has a value exactly on the finite words of `[0, 2^32)`, zeros of either sign included, and
that value is the floor (R118). -/
theorem F32.floorU32_eq_some_iff (w : Word) (k : Nat) :
    F32.floorU32 w = some k ↔
      F32.isFinite w = true ∧ k < 2 ^ 32 ∧
      (k : Int) * 2 ^ 149 ≤ F32.val w ∧ F32.val w < ((k : Int) + 1) * 2 ^ 149 := by
  rw [F32.floorU32]
  cases hf : F32.isFinite w with
  | false => simp
  | true =>
    cases hs : F32.neg w && !F32.isZero w with
    | true =>
      rw [Bool.and_eq_true, Bool.not_eq_true', F32.isZero_eq_false_iff_val] at hs
      have hneg := F32.val_nonpos hs.1
      simp only [Bool.not_true, Bool.false_eq_true, if_false, if_true, reduceCtorEq, false_iff]
      omega
    | false =>
      have hval : F32.val w = F32.units w := by
        rw [Bool.and_eq_false_iff, Bool.not_eq_false'] at hs
        have habs := F32.natAbs_val w
        rcases hs with hs | hs
        · have := F32.val_nonneg hs; omega
        · have := (F32.isZero_iff_val w).1 hs; omega
      have hdiv : F32.units w / 2 ^ 149 = k ↔
          k * 2 ^ 149 ≤ F32.units w ∧ F32.units w < (k + 1) * 2 ^ 149 := by omega
      simp only [Bool.not_true, Bool.false_eq_true, if_false, true_and, hval]
      split_ifs with hlt
      · rw [Option.some.injEq]; omega
      · simp only [false_iff]; omega

/-! DELAYLEN as a function of the magnitude of `dt` (R181, R184) -/

/-- The effective time of R181: the maximum delay times `|dt| / 17.5`. -/
def effectiveMs (n : Nat) (dt ms : Word) : Word := F32.mul (n + 1) (F32.div n (F32.fabs dt) F32.dtFull) ms

theorem delayLen_eq_floorU32 (n : Nat) (dt ms fs : Word) :
    delayLen hardware n dt ms fs = F32.floorU32 (samplesOf (n + 3) (n + 2) (effectiveMs n dt ms) fs) :=
  delayLen_samplesOf n dt ms fs

theorem F32.isFinite_of_mag_le {a b : Word} (h : F32.mag a ≤ F32.mag b) (hb : F32.isFinite b = true) :
    F32.isFinite a = true :=
  (F32.isFinite_iff a).2 (h.trans_lt (F32.mag_of_finite hb))

section
variable {ms fs : Word} (hms : F32.isFinite ms = true) (hms0 : F32.flt hardware ms F32.zero = false)
include hms hms0

/-- The effective time of a finite `dt` has no sign unless it is zero, and is no NaN. -/
theorem effectiveMs_sign (n : Nat) {dt : Word} (hdt : F32.isFinite dt = true) :
    F32.isNaN (effectiveMs n dt ms) = false ∧
      (F32.neg (effectiveMs n dt ms) = false ∨ F32.mag (effectiveMs n dt ms) = 0) := by
  obtain ⟨hnan, hsign, -⟩ := effMs_bits (n := n) (k := n + 1) hdt hms (maxMs_nonneg hms hms0)
  exact ⟨hnan, hsign⟩

/-- The effective time grows with `|dt|`, because both of its roundings are monotone. -/
theorem effectiveMs_mono (n m : Nat) {dt dt' : Word} (hle : F32.mag dt ≤ F32.mag dt')
    (hdt' : F32.isFinite dt' = true) :
    F32.mag (effectiveMs m dt ms) ≤ F32.mag (effectiveMs n dt' ms) := by
  have hs := maxMs_nonneg hms hms0
  obtain ⟨-, -, hmag⟩ := effMs_bits (n := m) (k := m + 1) (F32.isFinite_of_mag_le hle hdt') hms hs
  obtain ⟨-, -, hmag'⟩ := effMs_bits (n := n) (k := n + 1) hdt' hms hs
  have hfull : 0 < F32.units F32.dtFull := by decide +kernel
  have hscale : F32.roundMag (F32.units dt * 2 ^ 149) (F32.units F32.dtFull) ≤
      F32.roundMag (F32.units dt' * 2 ^ 149) (F32.units F32.dtFull) :=
    F32.roundMag_mono hfull hfull
      (Nat.mul_le_mul_right _ (Nat.mul_le_mul_right _ (F32.magUnits_le_iff.2 hle)))
  rw [effectiveMs, effectiveMs, hmag, hmag']
  exact F32.roundMag_mono (by positivity) (by positivity)
    (Nat.mul_le_mul_right _ (Nat.mul_le_mul_right _ (F32.magUnits_le_iff.2 hscale)))

variable (hfs : F32.isFinite fs = true) (hfs0 : F32.fgt hardware fs F32.zero = true)
include hfs hfs0

/-- DELAYLEN is monotone in `|dt|` (R184): the sample count is monotone in the effective time. -/
theorem delayLen_mono {n m len : Nat} {dt dt' : Word} (hle : F32.mag dt ≤ F32.mag dt')
    (hdt' : F32.isFinite dt' = true) (h : delayLen hardware n dt' ms fs = some len) :
    ∃ len', delayLen hardware m dt ms fs = some len' ∧ len' ≤ len := by
  obtain ⟨hfn, hfp⟩ := rate_pos hfs hfs0
  obtain ⟨-, hsign⟩ := effectiveMs_sign hms hms0 m (F32.isFinite_of_mag_le hle hdt')
  obtain ⟨hnan', hsign'⟩ := effectiveMs_sign hms hms0 n hdt'
  rw [delayLen_eq_floorU32] at h
  rw [delayLen_eq_floorU32]
  obtain ⟨len', hlen', hlele, -⟩ :=
    samplesOf_mono hnan' hfs hfn hfp (effectiveMs_mono hms hms0 n m hle hdt') hsign hsign' h
  exact ⟨len', hlen', hlele⟩

/-- At full scale the effective time is the maximum delay, so that DELAYLEN and PREPARE count the samples
of one time (R184, R212); a count exists for both or for neither. -/
theorem delayLen_fullScale (n m : Nat) {dt : Word} (hdt : F32.mag dt = F32.mag 0x418C0000#32) :
    delayLen hardware n dt ms fs = capacityOf hardware m ms fs := by
  obtain ⟨hfn, hfp⟩ := rate_pos hfs hfs0
  have hms' := maxMs_nonneg hms hms0
  obtain ⟨hnan, hsign⟩ := effectiveMs_sign hms hms0 n (F32.isFinite_of_mag_le hdt.le (by decide))
  have hmag : F32.mag (effectiveMs n dt ms) = F32.mag ms := effMs_full hdt hms hms'
  rw [delayLen_eq_floorU32, capacityOf_samplesOf]
  refine Option.ext fun len => ⟨fun h => ?_, fun h => ?_⟩
  · obtain ⟨l, hl, -, heq⟩ := samplesOf_mono hnan hfs hfn hfp hmag.ge hms' hsign h
    rw [hl, heq hmag.symm]
  · obtain ⟨l, hl, -, heq⟩ :=
      samplesOf_mono (F32.isNaN_of_finite hms) hfs hfn hfp hmag.le hsign hms' h
    rw [hl, heq hmag]

end

/-- Settles O52: the four operations are DELAYLEN's own; at full scale `|dt| / 17.5` is one. -/
theorem fullScaleDelayIsTheMaximum : Obligations.FullScaleDelayIsTheMaximum :=
  ⟨fun _ _ _ _ => rfl, F32.fabs_eq_and, F32.floorU32_eq_some_iff,
    fun n m _ _ _ hdt hms hms0 hfs hfs0 => delayLen_fullScale hms hms0 hfs hfs0 n m hdt⟩

/-- Settles O53: every rounding of DELAYLEN is monotone. -/
theorem delayLengthIsMonotone : Obligations.DelayLengthIsMonotone :=
  fun _ _ _ _ _ _ _ hle hdt' hms hms0 hfs hfs0 h => delayLen_mono hms hms0 hfs hfs0 hle hdt' h

/-! The capacity (R196) -/

/-- A legal delay time is at most full scale (R31). -/
theorem mag_le_of_legal_delayTime {dt : Word} (h : legalParam .delayTime dt = true) :
    F32.mag dt ≤ F32.mag 0x418C0000#32 := by
  obtain ⟨-, hlo, hhi⟩ := (inClosedRange_iff (by decide) (by decide) dt).1 h
  have habs := F32.natAbs_val dt
  have hfull := F32.natAbs_val 0x418C0000#32
  have hopp : F32.val 0xC18C0000#32 = -F32.val 0x418C0000#32 := by decide +kernel
  exact F32.magUnits_le_iff.1 (show F32.units dt ≤ F32.units 0x418C0000#32 by omega)

/-- Settles O54: a delayed channel's length is at most that of full scale, which is the capacity. -/
theorem delayNeverExceedsTheCapacity : Obligations.DelayNeverExceedsTheCapacity := by
  intro n m cap c dt maxMs fs hdt hms hms0 hfs hfs0 hcap
  cases hsel : delaySelected hardware c dt with
  | false => exact ⟨0, mapDelay_of_not_selected hsel n maxMs fs, Nat.zero_le cap⟩
  | true =>
    rw [mapDelay_of_selected hsel]
    have hfull : delayLen hardware m 0x418C0000#32 maxMs fs = some cap :=
      (delayLen_fullScale hms hms0 hfs hfs0 m m rfl).trans hcap
    exact delayLen_mono hms hms0 hfs hfs0 (mag_le_of_legal_delayTime hdt) (by decide) hfull

end Sys2Proof.Machine
end

section
/-! DELAYMIX over a block (R190 to R195): what it writes, and what each sample reads. -/

namespace Sys2Proof.Machine

/-! Positions -/

/-- Fewer than `C` samples apart, two samples are written at different positions (R191). -/
theorem writeIndex_ne {cap i j : Nat} (w : Nat) (hij : i < j) (hj : j < i + cap) :
    writeIndex cap w i ≠ writeIndex cap w j := by
  intro h
  have hdvd : cap ∣ (w + j) - (w + i) := (Nat.modEq_iff_dvd' (by omega)).1 h
  have hle : cap ≤ (w + j) - (w + i) := Nat.le_of_dvd (by omega) hdvd
  omega

/-- Sample `i` reads where sample `i + (C - d)` would be written: `C - d` ahead is `d` behind (R191). -/
theorem readIndex_writeIndex (cap w i d : Nat) :
    readIndex cap (writeIndex cap w i) d = writeIndex cap w (i + (cap - d)) := by
  rw [readIndex, writeIndex, Nat.mod_add_mod, Nat.add_assoc, writeIndex]

/-- Sample `i` reads where sample `i - d` was written, if the block has such a sample (R191). -/
theorem readIndex_writeIndex_of_le {cap d i : Nat} (w : Nat) (hd : d ≤ cap) (hi : d ≤ i) :
    readIndex cap (writeIndex cap w i) d = writeIndex cap w (i - d) := by
  rw [readIndex_writeIndex, show i + (cap - d) = i - d + cap by omega, writeIndex, ← Nat.add_assoc,
    Nat.add_mod_right, writeIndex]

/-- With `d = C` a sample reads where it is written (R195). -/
theorem readIndex_fullCapacity (cap w i : Nat) :
    readIndex cap (writeIndex cap w i) cap = writeIndex cap w i := by
  rw [readIndex_writeIndex, Nat.sub_self, Nat.add_zero]

section
variable {cfg : Config} {c : Channel} {cap w d n n' : Nat} {m : Word} {buf ring : Memory}

/-! A block cut in two -/

theorem delayLoop_zero (i : Nat) :
    delayLoop cfg c cap w d m 0 n i buf ring = (buf, ring) := rfl

/-- DELAYMIX over `n1 + n2` samples is DELAYMIX over `n1` and then over `n2`. -/
theorem delayLoop_add (n1 n2 i : Nat) :
    delayLoop cfg c cap w d m (n1 + n2) n i buf ring =
      delayLoop cfg c cap w d m n2 (n + 6 * n1) (i + n1)
        (delayLoop cfg c cap w d m n1 n i buf ring).1 (delayLoop cfg c cap w d m n1 n i buf ring).2 := by
  induction n1 generalizing n i buf ring with
  | zero => rw [Nat.zero_add]; rfl
  | succ n1 ih =>
    rw [Nat.succ_add, delayLoop_succ, delayLoop_succ, ih,
      show n + 6 + 6 * n1 = n + 6 * (n1 + 1) by ring, show i + 1 + n1 = i + (n1 + 1) by ring]

/-! What it leaves alone -/

/-- DELAYMIX writes the words of its block only. -/
theorem delayLoop_buf_get_outside {count i a : Nat}
    (h : a < bufAddr cfg c i ∨ bufAddr cfg c (i + count) ≤ a) :
    Memory.get (delayLoop cfg c cap w d m count n i buf ring).1 a = Memory.get buf a := by
  induction count generalizing n i buf ring with
  | zero => rfl
  | succ count ih =>
    have e1 := bufAddr_eq cfg c i
    have e2 := bufAddr_eq cfg c (i + 1)
    have e3 := bufAddr_eq cfg c (i + 1 + count)
    have e4 := bufAddr_eq cfg c (i + (count + 1))
    rw [delayLoop_succ, ih (by omega), Memory.get_setWord_outside _ _ (by omega)]

/-- A ring byte outside the write positions of the block's samples stays. -/
theorem delayLoop_ring_get_outside {count i a : Nat}
    (h : ∀ k, i ≤ k → k < i + count →
      a < ringAddr cfg c (writeIndex cap w k) ∨ ringAddr cfg c (writeIndex cap w k) + 4 ≤ a) :
    Memory.get (delayLoop cfg c cap w d m count n i buf ring).2 a = Memory.get ring a := by
  induction count generalizing n i buf ring with
  | zero => rfl
  | succ count ih =>
    rw [delayLoop_succ, ih fun k h1 h2 => h k (by omega) (by omega),
      ringStore_get_outside cfg c d _ ring (h i le_rfl (by omega))]

/-- A sample outside the block reads as it did. -/
theorem delayLoop_getWord_buf_outside {count i j : Nat} (h : j < i ∨ i + count ≤ j) :
    Memory.getWord (delayLoop cfg c cap w d m count n i buf ring).1 n' (bufAddr cfg c j) =
      Memory.getWord buf n' (bufAddr cfg c j) := by
  have ei := bufAddr_eq cfg c i
  have ej := bufAddr_eq cfg c j
  have ec := bufAddr_eq cfg c (i + count)
  exact Memory.getWord_congr _ _ fun _ _ => delayLoop_buf_get_outside (by omega)

/-- A ring position that no sample is written at reads as it did. -/
theorem delayLoop_getWord_ring_unwritten {count i j : Nat}
    (h : ∀ k, i ≤ k → k < i + count → j ≠ writeIndex cap w k) :
    Memory.getWord (delayLoop cfg c cap w d m count n i buf ring).2 n' (ringAddr cfg c j) =
      Memory.getWord ring n' (ringAddr cfg c j) := by
  refine Memory.getWord_congr _ _ fun b hb => delayLoop_ring_get_outside (fun k h1 h2 => ?_)
  have hne := h k h1 h2
  have ej := ringAddr_eq cfg c j
  have ek := ringAddr_eq cfg c (writeIndex cap w k)
  omega

/-! What one sample of a block reads and writes -/

/-- Without a delay the output is the dry sample (R194). -/
theorem mixOut_zero (dry wet : Word) : mixOut cfg n 0 dry wet m = dry := if_pos rfl

/-- With a delay the output is MIX (R193). -/
theorem mixOut_of_ne_zero (hd : d ≠ 0) (dry wet : Word) :
    mixOut cfg n d dry wet m = mix cfg n dry wet m := if_neg hd

/-- After sample `i` the buffer holds its output and the ring its dry sample (R190, R192). -/
theorem delayLoop_succ_last (i : Nat) :
    delayLoop cfg c cap w d m (i + 1) n 0 buf ring =
      (let before := delayLoop cfg c cap w d m i n 0 buf ring
       let dry := Memory.getWord buf (n + 6 * i) (bufAddr cfg c i)
       let ring' := ringStore cfg c (writeIndex cap w i) d dry before.2
       (Memory.setWord before.1 (bufAddr cfg c i) (mixOut cfg (n + 6 * i + 2) d dry
          (Memory.getWord ring' (n + 6 * i + 1) (ringAddr cfg c (readIndex cap (writeIndex cap w i) d))) m),
        ring')) := by
  rw [delayLoop_add, delayLoop_succ, delayLoop_zero, Nat.zero_add,
    delayLoop_getWord_buf_outside (.inr (Nat.zero_add i).le)]

/-- Output sample `i`: the input sample with what the ring holds at its read position once the input
samples up to `i` are stored (R190, R192). -/
theorem delayLoop_getWord_buf {i count : Nat} (hi : i < count) :
    Memory.getWord (delayLoop cfg c cap w d m count n 0 buf ring).1 n' (bufAddr cfg c i) =
      mixOut cfg (n + 6 * i + 2) d (Memory.getWord buf (n + 6 * i) (bufAddr cfg c i))
        (Memory.getWord (delayLoop cfg c cap w d m (i + 1) n 0 buf ring).2 (n + 6 * i + 1)
          (ringAddr cfg c (readIndex cap (writeIndex cap w i) d))) m := by
  obtain ⟨rest, rfl⟩ := Nat.exists_eq_add_of_le (Nat.succ_le_of_lt hi)
  rw [delayLoop_add, delayLoop_getWord_buf_outside (.inl (by omega)), delayLoop_succ_last,
    Memory.getWord_setWord_self]

/-- Where the ring is written, it holds input sample `i` at its write position until `C` samples later (R190,
R191). -/
theorem delayLoop_getWord_ring_recorded (hstore : d ≠ 0 ∨ cfg.ringWriteOnBypass = true) {i count : Nat}
    (hi : i < count) (hcap : count ≤ i + cap) :
    Memory.getWord (delayLoop cfg c cap w d m count n 0 buf ring).2 n'
        (ringAddr cfg c (writeIndex cap w i)) =
      Memory.getWord buf (n + 6 * i) (bufAddr cfg c i) := by
  obtain ⟨rest, rfl⟩ := Nat.exists_eq_add_of_le (Nat.succ_le_of_lt hi)
  rw [delayLoop_add,
    delayLoop_getWord_ring_unwritten fun k h1 h2 => writeIndex_ne w (by omega) (by omega),
    delayLoop_succ_last, ringStore_self _ _ _ _ _ _ hstore]

end

/-! The statements -/

/-- Settles O56: because `d < C`, the last sample written at the read position of sample `i` is sample `i - d`,
or none of the block if `i < d`. -/
theorem delayLineIsAShift : Obligations.DelayLineIsAShift := by
  intro cfg c cap w d count n m buf ring i n' hd hcap hi
  rw [delayLoop_getWord_buf hi, mixOut_of_ne_zero hd.ne']
  congr 1
  split_ifs with hdi
  · rw [readIndex_writeIndex_of_le w hcap.le hdi]
    exact delayLoop_getWord_ring_recorded (.inl hd.ne') (by omega) (by omega)
  · rw [readIndex_writeIndex]
    exact delayLoop_getWord_ring_unwritten fun k _ hk => (writeIndex_ne w (by omega) (by omega)).symm

/-- Settles O57: sample `i` reads the position it has just been stored at. -/
theorem fullCapacityDelayIsNoDelay : Obligations.FullCapacityDelayIsNoDelay := by
  intro cfg c cap w count n m buf ring i n' hcap hi
  rw [delayLoop_getWord_buf hi, mixOut_of_ne_zero hcap.ne', readIndex_fullCapacity,
    delayLoop_getWord_ring_recorded (.inl hcap.ne') (Nat.lt_succ_self i) (by omega)]

/-- Settles O58: without a delay MIX is not evaluated, and the default configuration stores every dry
sample. -/
theorem zeroDelayIsABypassThatStillRecords : Obligations.ZeroDelayIsABypassThatStillRecords := by
  refine ⟨fun c cap w count n m buf ring i n' _ hi => ?_, fun c cap w d count n m buf ring n' _ _ =>
    ⟨fun i hi hlast => ?_, fun j hj => ?_⟩⟩
  · rw [delayLoop_getWord_buf hi, mixOut_zero]
  · exact delayLoop_getWord_ring_recorded (.inr rfl) hi hlast
  · exact delayLoop_getWord_ring_unwritten fun k _ hk => hj k (by omega)

/-- Settles O60: every write position lies below `C`. -/
theorem delayMixStaysInItsMemories : Obligations.DelayMixStaysInItsMemories := by
  intro cfg c cap w d count n m buf ring a hcap
  refine ⟨fun h => ?_, fun h => ?_⟩
  · exact delayLoop_buf_get_outside (by rwa [Nat.zero_add])
  · refine delayLoop_ring_get_outside (fun k _ _ => ?_)
    have hlt : writeIndex cap w k < cap := Nat.mod_lt _ hcap
    have ek := ringAddr_eq cfg c (writeIndex cap w k)
    have ec := ringAddr_eq cfg c cap
    omega

end Sys2Proof.Machine
end

section
/-! MIX at both ends of its range (R193, R198). -/

namespace Sys2Proof.Machine

/-- A sum that is a finite value is that value, up to the sign of a zero (R111). -/
theorem F32.add_of_val_eq (n : Nat) {a b r : Word} (ha : F32.isFinite a = true)
    (hb : F32.isFinite b = true) (hr : F32.isFinite r = true) (h : F32.val a + F32.val b = F32.val r) :
    F32.isFinite (F32.add n a b) = true ∧ F32.val (F32.add n a b) = F32.val r := by
  obtain ⟨hfin, hlo, hhi⟩ := F32.add_between (n := n) ha hb hr hr h.ge h.le
  exact ⟨hfin, le_antisymm hhi hlo⟩

/-- A finite value times 1.0 is that value bit for bit. -/
theorem F32.mul_one (n : Nat) {a : Word} (ha : F32.isFinite a = true) : F32.mul n a F32.one = a := by
  obtain ⟨hmag, hneg⟩ := F32.mul_bits (n := n) ha (show F32.isFinite F32.one = true by decide)
  refine F32.ext ?_ ?_
  · rw [hneg, show F32.neg F32.one = false by decide, Bool.bne_false]
  · rw [hmag, show F32.units F32.one = 2 ^ 149 by decide +kernel]
    exact F32.roundMag_exact (by positivity) (F32.mag_of_finite ha).le

theorem mix_hardware (n : Nat) (dry wet m : Word) :
    mix hardware n dry wet m =
      F32.add (n + 3) (F32.mul (n + 1) dry (F32.fsub hardware n F32.one m)) (F32.mul (n + 2) wet m) := by
  rw [mix, F32.fadd_hardware, F32.fmul_hardware, F32.fmul_hardware]

/-- MIX with mix `+0.0` keeps the value of a finite dry sample (R198). -/
theorem mix_zero (n : Nat) {dry wet : Word} (hdry : F32.isFinite dry = true)
    (hwet : F32.isFinite wet = true) :
    F32.isFinite (mix hardware n dry wet F32.zero) = true ∧
      F32.val (mix hardware n dry wet F32.zero) = F32.val dry := by
  have hg : F32.fsub hardware n F32.one F32.zero = F32.one := by
    rw [F32.fsub_hardware]
    exact (F32.add_of_isZero n (by decide) (by decide) (by decide)).1
  have hb := F32.isZero_mul (n + 2) hwet (b := F32.zero) (by decide) (.inr (by decide))
  rw [mix_hardware, hg, F32.mul_one _ hdry]
  exact F32.add_of_val_eq _ hdry (F32.isFinite_of_isZero hb) hdry
    (by rw [(F32.isZero_iff_val _).1 hb, add_zero])

/-- MIX with mix 1.0 gives the value of a finite wet sample (R198). -/
theorem mix_one (n : Nat) {dry wet : Word} (hdry : F32.isFinite dry = true)
    (hwet : F32.isFinite wet = true) :
    F32.isFinite (mix hardware n dry wet F32.one) = true ∧
      F32.val (mix hardware n dry wet F32.one) = F32.val wet := by
  have ha := F32.isZero_mul (n + 1) hdry (b := F32.zero) (by decide) (.inr (by decide))
  rw [mix_hardware, F32.fsub_self n (by decide), F32.mul_one _ hwet]
  exact F32.add_of_val_eq _ (F32.isFinite_of_isZero ha) hwet hwet
    (by rw [(F32.isZero_iff_val _).1 ha, zero_add])

/-- Settles O59: at either end of the mix one product is a zero and the other its own sample. -/
theorem pureDryAndPureWetInValue : Obligations.PureDryAndPureWetInValue := by
  refine ⟨fun _ _ _ _ _ => rfl, fun n dry wet hdry hwet => ?_⟩
  obtain ⟨hfin0, hval0⟩ := mix_zero n hdry hwet
  obtain ⟨hfin1, hval1⟩ := mix_one n hdry hwet
  exact ⟨hfin0, hval0, hfin1, hval1⟩

end Sys2Proof.Machine
end

section
/-! What PROCESS reports without a block, and the empty block (R216, R217, R219, R221). -/

namespace Sys2Proof.Machine

/-- Settles O20: the state is the first check of PROCESS. -/
theorem processWhileNotPreparedOnlyReports : Obligations.ProcessWhileNotPreparedOnlyReports :=
  fun _ hp => if_pos hp

/-- Settles O21: the block length is the second check. -/
theorem overlongBlockOnlyReports : Obligations.OverlongBlockOnlyReports :=
  fun _ hp hlong => (if_neg (not_not.2 hp)).trans (if_pos hlong)

/-- Settles O22: an empty block ends before step 1. -/
theorem emptyBlockChangesNothing : Obligations.EmptyBlockChangesNothing := by
  intro s hp h0
  have hzero : s.argNsamp.toNat = 0 := by rw [h0]; rfl
  show processWith hardware s = _
  rw [processWith, if_neg (not_not.2 hp), if_neg (by omega), if_pos hzero]
  rfl

/-- One illegal target makes the targets illegal (R219). -/
theorem legalParams_eq_false {p : Params} {k : ParamIx} (h : legalParam k (Params.get p k) = false) :
    legalParams p = false := by
  rw [← Bool.not_eq_true, legalParams_iff]
  rintro ⟨h0, h1, h2, h3⟩
  rw [← Bool.not_eq_true] at h
  cases k with
  | delayTime => exact h h0
  | dryWetMix => exact h h1
  | hpfCutoff => exact h h2
  | lpfCutoff => exact h h3

/-- Settles O25: the targets are checked before anything else of a block. -/
theorem illegalTargetIsRefused : Obligations.IllegalTargetIsRefused := by
  rintro s hp h1 h2 ⟨k, hk⟩
  show processWith hardware s = _
  rw [processWith_eq_processBlock hp h1 h2, processBlock, if_pos (by simp [legalParams_eq_false hk])]

end Sys2Proof.Machine
end

section
/-! A block of PROCESS completes while its targets are legal, and no step of a dutiful host stops the machine
(R62, R196, R215, R219). -/

namespace Sys2Proof.Machine

/-! A block whose conditions are met -/

/-- R37 gives the ring, the channels and the sample rate of a block their meaning (R119, R153, R187). -/
theorem ringUsable_of_configInv {s : State} (hs : State.ConfigInv hardware s) (hp : s.engState = .prepared) :
    ringUsable hardware s = true ∧ F32.isSubnormal s.cfgFs = false := by
  obtain ⟨hcap1, hcapMax, -, hnch, hfs, hfs0, hms, hms0, hcap⟩ := hs hp
  have hnch2 : s.cfgNch.toNat ≤ channelsMax := by rcases hnch with h | h <;> rw [h] <;> decide
  exact ⟨by simp [ringUsable, hcap1, hcapMax, hnch2], rate_not_subnormal hms hms0 hfs hfs0 hcap hcap1⟩

/-- Smoothed toward legal targets, the delay time has a length within the capacity on every channel
(R144, R196). -/
theorem mapDelay_of_smoothed {s : State} {t : Params} (hs : State.ConfigInv hardware s)
    (hp : s.engState = .prepared) (hsm : State.SmoothedLegal s) (ht : legalParams t = true)
    (c : Channel) (n : Nat) :
    ∃ d, mapDelay hardware n c (smoothParams hardware s.draws s.sm t).delayTime s.cfgMaxMs s.cfgFs
        = some d ∧
      d ≤ s.capacity.toNat := by
  obtain ⟨-, -, -, -, hfs, hfs0, hms, hms0, hcap⟩ := hs hp
  obtain ⟨hdt, -⟩ := (legalParams_iff _).1 (smoothParams_legal s.draws hsm ht)
  exact delayNeverExceedsTheCapacity n 0 _ c _ _ _ hdt hms hms0 hfs hfs0 hcap

/-- A block under its conditions ends as steps 2 to 6 of R215 end. -/
theorem processBlock_of_runBlock {cfg : Config} {s t : State} (hlegal : legalParams (pullTargets s).1 = true)
    (hring : ringUsable cfg s = true) (hrate : F32.isSubnormal s.cfgFs = false)
    (h : runBlock cfg s.argNsamp.toNat (pullTargets s).1 (pullTargets s).2 = .ok t) :
    processBlock cfg s = .next t := by
  rw [processBlock, if_neg (by simp [hlegal]), if_neg (by simp [hring]), if_neg (by simp [hrate]), h]

/-- A non-empty block with legal targets ends, and with the state that steps 2 to 6 of R215 give. -/
theorem execProcess_block_ends {s : State} (hp : s.engState = .prepared) (hs : State.ConfigInv hardware s)
    (hsm : State.SmoothedLegal s) (h1 : 1 ≤ s.argNsamp.toNat) (h2 : s.argNsamp.toNat ≤ 4096)
    (ht : legalParams (pullTargets s).1 = true) :
    ∃ t, exec .process s = .next t ∧
      runBlock hardware s.argNsamp.toNat (pullTargets s).1 (pullTargets s).2 = .ok t := by
  obtain ⟨hring, hrate⟩ := ringUsable_of_configInv hs hp
  obtain ⟨t, hb⟩ := processBlock_exists (count := s.argNsamp.toNat) (mapDelay_of_smoothed hs hp hsm ht)
  exact ⟨t, (processWith_eq_processBlock hp h1 h2).trans (processBlock_of_runBlock ht hring hrate hb), hb⟩

/-! Every command ends -/

/-- PROCESS ends: the engine is not Prepared, or the block is too long, empty, or has legal targets. -/
theorem execProcess_ends {s : State} (hs : State.ConfigInv hardware s) (hsm : State.SmoothedLegal s)
    (ht : legalParams (pullTargets s).1 = true) : ∃ t, exec .process s = .next t := by
  by_cases hp : s.engState = .prepared
  · by_cases hlong : 4096 < s.argNsamp.toNat
    · exact ⟨_, overlongBlockOnlyReports s hp hlong⟩
    by_cases hzero : s.argNsamp = 0
    · exact ⟨_, emptyBlockChangesNothing s hp hzero⟩
    have hpos : s.argNsamp.toNat ≠ 0 := fun h => hzero (BitVec.eq_of_toNat_eq h)
    obtain ⟨t, h, -⟩ := execProcess_block_ends hp hs hsm (by omega) (by omega) ht
    exact ⟨t, h⟩
  · exact ⟨_, processWhileNotPreparedOnlyReports s hp⟩

/-- A command word runs to its end: PREPARE and RELEASE always end, an illegal word reports, and PROCESS
ends with legal targets (R218, R247). -/
theorem runCommand_ends {s : State} {w : Word} (hs : State.ConfigInv hardware s) (hsm : State.SmoothedLegal s)
    (ht : w = encode .process → legalParams (pullTargets s).1 = true) : ∃ t, runCommand w s = .next t := by
  by_cases hw : ∃ i, w = encode i
  · obtain ⟨i, rfl⟩ := hw
    have hexec : ∃ u, exec i s = .next u := by
      cases i with
      | prepare => exact ⟨_, rfl⟩
      | release => exact ⟨_, rfl⟩
      | process => exact execProcess_ends hs hsm (ht rfl)
    obtain ⟨u, hu⟩ := hexec
    exact ⟨State.landAll u, by rw [runCommand_ok ((decodeWord_ok_iff _ i).2 rfl), hu]; rfl⟩
  · obtain ⟨e, he⟩ := decodeWord_error fun i hi => hw ⟨i, hi⟩
    exact ⟨State.landAll (State.illegalCommand s), by rw [runCommand, he]; rfl⟩

/-! Every step of a dutiful host -/

/-- An access is well formed when it is 32 bits wide, aligned and inside the space (R62). -/
theorem wf_access_iff {addr width : Nat} :
    (width == 4 && addr % 4 == 0 && decide (addr < 0x10000)) = true ↔
      width = 4 ∧ addr % 4 = 0 ∧ addr < 0x10000 := by
  simp only [Bool.and_eq_true, beq_iff_eq, decide_eq_true_eq, and_assoc]

/-- While the host keeps its duties a step ends in a next state (R62, R219). -/
theorem step_ends {s : State} (hs : State.ConfigInv hardware s) (hsm : State.SmoothedLegal s)
    (hd : State.HostKeepsDuty s) : ∃ t, step s = .next t := by
  cases hh : s.host with
  | nil => exact ⟨s, step_nil hh⟩
  | cons m rest =>
    rw [State.HostKeepsDuty, hh] at hd
    obtain ⟨hwf, hlegal⟩ := hd
    cases m with
    | write addr width v =>
      obtain ⟨rfl, ha, hlt⟩ := wf_access_iff.1 hwf
      by_cases h0 : addr = 0
      · subst h0
        rw [step_command hh]
        exact runCommand_ends (s := { s with host := rest }) hs hsm fun hv => hlegal (by rw [hv])
      · exact ⟨_, step_write hh ha hlt h0⟩
    | read addr width =>
      obtain ⟨rfl, ha, hlt⟩ := wf_access_iff.1 hwf
      exact ⟨_, step_read hh ha hlt⟩
    | overlap w => exact ⟨_, step_cons hh⟩
    | reset => exact ⟨_, step_cons hh⟩

/-- Settles O35: a dutiful host's step ends, and every step that ends keeps the four parts of the
invariant. -/
theorem dutifulHostNeverStopsTheMachine : Obligations.DutifulHostNeverStopsTheMachine := by
  rintro s ⟨hcfg, hsm, hmem, hrel⟩ hd
  obtain ⟨t, ht⟩ := step_ends hcfg hsm hd
  exact ⟨t, ht, stepKeepsTheConfiguration s t hcfg ht, stepKeepsSmoothedValuesLegal s t hsm ht,
    stepKeepsMemoriesCanonical s t hmem ht, releasingIsNeverSeen s t hrel ht⟩

end Sys2Proof.Machine
end

section
/-! RELEASE (R214), and the report of an illegal command word (R218). -/

namespace Sys2Proof.Machine

/-- Settles O4: a word that does not decode is reported, and then the writes in flight land. -/
theorem illegalWordOnlyReports : Obligations.IllegalWordOnlyReports := by
  intro s rest w hh hw
  obtain ⟨e, he⟩ := decodeWord_error hw
  rw [step_command hh, runCommand, he]
  rfl

theorem execRelease_eq (s : State) : exec .release s = .next { s with
    engState := if s.engState = .prepared then .unprepared else s.engState
    cause := .none } := by
  rw [← releaseState_frame]
  rfl

/-- Settles O19: RELEASE writes `ENG_STATE` and the cause, and neither is left for a second one to change. -/
theorem releaseIsSafeToRepeat : Obligations.ReleaseIsSafeToRepeat := by
  refine ⟨rfl, fun s => ⟨_, execRelease_eq s, rfl, rfl, rfl, rfl, rfl, rfl, rfl, rfl, rfl, rfl, rfl, rfl,
    rfl, rfl, rfl, rfl, rfl, rfl, fun hu => ?_, ?_⟩⟩
  · simp [hu]
  · rw [execRelease_eq]
    by_cases hp : s.engState = .prepared <;> simp [hp]

end Sys2Proof.Machine
end

section
/-! A PREPARE whose operands pass VALIDATE (R211, R212). -/

namespace Sys2Proof.Machine

theorem execPrepare_of_ok {s : State} {cap : Nat}
    (h : validate hardware s.draws s.argFs s.argNch s.argMaxMs = .ok cap) :
    exec .prepare s = .next (prepareValid hardware cap s) := by
  show Host.Outcome.next (prepareWith hardware s) = _
  rw [prepareWith, h]

section
variable {cfg : Config} {cap : Nat} {s : State}

/-- The histories of a channel below `ARG_NCH` are cleared (R211). -/
theorem prepareValid_history_cleared (st : Stage) {c : Channel} (hc : Channel.index c < s.argNch.toNat) :
    State.history (prepareValid cfg cap s) st c = ⟨0, 0, 0, 0⟩ := by
  rw [prepareValid_frame]
  exact (clearHistories_history _ s st c).trans (if_pos ((mem_channelsOf _ c).2 hc))

/-- The histories of every other channel are kept (log entry 9). -/
theorem prepareValid_history_kept (st : Stage) {c : Channel} (hc : s.argNch.toNat ≤ Channel.index c) :
    State.history (prepareValid cfg cap s) st c = State.history s st c := by
  rw [prepareValid_frame]
  exact (clearHistories_history _ s st c).trans
    (if_neg fun h => absurd ((mem_channelsOf _ c).1 h) (not_lt.2 hc))

/-- Every word of a configured ring reads `+0.0` (R211). -/
theorem prepareValid_ring_word {c : Channel} {j : Nat} (n : Nat) (hc : Channel.index c < s.argNch.toNat)
    (hj : j < cap) : Memory.getWord (prepareValid cfg cap s).ring n (ringAddr cfg c j) = 0 := by
  rw [prepareValid_frame]
  refine Memory.getWord_of_listed (fun k hk => ?_) n
  have ej := ringAddr_eq cfg c j
  rw [clearRings_get, if_pos ⟨c, (mem_channelsOf _ c).2 hc, by omega, by omega⟩]
  simp

/-- A ring byte outside the configured rings is kept (log entry 9). -/
theorem prepareValid_ring_kept {a : Nat} (ha : ¬ inRing cfg s.argNch.toNat cap a) :
    Memory.get (prepareValid cfg cap s).ring a = Memory.get s.ring a := by
  rw [prepareValid_frame]
  refine (clearRings_get cfg cap _ s a).trans (if_neg ?_)
  rintro ⟨c, hc, hr⟩
  exact ha ⟨c, (mem_channelsOf _ c).1 hc, hr⟩

end

/-- Settles O15: VALIDATE accepts the operands, and a valid PREPARE writes what R211 lists. -/
theorem prepareLatchesAndClears : Obligations.PrepareLatchesAndClears := by
  intro s cap hfs hfs0 hnch hms hms0 hcap h1 h2
  have hv := (validate_ok_iff s.draws s.argFs s.argNch s.argMaxMs cap).2
    ⟨hfs, hfs0, hnch, hms, hms0, hcap, h1, h2⟩
  have hclr := fun st c => prepareValid_history_cleared (cfg := hardware) (cap := cap) (s := s) st (c := c)
  have hkept := fun st c => prepareValid_history_kept (cfg := hardware) (cap := cap) (s := s) st (c := c)
  have hword := fun c j n => prepareValid_ring_word (cfg := hardware) (cap := cap) (s := s) (c := c) (j := j) n
  have hbyte := fun a => prepareValid_ring_kept (cfg := hardware) (cap := cap) (s := s) (a := a)
  have hend := execPrepare_of_ok hv
  rw [prepareValid_frame] at hclr hkept hword hbyte hend
  exact ⟨_, hend, rfl, rfl, rfl, rfl, rfl, toNat_capacity h2, rfl, hclr, hword, hkept, hbyte,
    rfl, rfl, rfl, rfl, rfl, rfl, rfl, rfl, rfl, rfl, rfl⟩

/-- No NaN arises in the example of the source, so its capacity needs no draw. -/
theorem capacityOf_example (n : Nat) : capacityOf hardware n 0x420C0000#32 0x472C4400#32 = some 1543 := by
  rw [capacityOf_draw n 0 (by decide) (by decide) (by decide) (by decide)]
  decide +kernel

/-- Settles O18: 35 ms at 44100 Hz are 1543 samples. -/
theorem prepareExampleOfTheSource : Obligations.PrepareExampleOfTheSource := by
  intro s hfs hnch hms
  have hv : validate hardware s.draws s.argFs s.argNch s.argMaxMs = .ok 1543 := by
    rw [hfs, hnch, hms, validate_ok_iff]
    exact ⟨by decide, by decide, .inr rfl, by decide, by decide, capacityOf_example _, by decide, by decide⟩
  refine ⟨_, execPrepare_of_ok hv, ?_⟩
  rw [prepareValid_frame]
  exact ⟨rfl, rfl, rfl, rfl⟩

end Sys2Proof.Machine
end

section
/-! The four checks of VALIDATE, and a PREPARE that fails one (R213). -/

namespace Sys2Proof.Machine

theorem execPrepare_of_error {s : State} {c : Cause}
    (h : validate hardware s.draws s.argFs s.argNch s.argMaxMs = .error c) :
    exec .prepare s = .next { s with engState := .unprepared, cause := c, esticky := true } := by
  show Host.Outcome.next (prepareWith hardware s) = _
  rw [prepareWith, h]
  rfl

/-- The channel counts that pass VALIDATE. -/
theorem oneOrTwo_iff (nch : Word) :
    nch = 1 ∨ nch = 2 ↔ ¬ (nch.toNat = 0 ∨ channelsMax < nch.toNat) := by
  simp only [channelsMax, ← BitVec.toNat_inj]
  show nch.toNat = 1 ∨ nch.toNat = 2 ↔ _
  omega

section
variable {n : Nat} {fs nch ms : Word}

/-- The first check of VALIDATE: the rate. -/
theorem validate_of_rate (h : ¬ (F32.isFinite fs = true ∧ F32.fgt hardware fs F32.zero = true)) :
    validate hardware n fs nch ms = .error .cfgFs := by
  rw [validate, if_pos (by simpa [-not_and, not_and_or] using h)]

variable (hfs : F32.isFinite fs = true ∧ F32.fgt hardware fs F32.zero = true)
include hfs

/-- The second check: the channel count. -/
theorem validate_of_channels (h : ¬ (nch = 1 ∨ nch = 2)) :
    validate hardware n fs nch ms = .error .cfgNch := by
  rw [validate, if_neg (by simp [hfs]), if_pos (not_not.1 fun hc => h ((oneOrTwo_iff nch).2 hc))]

/-- Behind a good rate and channel count stand only checks of the maximum delay. -/
theorem validate_of_maxDelay (hnch : nch = 1 ∨ nch = 2)
    (h : ∀ cap, validate hardware n fs nch ms ≠ .ok cap) :
    validate hardware n fs nch ms = .error .cfgMaxDelay := by
  rw [validate, if_neg (by simp [hfs]), if_neg ((oneOrTwo_iff nch).1 hnch)] at h ⊢
  by_cases hms : (!F32.isFinite ms || F32.flt hardware ms F32.zero) = true
  · rw [if_pos hms]
  · rw [if_neg hms] at h ⊢
    cases hc : capacityOf hardware n ms fs with
    | none => rfl
    | some c =>
      simp only [hc] at h ⊢
      split_ifs at h ⊢ with hbad
      · rfl
      · exact absurd rfl (h c)

end

/-! The quotient `v` of R212 and its floor -/

/-- What `floor_u32` answers is the whole part of a finite value (R118). -/
theorem F32.eq_of_floorU32 {w : Word} {k : Nat} (h : F32.floorU32 w = some k) :
    F32.isFinite w = true ∧ F32.units w / 2 ^ 149 = k := by
  obtain ⟨hfin, -, hlo, hhi⟩ := (F32.floorU32_eq_some_iff w k).1 h
  have habs := F32.natAbs_val w
  exact ⟨hfin, by omega⟩

/-- A finite value that is not negative has a floor if that is below 2^32 (R118). -/
theorem F32.floorU32_of_nonneg {w : Word} (hfin : F32.isFinite w = true) (h0 : 0 ≤ F32.val w)
    (hlt : F32.units w / 2 ^ 149 < 2 ^ 32) : F32.floorU32 w = some (F32.units w / 2 ^ 149) := by
  have habs := F32.natAbs_val w
  exact (F32.floorU32_eq_some_iff w _).2 ⟨hfin, hlt, by omega, by omega⟩

/-- The rounding of a result that is not negative is not negative (R111). -/
theorem F32.IsRounding.val_nonneg {x : Int} {den : Nat} {r : Word} (h : F32.IsRounding x den r)
    (hx : 0 ≤ x) : 0 ≤ F32.val r := by
  cases hn : F32.neg r with
  | false => exact F32.val_nonneg hn
  | true =>
    have hzero : F32.isZero r = true := by
      rw [F32.isZero_def, h.mag_eq, le_antisymm (h.nonpos hn) hx, Int.natAbs_zero, F32.roundMag_zero]
      rfl
    exact ((F32.isZero_iff_val r).1 hzero).ge

/-- `v / 1000.0` is no NaN, and not negative where it is finite, if `v` is such a value. -/
theorem F32.div_thousand_nonneg (n : Nat) {x : Word} (hnan : F32.isNaN x = false)
    (h0 : F32.isFinite x = true → 0 ≤ F32.val x) :
    F32.isNaN (F32.div n x F32.thousand) = false ∧
      (F32.isFinite (F32.div n x F32.thousand) = true → 0 ≤ F32.val (F32.div n x F32.thousand)) := by
  by_cases hinf : F32.isInf x = true
  · have hv := F32.isInf_ofMag_infMag (F32.neg x != F32.neg F32.thousand)
    rw [F32.div_of_isInf_left n hinf (by decide)]
    exact ⟨F32.isNaN_of_isInf hv, fun hfin => absurd hv (by simp [F32.isInf_of_finite hfin])⟩
  · have hfin := F32.isFinite_of_not_isInf hnan hinf
    have hr := F32.div_isRounding n hfin (b := F32.thousand) (by decide) (by decide)
    refine ⟨hr.isNaN_eq_false, fun _ => hr.val_nonneg ?_⟩
    rw [F32.signedDividend, show F32.neg F32.thousand = false by decide, Bool.bne_false, F32.ofMag_neg_mag]
    exact mul_nonneg (h0 hfin) (by positivity)

/-- For operands that pass the checks before, the quotient `v` of R212 is no NaN, and it is not negative where
it is finite. -/
theorem capacityQuotient_nonneg (n : Nat) {ms fs : Word} (hms : F32.isFinite ms = true)
    (hms0 : F32.flt hardware ms F32.zero = false) (hfs : F32.isFinite fs = true)
    (hfs0 : F32.fgt hardware fs F32.zero = true) :
    let v := F32.fdiv hardware (n + 1) (F32.fmul hardware n ms fs) F32.thousand
    F32.isNaN v = false ∧ (F32.isFinite v = true → 0 ≤ F32.val v) := by
  have hr := F32.mul_isRounding n hms hfs
  have hfsVal : 0 ≤ F32.val fs := F32.val_nonneg (rate_pos hfs hfs0).1
  have hmsVal : 0 ≤ F32.val ms := by
    rw [F32.flt_hardware, ← Bool.not_eq_true, F32.lt_iff_of_finite hms (by decide)] at hms0
    exact not_lt.1 hms0
  rw [F32.fdiv_hardware, F32.fmul_hardware]
  exact F32.div_thousand_nonneg (n + 1) hr.isNaN_eq_false fun _ => hr.val_nonneg (mul_nonneg hmsVal hfsVal)

/-- Without guard words the capacity is the floor of `v` (R212). -/
theorem capacityOf_hardware (n : Nat) (ms fs : Word) : capacityOf hardware n ms fs =
    F32.floorU32 (F32.fdiv hardware (n + 1) (F32.fmul hardware n ms fs) F32.thousand) := by
  rw [capacityOf, show (· + hardware.capGuard) = (id : Nat → Nat) from rfl, Option.map_id, id]

/-- Settles O16: the first check that fails gives the cause, and where none fails `v` has a floor, which is
the capacity. -/
theorem prepareRejectsInOrder : Obligations.PrepareRejectsInOrder := by
  intro s fsOk nchOk msOk v capBad fails
  have hcap : capacityOf hardware s.draws s.argMaxMs s.argFs = F32.floorU32 v := capacityOf_hardware _ _ _
  have hok := validate_ok_iff s.draws s.argFs s.argNch s.argMaxMs
  have hnch : nchOk ↔ s.argNch = 1 ∨ s.argNch = 2 := by
    have h0 : s.argNch.toNat = 0 ↔ s.argNch = 0 := BitVec.toNat_inj (y := 0)
    rw [oneOrTwo_iff, h0, not_or, channelsMax, not_lt]
  rw [hnch]
  refine ⟨fun h => execPrepare_of_error (validate_of_rate h),
    fun hfs h => execPrepare_of_error (validate_of_channels hfs h),
    fun hfs hnch hms => execPrepare_of_error (validate_of_maxDelay hfs hnch fun cap hv => ?_),
    fun hfs hnch _ hbad => execPrepare_of_error (validate_of_maxDelay hfs hnch fun cap hv => ?_),
    fun hfs hnch hms hgood => ?_⟩
  · obtain ⟨-, -, -, hfin, hnonneg, -⟩ := (hok cap).1 hv
    exact hms ⟨hfin, hnonneg⟩
  · obtain ⟨-, -, -, -, -, hc, hc1, hcMax⟩ := (hok cap).1 hv
    obtain ⟨hfin, hfloor⟩ := F32.eq_of_floorU32 (hcap.symm.trans hc)
    rcases hbad with hinf | hlow | hhigh
    · rw [F32.isInf_of_finite hfin] at hinf; cases hinf
    · omega
    · omega
  · obtain ⟨hinf, hlow, hhigh⟩ : ¬ F32.isInf v = true ∧ ¬ F32.units v / 2 ^ 149 < 1 ∧
        ¬ 65536 < F32.units v / 2 ^ 149 := by simpa only [capBad, not_or] using hgood
    obtain ⟨hfsFin, hfsPos⟩ := hfs
    obtain ⟨hmsFin, hmsNonneg⟩ := hms
    obtain ⟨hnan, hnonneg⟩ := capacityQuotient_nonneg s.draws hmsFin hmsNonneg hfsFin hfsPos
    have hfin : F32.isFinite v = true := F32.isFinite_of_not_isInf hnan hinf
    have hfloor := hcap.trans (F32.floorU32_of_nonneg hfin (hnonneg hfin) (by omega))
    have hv := (hok _).2 ⟨hfsFin, hfsPos, hnch, hmsFin, hmsNonneg, hfloor, by omega, by omega⟩
    refine ⟨_, execPrepare_of_ok hv, ?_⟩
    rw [prepareValid_frame]
    exact ⟨rfl, rfl, toNat_capacity (by omega)⟩

end Sys2Proof.Machine
end

section
/-! Steps 1 to 6 of a block, one by one (R215). -/

namespace Sys2Proof.Machine

section
variable {cfg : Config} {count : Nat} {p : Params} {s t : State}

/-- Step 5 on one channel is DELAYMIX with the length MAPDELAY gives (R196). -/
theorem delayChannels_single {c : Channel} {n : Nat} (h : delayChannels cfg count [c] n s = .ok t) :
    ∃ d, d ≤ s.capacity.toNat ∧ mapDelay cfg n c s.sm.delayTime s.cfgMaxMs s.cfgFs = some d ∧
      t = delayMix cfg (n + 4) c count d s.sm.dryWetMix s := by
  obtain ⟨d, hd, hnil⟩ := delayChannels_cons h
  obtain ⟨hmap, hle⟩ := delayFor_ok hd
  exact ⟨d, hle, hmap, (Except.ok.inj hnil).symm⟩

/-- Step 5 on two channels is DELAYMIX on the first and then on the second, each with its own length. -/
theorem delayChannels_pair {c c' : Channel} {n : Nat} (h : delayChannels cfg count [c, c'] n s = .ok t) :
    ∃ d e, d ≤ s.capacity.toNat ∧ e ≤ s.capacity.toNat ∧
      mapDelay cfg n c s.sm.delayTime s.cfgMaxMs s.cfgFs = some d ∧
      mapDelay cfg (n + 4 + 6 * count) c' s.sm.delayTime s.cfgMaxMs s.cfgFs = some e ∧
      t = delayMix cfg (n + 4 + 6 * count + 4) c' count e s.sm.dryWetMix
        (delayMix cfg (n + 4) c count d s.sm.dryWetMix s) := by
  obtain ⟨d, hd, hrest⟩ := delayChannels_cons h
  obtain ⟨hmap, hle⟩ := delayFor_ok hd
  obtain ⟨e, hle', hmap', ht⟩ := delayChannels_single hrest
  exact ⟨d, e, hle, hle', hmap, hmap', ht⟩

/-- The state after steps 2 to 4 on the channels listed. -/
def filteredBlock (cfg : Config) (count : Nat) (chs : List Channel) (p : Params) (s : State) : State :=
  chainLoop cfg count chs (s.draws + 14) (smoothAndConfigure cfg s.draws p s)

/-- Steps 2 to 4 change the smoothers, the coefficients, the histories and the block buffer (R215). -/
theorem filteredBlock_frame (chs : List Channel) :
    filteredBlock cfg count chs p s = { s with
      sm := smoothParams cfg s.draws s.sm p
      cf := (smoothAndConfigure cfg s.draws p s).cf
      fh := (filteredBlock cfg count chs p s).fh
      buf := (filteredBlock cfg count chs p s).buf } :=
  chainLoop_frame cfg count chs (s.draws + 14) (smoothAndConfigure cfg s.draws p s)

@[simp] theorem filteredBlock_sm (chs : List Channel) :
    (filteredBlock cfg count chs p s).sm = smoothParams cfg s.draws s.sm p := by rw [filteredBlock_frame]
@[simp] theorem filteredBlock_capacity (chs : List Channel) :
    (filteredBlock cfg count chs p s).capacity = s.capacity := by rw [filteredBlock_frame]
@[simp] theorem filteredBlock_writePos (chs : List Channel) :
    (filteredBlock cfg count chs p s).writePos = s.writePos := by rw [filteredBlock_frame]
@[simp] theorem filteredBlock_cfgFs (chs : List Channel) :
    (filteredBlock cfg count chs p s).cfgFs = s.cfgFs := by rw [filteredBlock_frame]
@[simp] theorem filteredBlock_cfgMaxMs (chs : List Channel) :
    (filteredBlock cfg count chs p s).cfgMaxMs = s.cfgMaxMs := by rw [filteredBlock_frame]
@[simp] theorem filteredBlock_ring (chs : List Channel) :
    (filteredBlock cfg count chs p s).ring = s.ring := by rw [filteredBlock_frame]

/-- A block that ends: steps 2 to 4, then step 5, then step 6. -/
theorem runBlock_steps {chs : List Channel} (h : runBlock cfg count p s = .ok t)
    (hchs : channelsOf s.cfgNch.toNat = chs) :
    ∃ u, delayChannels cfg count chs (s.draws + 14 + chs.length * (20 * count))
        (filteredBlock cfg count chs p s) = .ok u ∧ t = advance count chs.length u := by
  subst hchs
  exact runBlock_ok h

/-- A block whose step 5 ends goes on to step 6. -/
theorem runBlock_of_steps (h : delayChannels cfg count (channelsOf s.cfgNch.toNat)
      (s.draws + 14 + (channelsOf s.cfgNch.toNat).length * (20 * count))
      (filteredBlock cfg count (channelsOf s.cfgNch.toNat) p s) = .ok t) :
    runBlock cfg count p s = .ok (advance count (channelsOf s.cfgNch.toNat).length t) := by
  rw [filteredBlock] at h
  rw [runBlock]
  simp only [h]

/-- The two memories after DELAYMIX and step 6. -/
theorem advance_delayMix_memories (nch n d : Nat) (c : Channel) (m : Word) :
    ((advance count nch (delayMix cfg n c count d m s)).buf,
      (advance count nch (delayMix cfg n c count d m s)).ring) =
      delayLoop cfg c s.capacity.toNat s.writePos.toNat d m count n 0 s.buf s.ring := rfl

/-- A block on one channel (R215 with `CFG_NCH` = 1). -/
theorem runBlock_left (h : runBlock cfg count p s = .ok t) (hn : s.cfgNch = 1) :
    ∃ d, d ≤ s.capacity.toNat ∧
      (let sm := smoothParams cfg s.draws s.sm p
       let n := s.draws + 14 + 20 * count
       let s4 := filteredBlock cfg count [.left] p s
       mapDelay cfg n .left sm.delayTime s.cfgMaxMs s.cfgFs = some d ∧ t.fh = s4.fh ∧
         (t.buf, t.ring) = delayLoop cfg .left s.capacity.toNat s.writePos.toNat d sm.dryWetMix count (n + 4) 0
           s4.buf s4.ring) := by
  obtain ⟨u, hu, rfl⟩ := runBlock_steps (chs := [.left]) h (by rw [hn]; rfl)
  rw [List.length_singleton, Nat.one_mul] at hu
  obtain ⟨d, hle, hmap, rfl⟩ := delayChannels_single hu
  simp only [filteredBlock_sm, filteredBlock_capacity, filteredBlock_cfgFs, filteredBlock_cfgMaxMs] at hle hmap
  refine ⟨d, hle, hmap, rfl, ?_⟩
  rw [advance_delayMix_memories, filteredBlock_sm, filteredBlock_capacity, filteredBlock_writePos]

/-- A block on two channels (R215 with `CFG_NCH` = 2). -/
theorem runBlock_both (h : runBlock cfg count p s = .ok t) (hn : s.cfgNch = 2) :
    ∃ d e, d ≤ s.capacity.toNat ∧ e ≤ s.capacity.toNat ∧
      (let sm := smoothParams cfg s.draws s.sm p
       let n := s.draws + 14 + 40 * count
       let m := n + 4 + 6 * count
       let s4 := filteredBlock cfg count [.left, .right] p s
       mapDelay cfg n .left sm.delayTime s.cfgMaxMs s.cfgFs = some d ∧
       mapDelay cfg m .right sm.delayTime s.cfgMaxMs s.cfgFs = some e ∧ t.fh = s4.fh ∧
       (let left := delayLoop cfg .left s.capacity.toNat s.writePos.toNat d sm.dryWetMix count (n + 4) 0
          s4.buf s4.ring
        (t.buf, t.ring) = delayLoop cfg .right s.capacity.toNat s.writePos.toNat e sm.dryWetMix count (m + 4) 0
          left.1 left.2)) := by
  obtain ⟨u, hu, rfl⟩ := runBlock_steps (chs := [.left, .right]) h (by rw [hn]; rfl)
  rw [show [Channel.left, Channel.right].length * (20 * count) = 40 * count by
    simp only [List.length]; omega] at hu
  obtain ⟨d, e, hle, hle', hmap, hmap', rfl⟩ := delayChannels_pair hu
  simp only [filteredBlock_sm, filteredBlock_capacity, filteredBlock_cfgFs, filteredBlock_cfgMaxMs]
    at hle hle' hmap hmap'
  refine ⟨d, e, hle, hle', hmap, hmap', rfl, ?_⟩
  rw [advance_delayMix_memories, delayMix_capacity, delayMix_writePos, delayMix_buf, delayMix_ring,
    filteredBlock_sm, filteredBlock_capacity, filteredBlock_writePos]

end

/-- The coefficients of both stages for these cutoffs (R151, R152, R155, R156). -/
def configuredCoefs (n : Nat) (sm : Params) (fs : Word) : PerStage Coefs :=
  ⟨Coef.cookbook .highPass (clampFc hardware (n + 12) sm.hpfCutoff fs) 0x3F3504F3#32 fs,
    Coef.cookbook .lowPass (clampFc hardware (n + 13) sm.lpfCutoff fs) 0x3F3504F3#32 fs⟩

theorem stageCoefs_hardware (n : Nat) (st : Stage) (cutoff fs : Word) :
    stageCoefs hardware n st cutoff fs =
      Coef.cookbook st (clampFc hardware n cutoff fs) 0x3F3504F3#32 fs := rfl

/-- Steps 2 and 3 from the state that step 1 leaves, as one update. -/
theorem smoothAndConfigure_pulled (s : State) (p : Params) :
    smoothAndConfigure hardware (pullTargets s).2.draws p (pullTargets s).2 = { (pullTargets s).2 with
      sm := smoothParams hardware s.draws s.sm p
      cf := configuredCoefs s.draws (smoothParams hardware s.draws s.sm p) s.cfgFs } := by
  simp only [smoothAndConfigure_eq, pullTargets_draws, pullTargets_sm, pullTargets_cfgFs,
    stageCoefs_hardware, configuredCoefs]

/-- Steps 1 to 4. -/
theorem filteredBlock_pulled (count : Nat) (chs : List Channel) (p : Params) (s : State) :
    filteredBlock hardware count chs p (pullTargets s).2 =
      chainLoop hardware count chs (s.draws + 14) { (pullTargets s).2 with
        sm := smoothParams hardware s.draws s.sm p
        cf := configuredCoefs s.draws (smoothParams hardware s.draws s.sm p) s.cfgFs } := by
  rw [filteredBlock, smoothAndConfigure_pulled, pullTargets_draws]

/-- A write position reduced modulo a capacity that is not 0 is that number in its register (R23). -/
theorem toNat_ofNat_mod (n : Nat) {cap : Word} (h : 1 ≤ cap.toNat) :
    (BitVec.ofNat 32 (n % cap.toNat)).toNat = n % cap.toNat := by
  rw [BitVec.toNat_ofNat, Nat.mod_eq_of_lt ((Nat.mod_lt n h).trans cap.isLt)]

/-- Settles O23: the block ends, and its steps are those of R215 on the state that step 1 leaves. -/
theorem processRunsTheSixSteps : Obligations.ProcessRunsTheSixSteps := by
  intro s hp hs hsm h1 h2 htargets
  obtain ⟨t, hend, hb⟩ := execProcess_block_ends hp hs hsm h1 h2 htargets
  obtain ⟨hcap, -⟩ := hs hp
  have hleft := runBlock_left hb
  have hboth := runBlock_both hb
  obtain ⟨f, b, r, ht⟩ := runBlock_frame hb
  simp only [pullTargets_draws, pullTargets_sm, pullTargets_cfgFs, pullTargets_cfgNch,
    pullTargets_cfgMaxMs, pullTargets_capacity, pullTargets_writePos] at hleft hboth
  simp only [filteredBlock_pulled] at hleft hboth
  have hsm' : t.sm = smoothParams hardware s.draws s.sm (pullTargets s).1 := by
    rw [ht, pullTargets_sm, pullTargets_draws]
  have hcf : t.cf = configuredCoefs s.draws (smoothParams hardware s.draws s.sm (pullTargets s).1) s.cfgFs := by
    rw [ht, smoothAndConfigure_pulled]
  have hw : t.writePos.toNat = (s.writePos.toNat + s.argNsamp.toNat) % s.capacity.toNat := by
    rw [ht, pullTargets_writePos, pullTargets_capacity]
    exact toNat_ofNat_mod _ hcap
  intro count cap target sm cf filtered delay
  refine ⟨t, hend, hsm', hcf, hleft, hboth, hw, ?_, ?_, ?_, ?_⟩ <;> rw [ht]
  exact pullTargets_esticky s

end Sys2Proof.Machine
end

section
/-! What a PROCESS that ends leaves unchanged (R65, R215, R277). -/

namespace Sys2Proof.Machine

/-- A byte outside the block is outside the words of each of its channels (R65). -/
theorem outside_of_not_inBlock {cfg : Config} {nch count a : Nat} (h : ¬ inBlock cfg nch count a) :
    ∀ c ∈ channelsOf nch, a < bufAddr cfg c 0 ∨ bufAddr cfg c 0 + 4 * count ≤ a := by
  intro c hc
  by_contra hin
  exact h ⟨c, (mem_channelsOf nch c).1 hc, by omega, by omega⟩

/-- A byte outside the rings in use is outside the ring of each channel (R65, R74). -/
theorem outside_of_not_inRing {cfg : Config} {nch cap a : Nat} (h : ¬ inRing cfg nch cap a) :
    ∀ c ∈ channelsOf nch, a < ringAddr cfg c 0 ∨ ringAddr cfg c 0 + 4 * cap ≤ a := by
  intro c hc
  by_contra hin
  exact h ⟨c, (mem_channelsOf nch c).1 hc, by omega, by omega⟩

section
variable {cfg : Config} {count a : Nat} {p : Params} {s t : State}

/-- Step 5 writes the samples of its channels' blocks and the words of their rings only (R190, R191). -/
theorem delayChannels_get_outside {cs : List Channel} {n : Nat} (h : delayChannels cfg count cs n s = .ok t)
    (hcap : 1 ≤ s.capacity.toNat) :
    ((∀ c ∈ cs, a < bufAddr cfg c 0 ∨ bufAddr cfg c 0 + 4 * count ≤ a) →
      Memory.get t.buf a = Memory.get s.buf a) ∧
    ((∀ c ∈ cs, a < ringAddr cfg c 0 ∨ ringAddr cfg c 0 + 4 * s.capacity.toNat ≤ a) →
      Memory.get t.ring a = Memory.get s.ring a) := by
  induction cs generalizing n s with
  | nil => cases h; exact ⟨fun _ => rfl, fun _ => rfl⟩
  | cons c cs ih =>
    obtain ⟨d, -, hrest⟩ := delayChannels_cons h
    obtain ⟨hbuf, hring⟩ := ih hrest hcap
    obtain ⟨hbuf1, hring1⟩ := delayMixStaysInItsMemories cfg c s.capacity.toNat s.writePos.toNat d count
      (n + 4) s.sm.dryWetMix s.buf s.ring a hcap
    rw [bufAddr_eq cfg c count] at hbuf1
    rw [ringAddr_eq cfg c s.capacity.toNat] at hring1
    refine ⟨fun ho => ?_, fun ho => ?_⟩
    · obtain ⟨hc, hcs⟩ := List.forall_mem_cons.1 ho
      exact (hbuf hcs).trans (hbuf1 hc)
    · obtain ⟨hc, hcs⟩ := List.forall_mem_cons.1 ho
      exact (hring hcs).trans (hring1 hc)

/-- The histories of channels that are not configured stay. -/
theorem runBlock_history (h : runBlock cfg count p s = .ok t) (st : Stage) {c : Channel}
    (hc : s.cfgNch.toNat ≤ Channel.index c) : State.history t st c = State.history s st c := by
  have hmem : c ∉ channelsOf s.cfgNch.toNat := fun hm => absurd ((mem_channelsOf _ c).1 hm) (not_lt.2 hc)
  obtain ⟨u, hu, rfl⟩ := runBlock_steps h rfl
  obtain ⟨b, r, rfl⟩ := delayChannels_frame hu
  exact chainLoop_history_other cfg count _ _ (smoothAndConfigure cfg s.draws p s) st hmem

/-- A byte outside the block stays. -/
theorem runBlock_buf_get (h : runBlock cfg count p s = .ok t) (hcap : 1 ≤ s.capacity.toNat)
    (ha : ¬ inBlock cfg s.cfgNch.toNat count a) : Memory.get t.buf a = Memory.get s.buf a := by
  have hout := outside_of_not_inBlock ha
  obtain ⟨u, hu, rfl⟩ := runBlock_steps h rfl
  obtain ⟨hbuf, -⟩ := delayChannels_get_outside (a := a) hu (by rwa [filteredBlock_capacity])
  exact (hbuf hout).trans (chainLoop_get_outside cfg count _ _ (smoothAndConfigure cfg s.draws p s) hout)

/-- A ring byte outside the rings in use stays. -/
theorem runBlock_ring_get (h : runBlock cfg count p s = .ok t) (hcap : 1 ≤ s.capacity.toNat)
    (ha : ¬ inRing cfg s.cfgNch.toNat s.capacity.toNat a) : Memory.get t.ring a = Memory.get s.ring a := by
  obtain ⟨u, hu, rfl⟩ := runBlock_steps h rfl
  obtain ⟨-, hring⟩ := delayChannels_get_outside (a := a) hu (by rwa [filteredBlock_capacity])
  rw [filteredBlock_capacity, filteredBlock_ring] at hring
  exact hring (outside_of_not_inRing ha)

end

/-- PROCESS writes `STATUS` only, or it runs a block on a ring of at least one word (R216, R217, R221). -/
theorem execProcess_status_or_block {s t : State} (h : exec .process s = .next t) :
    (∃ c e, t = { s with cause := c, esticky := e } ∧ (c = .none → e = s.esticky)) ∨
    1 ≤ s.capacity.toNat ∧
      runBlock hardware s.argNsamp.toNat (pullTargets s).1 (pullTargets s).2 = .ok t := by
  rcases processWith_next h with ⟨-, rfl⟩ | ⟨-, -, rfl⟩ | ⟨-, -, rfl⟩ |
    ⟨-, -, -, -, hring, -, hb⟩
  · exact .inl ⟨_, _, rfl, nofun⟩
  · exact .inl ⟨_, _, rfl, nofun⟩
  · exact .inl ⟨_, _, rfl, fun _ => rfl⟩
  · simp only [ringUsable, Bool.and_eq_true, decide_eq_true_eq] at hring
    obtain ⟨⟨hcap, -⟩, -⟩ := hring
    exact .inr ⟨hcap, hb⟩

/-- Settles O24: a report and an empty block write `STATUS` only, and a block stays in its channels. -/
theorem processTouchesOnlyItsBlock : Obligations.ProcessTouchesOnlyItsBlock := by
  intro s t h
  rcases execProcess_status_or_block h with ⟨c, e, rfl, hsticky⟩ | ⟨hcap, hb⟩
  · exact ⟨rfl, rfl, rfl, rfl, rfl, rfl, rfl, rfl, rfl, rfl, rfl, fun _ => rfl, hsticky, fun _ _ _ => rfl,
      fun _ _ => rfl, fun _ _ => rfl⟩
  · have hparam : s.landing = [] → t.param = s.param := by
      intro hl
      obtain ⟨f, b, r, ht⟩ := runBlock_frame hb
      rw [ht, pullTargets_of_nil hl]
    have hhist := fun st c => runBlock_history hb st (c := c)
    have hbuf := fun a => runBlock_buf_get (a := a) hb (by rwa [pullTargets_capacity])
    have hring := fun a => runBlock_ring_get (a := a) hb (by rwa [pullTargets_capacity])
    simp only [State.history, pullTargets_cfgNch, pullTargets_capacity, pullTargets_fh, pullTargets_buf,
      pullTargets_ring] at hhist hbuf hring
    obtain ⟨p, l, f, b, r, rfl⟩ := processBlock_frame hb
    exact ⟨rfl, rfl, rfl, rfl, rfl, rfl, rfl, rfl, rfl, rfl, rfl, hparam, fun _ => rfl, hhist, hbuf, hring⟩

end Sys2Proof.Machine
end

section
/-! The registers that PROCESS does not read (R222). -/

namespace Sys2Proof.Machine

/-- `s` with the registers of `u` that no block reads: the operands of PREPARE, `STATUS` but its `STATE`, and
the word that the host read last. -/
def State.withUnread (s u : State) : State :=
  { s with
    argFs := u.argFs, argNch := u.argNch, argMaxMs := u.argMaxMs
    rdata := u.rdata, cause := u.cause, esticky := u.esticky }

section
variable {cfg : Config} {count : Nat} {p : Params} {s t : State} (u : State)

theorem pullTargets_withUnread : (pullTargets (State.withUnread s u)).2 =
    State.withUnread (pullTargets s).2 u := rfl

theorem smoothAndConfigure_withUnread (n : Nat) : smoothAndConfigure cfg n p (State.withUnread s u) =
    State.withUnread (smoothAndConfigure cfg n p s) u := by
  rw [smoothAndConfigure_eq, smoothAndConfigure_eq]
  rfl

theorem filterStage_withUnread (n : Nat) (st : Stage) (c : Channel) :
    filterStage cfg n st c count (State.withUnread s u) =
      State.withUnread (filterStage cfg n st c count s) u := rfl

theorem chainLoop_withUnread (cs : List Channel) (n : Nat) (s : State) :
    chainLoop cfg count cs n (State.withUnread s u) = State.withUnread (chainLoop cfg count cs n s) u := by
  induction cs generalizing n s with
  | nil => rfl
  | cons c cs ih => rw [chainLoop, filterStage_withUnread, filterStage_withUnread, ih, chainLoop]

theorem filteredBlock_withUnread (cs : List Channel) : filteredBlock cfg count cs p (State.withUnread s u) =
    State.withUnread (filteredBlock cfg count cs p s) u := by
  rw [filteredBlock, smoothAndConfigure_withUnread, chainLoop_withUnread]
  rfl

theorem delayFor_withUnread (n : Nat) (c : Channel) :
    delayFor cfg n c (State.withUnread s u) = delayFor cfg n c s := rfl

theorem delayMix_withUnread (n d : Nat) (c : Channel) (m : Word) :
    delayMix cfg n c count d m (State.withUnread s u) = State.withUnread (delayMix cfg n c count d m s) u := rfl

theorem delayChannels_withUnread {cs : List Channel} {n : Nat} (h : delayChannels cfg count cs n s = .ok t) :
    delayChannels cfg count cs n (State.withUnread s u) = .ok (State.withUnread t u) := by
  induction cs generalizing n s with
  | nil => cases h; rfl
  | cons c cs ih =>
    obtain ⟨d, hd, hrest⟩ := delayChannels_cons h
    rw [delayChannels, delayFor_withUnread, hd]
    show delayChannels cfg count cs (n + 4 + 6 * count)
      (delayMix cfg (n + 4) c count d s.sm.dryWetMix (State.withUnread s u)) = _
    rw [delayMix_withUnread]
    exact ih hrest

/-- A block gives the same result whatever those registers hold, and clears the cause. -/
theorem runBlock_withUnread (h : runBlock cfg count p s = .ok t) :
    runBlock cfg count p (State.withUnread s u) = .ok (State.succeed (State.withUnread t u)) := by
  obtain ⟨v, hv, rfl⟩ := runBlock_steps h rfl
  have hu := delayChannels_withUnread u hv
  rw [← filteredBlock_withUnread] at hu
  exact runBlock_of_steps (s := State.withUnread s u) hu

end

/-- A PROCESS that ends without a cause had an empty block or ran one, and ends alike whatever those registers
hold. -/
theorem execProcess_withUnread {s t : State} (u : State) (h : exec .process s = .next t)
    (hc : t.cause = .none) :
    exec .process (State.withUnread s u) = .next (State.succeed (State.withUnread t u)) := by
  rcases processWith_next h with ⟨-, rfl⟩ | ⟨-, -, rfl⟩ | ⟨hp, h0, rfl⟩ |
    ⟨hp, h1, h2, hlegal, hring, hrate, hb⟩
  · cases hc
  · cases hc
  · exact emptyBlockChangesNothing (State.withUnread s u) hp (BitVec.eq_of_toNat_eq h0)
  · have hb' := runBlock_withUnread u hb
    rw [← pullTargets_withUnread] at hb'
    exact (processWith_eq_processBlock (s := State.withUnread s u) hp h1 h2).trans
      (processBlock_of_runBlock (s := State.withUnread s u) hlegal hring hrate hb')

/-- Settles O27: no step of a block reads those registers, and its end writes the cause. -/
theorem processIgnoresWhatItDoesNotRead : Obligations.ProcessIgnoresWhatItDoesNotRead := by
  intro s t fs nch ms rd c e h hc
  rw [hc]
  exact execProcess_withUnread
    { s with argFs := fs, argNch := nch, argMaxMs := ms, rdata := rd, cause := c, esticky := e } h hc

end Sys2Proof.Machine
end

section
/-! The hardware acts only when the host asks it to (R243). -/

namespace Sys2Proof.Machine

/-- Settles O5: the next move is all that a step acts on. -/
theorem nothingHappensWithoutAHostMove : Obligations.NothingHappensWithoutAHostMove :=
  fun _ hnone => step_nil hnone

end Sys2Proof.Machine
end

section
/-! The hardware reset event from any state (R270, R36). -/

namespace Sys2Proof.Machine

theorem step_reset {s : State} {rest : List HostMove} (h : s.host = .reset :: rest) :
    step s = .next (State.hardwareReset hardware { s with host := rest }) := by
  rw [step_cons h, hostMove]

@[simp] theorem statusWord_hardwareReset (cfg : Config) (s : State) :
    statusWord (State.hardwareReset cfg s) = 0 := rfl

/-- Settles O13: the reset event ends in `State.hardwareReset`, with the `SM_RESET` of the configuration. -/
theorem resetEventRestoresTheSpecifiedValues : Obligations.ResetEventRestoresTheSpecifiedValues := by
  intro s rest hreset
  have hsm : hardware.smReset = smResetDefault := rfl
  exact ⟨_, step_reset hreset, by simp [hsm]⟩

end Sys2Proof.Machine
end
